-- ==== Sys2Proof/Word.lean ====
section
/-! DEFINITION. Word types of the register interface (spec/00_scope.md rules R7 and R8). -/

namespace Sys2Proof

/-- A register and the bus data path: `REG_W` = 32 bits (R7).
DESIGN CHOICE (log 25): a byte address of the host's data address space has the same width, which no rule
states. -/
abbrev Word := BitVec 32

/-- One byte of the window as a little-endian host sees it (R63). -/
abbrev Byte := BitVec 8

/-- A level of the serial line: `true` is mark, 1; `false` is space, 0 (R13, R44). -/
abbrev Level := Bool

end Sys2Proof
end

