-- ==== Sys2Proof/Config.lean ====
section
/-! DEFINITION. Parameters of spec/00_scope.md rule R7, and the free values of the timing level and of the
firmware's buffers. -/

namespace Sys2Proof

namespace Config

/-- `WINDOW`, the size of the register window in bytes (R7, R60). -/
def window : Nat := 32

/-- `OFF_SR` (R7, R70). -/
def offSR : BitVec 5 := 0x00#5
/-- `OFF_DR` (R7, R70). -/
def offDR : BitVec 5 := 0x04#5
/-- `OFF_BRR` (R7, R70). -/
def offBRR : BitVec 5 := 0x08#5
/-- `OFF_CR1` (R7, R70). -/
def offCR1 : BitVec 5 := 0x0C#5
/-- `OFF_CR2` (R7, R70). -/
def offCR2 : BitVec 5 := 0x10#5

end Config

/-- The table of register offsets, "decided, parameterizable" (R7, R94, U22). Five bits keep every offset
below `WINDOW`; the rest of R94 is `Offsets.wf`. -/
structure Offsets where
  /-- `OFF_SR`. -/
  sr : BitVec 5
  /-- `OFF_DR`. -/
  dr : BitVec 5
  /-- `OFF_BRR`. -/
  brr : BitVec 5
  /-- `OFF_CR1`. -/
  cr1 : BitVec 5
  /-- `OFF_CR2`. -/
  cr2 : BitVec 5
  deriving DecidableEq, Repr

/-- The defaults of R7, at which spec/opcode_table.json gives the selectors. -/
def Offsets.default : Offsets :=
  { sr := Config.offSR, dr := Config.offDR, brr := Config.offBRR, cr1 := Config.offCR1,
    cr2 := Config.offCR2 }

/-- The bit position of every field of the five registers, "decided, parameterizable" (R7, R25 to R29, D6,
U22); of a field of several bits the position of its lowest bit. What a legal layout is, is `Layout.wf`. -/
structure Layout where
  /-- `SR.TXE`. -/
  txe : Nat
  /-- `SR.TC`. -/
  tc : Nat
  /-- `SR.RXNE`. -/
  rxne : Nat
  /-- `SR.ORE`. -/
  ore : Nat
  /-- `SR.FE`. -/
  fe : Nat
  /-- `SR.PE`. -/
  pe : Nat
  /-- `DR.DATA`, 9 bits from here. -/
  data : Nat
  /-- `BRR.DIV`, 16 bits from here. -/
  div : Nat
  /-- `CR1.UE`. -/
  ue : Nat
  /-- `CR1.WL`, 2 bits from here. -/
  wl : Nat
  /-- `CR1.PCE`. -/
  pce : Nat
  /-- `CR1.PS`. -/
  ps : Nat
  /-- `CR1.TXEIE`. -/
  txeie : Nat
  /-- `CR1.RXNEIE`. -/
  rxneie : Nat
  /-- `CR2.STOP2`. -/
  stop2 : Nat
  deriving DecidableEq, Repr

/-- The positions of R25 to R29. -/
def Layout.default : Layout :=
  { txe := 7, tc := 6, rxne := 5, ore := 3, fe := 1, pe := 0
    data := 0
    div := 0
    ue := 13, wl := 11, pce := 10, ps := 9, txeie := 7, rxneie := 5
    stop2 := 13 }

/-- What the platform and the implementation supply and the spec leaves OPEN or parameterizable (R7, R71,
D3, D30). `F_CLK` is an argument of `configure`. -/
structure Params where
  /-- `UART_BASE`, the byte address of the register window in the host's data address space. -/
  uartBase : Word
  /-- `UART_IRQ_ID`, the number of the block's line at the interrupt controller (R248). -/
  uartIrqId : Nat
  /-- `OFF_SR` to `OFF_CR2`. -/
  offsets : Offsets := Offsets.default
  /-- The bit positions of the fields (D6). -/
  layout : Layout := Layout.default
  /-- `C_rx`, the firmware's receive buffer in bytes (R220, D40). -/
  cRx : Nat := 64
  /-- `C_tx`, the firmware's transmit buffer in bytes (R220, D40). -/
  cTx : Nat := 64
  deriving DecidableEq, Repr

/-- The defaults of R7: `UART_BASE` = 0x4000_4800, `UART_IRQ_ID` = 39.
DESIGN CHOICE (log 6): `step` runs under these; `stepWith` takes any `Params`. -/
def Params.default : Params := { uartBase := 0x40004800#32, uartIrqId := 39 }

namespace Config

/-- The reserved code of `WL` (R28, R105). -/
def wlReserved : BitVec 2 := 0b11#2

/-- FREE VALUE (log 13): how many cycles the bit in progress still lasts once a frame that stalled with
`DIV` = 0 may go on; spec/93_implementation_defined.md U6 says "any value".
Read by the timing level only, at the index `freeCtr`. -/
opaque freeResume : Nat → BitVec 16

/-- FREE VALUE (log 31): the byte a cell of a firmware buffer holds while nothing has written it; "tx" or
"rx" buffer, and index. No rule gives it: the buffers are "initialized empty" (R220). -/
opaque freeCell : Bool → Nat → BitVec 8

end Config

end Sys2Proof
end

