-- ==== Sys2Proof/Syntax.lean ====
section
/-! DEFINITION. The sixteen bus operations of spec/opcode_table.json (spec/30_encoding.md rules R91 and
R93): the block's "instructions" (R6). -/

namespace Sys2Proof

/-- One constructor per row of the opcode table. A read (`RD_x`, format `R`) has no operand; a write
(`WR_x`, format `W`) carries its 32-bit data word `wdata` (R91). -/
inductive Instr where
  /-- `RD_SR`, selector 0x40 (R120). -/
  | rdSr
  /-- `RD_DR`, selector 0x44 (R130). -/
  | rdDr
  /-- `RD_BRR`, selector 0x48 (R140). -/
  | rdBrr
  /-- `RD_CR1`, selector 0x4C (R155). -/
  | rdCr1
  /-- `RD_CR2`, selector 0x50 (R165). -/
  | rdCr2
  /-- `RD_RSV14`, selector 0x54 (R171). -/
  | rdRsv14
  /-- `RD_RSV18`, selector 0x58 (R171). -/
  | rdRsv18
  /-- `RD_RSV1C`, selector 0x5C (R171). -/
  | rdRsv1c
  /-- `WR_SR`, selector 0xC0 (R122). -/
  | wrSr (wdata : Word)
  /-- `WR_DR`, selector 0xC4 (R132). -/
  | wrDr (wdata : Word)
  /-- `WR_BRR`, selector 0xC8 (R141). -/
  | wrBrr (wdata : Word)
  /-- `WR_CR1`, selector 0xCC (R156). -/
  | wrCr1 (wdata : Word)
  /-- `WR_CR2`, selector 0xD0 (R166). -/
  | wrCr2 (wdata : Word)
  /-- `WR_RSV14`, selector 0xD4 (R172). -/
  | wrRsv14 (wdata : Word)
  /-- `WR_RSV18`, selector 0xD8 (R172). -/
  | wrRsv18 (wdata : Word)
  /-- `WR_RSV1C`, selector 0xDC (R172). -/
  | wrRsv1c (wdata : Word)
  deriving DecidableEq, Repr

end Sys2Proof
end

