-- ==== Sys2Proof/WellFormed.lean ====
section
/-! DEFINITION. The host's access and the bus transaction as they reach the port, and the checks of
spec/20_memory.md rule R65 on them. -/

namespace Sys2Proof

/-- `SIZE` of the only accesses with a meaning: 0b10, a 32-bit word (R61, R65, R90). -/
def sizeWord : BitVec 2 := 0b10#2

/-- One load or store of the host, before the platform decodes its address: `MemRead(addr, size)` or
`MemWrite(addr, size, wdata)` (R10). -/
structure HostAccess where
  /-- 1 = write, 0 = read. -/
  write : Bool
  /-- 0b00 byte, 0b01 halfword, 0b10 word, 0b11 not used (R61). -/
  size : BitVec 2
  /-- The byte address in the host's data address space (R60). DESIGN CHOICE (log 25): 32 bits; the spec
  gives that space no width. -/
  addr : Word
  /-- Write data; not looked at by a read. -/
  wdata : Word
  deriving DecidableEq, Repr

/-- A transaction at the block's slave port, the tuple `(write, size, addr, wdata)` of R61. -/
structure Transaction where
  /-- 1 = write, 0 = read. -/
  write : Bool
  /-- Access size code (R61). -/
  size : BitVec 2
  /-- Byte offset in the window. -/
  addr : BitVec 5
  /-- Write data. -/
  wdata : Word
  deriving DecidableEq, Repr

/-- R65: a 32-bit access at a multiple of 4. The 5-bit offset keeps it below 32. -/
def Transaction.wf (t : Transaction) : Bool :=
  t.size == sizeWord && t.addr.extractLsb' 0 2 == 0#2

/-- R65 for the host's view: word size, word-aligned in the window, and inside
`[UART_BASE, UART_BASE + 32)`. DESIGN CHOICE (log 25): the window does not wrap round the end of the
address space. -/
def HostAccess.wf (p : Params) (a : HostAccess) : Bool :=
  a.size == sizeWord && (a.addr - p.uartBase).extractLsb' 0 2 == 0#2 &&
    decide (p.uartBase.toNat ≤ a.addr.toNat) &&
    decide (a.addr.toNat < p.uartBase.toNat + Config.window)

/-- Whether an operation is of format `W` and so carries a data word (R91). -/
def Instr.isWrite : Instr → Bool
  | .rdSr | .rdDr | .rdBrr | .rdCr1 | .rdCr2 | .rdRsv14 | .rdRsv18 | .rdRsv1c => false
  | .wrSr _ | .wrDr _ | .wrBrr _ | .wrCr1 _ | .wrCr2 _ | .wrRsv14 _ | .wrRsv18 _ | .wrRsv1c _ => true

/-- The data word of a format-`W` operation (R91). -/
def Instr.data : Instr → Option Word
  | .rdSr | .rdDr | .rdBrr | .rdCr1 | .rdCr2 | .rdRsv14 | .rdRsv18 | .rdRsv1c => none
  | .wrSr w | .wrDr w | .wrBrr w | .wrCr1 w | .wrCr2 w | .wrRsv14 w | .wrRsv18 w | .wrRsv1c w => some w

/-- Well-formedness of an operation. Every data word of 32 bits is legal on every write (R91, R92:
bits outside the implemented fields are ignored, no field value is refused at the write, R105), so what
is left to check is the shape of R91: a data word exactly on a write. -/
def Instr.wf (i : Instr) : Bool := i.data.isSome == i.isWrite

/-- The offsets as one table, in the order of R7. -/
def Offsets.table (o : Offsets) : List (BitVec 5) := [o.sr, o.dr, o.brr, o.cr1, o.cr2]

/-- R94: every offset is a multiple of 4, and no two registers share one. -/
def Offsets.wf (o : Offsets) : Bool :=
  o.table.all (fun off => off.extractLsb' 0 2 == 0#2) && decide o.table.Nodup

/-- The bits of `SR` that are implemented (R25). -/
def Layout.srBits (l : Layout) : List Nat := [l.txe, l.tc, l.rxne, l.ore, l.fe, l.pe]

/-- The bits of `DR` that are implemented (R26). -/
def Layout.drBits (l : Layout) : List Nat := List.range' l.data 9

/-- The bits of `BRR` that are implemented (R27). -/
def Layout.brrBits (l : Layout) : List Nat := List.range' l.div 16

/-- The bits of `CR1` that are implemented (R28). -/
def Layout.cr1Bits (l : Layout) : List Nat :=
  [l.ue] ++ List.range' l.wl 2 ++ [l.pce, l.ps, l.txeie, l.rxneie]

/-- The bits of `CR2` that are implemented (R29). -/
def Layout.cr2Bits (l : Layout) : List Nat := [l.stop2]

/-- The implemented bits of one register fit it and no two fields share one. -/
def bitsFit (bits : List Nat) : Bool := bits.all (fun k => decide (k < 32)) && decide bits.Nodup

/-- A layout is legal "as long as fields do not overlap" (spec/92_eei_decisions.md, open parameters) and every
field lies in its 32-bit register (R7; DEDUCED, log 36). -/
def Layout.wf (l : Layout) : Bool :=
  bitsFit l.srBits && bitsFit l.drBits && bitsFit l.brrBits && bitsFit l.cr1Bits && bitsFit l.cr2Bits

/-- Which parameters the statements call legal. The offsets: as R94 says; the layout: as above. DESIGN CHOICE (log 25) for
`UART_BASE`, which the spec leaves OPEN without a constraint (R71): it is word aligned and the window ends
by the end of the model's 32-bit address space. -/
def Params.wf (p : Params) : Bool :=
  p.uartBase.extractLsb' 0 2 == 0#2 && decide (p.uartBase.toNat + Config.window ≤ 2 ^ 32) &&
    p.offsets.wf && p.layout.wf

end Sys2Proof
end

