-- ==== Sys2Proof/Decode.lean ====
section
/-! DEFINITION. The decoder of spec/30_encoding.md rule R94, at the default offsets and at any table of
offsets, and, after it, the encoder written from the opcode map of rule R93. -/

namespace Sys2Proof

/-- Why a selector decodes to no operation (R94, R103). -/
inductive SelectorReject where
  /-- `SIZE != 0b10`; tested first. -/
  | badSize
  /-- `OFF[1:0] != 0b00`. -/
  | misaligned
  deriving DecidableEq, Repr

/-- Why a string of bytes decodes to no operation. -/
inductive BytesReject where
  /-- The first byte is no selector of R93. -/
  | selector (r : SelectorReject)
  /-- A write without its four data bytes, or no byte at all. -/
  | truncated
  deriving DecidableEq, Repr

/-- The eight word slots of the window (R60, R70, R94). -/
inductive Reg where
  | sr | dr | brr | cr1 | cr2 | rsv14 | rsv18 | rsv1c
  deriving DecidableEq, Repr

/-- `[SR, DR, BRR, CR1, CR2, RSV14, RSV18, RSV1C][slot]` (R94). The last case is slot 7. -/
def slotReg (slot : BitVec 3) : Reg :=
  match slot.toNat with
  | 0 => .sr
  | 1 => .dr
  | 2 => .brr
  | 3 => .cr1
  | 4 => .cr2
  | 5 => .rsv14
  | 6 => .rsv18
  | _ => .rsv1c

/-- The byte offset of a slot at the defaults (R7, R70); the three reserved slots lie behind the registers
(R20). -/
def Reg.offset : Reg → BitVec 5
  | .sr => Config.offSR
  | .dr => Config.offDR
  | .brr => Config.offBRR
  | .cr1 => Config.offCR1
  | .cr2 => Config.offCR2
  | .rsv14 => 0x14#5
  | .rsv18 => 0x18#5
  | .rsv1c => 0x1C#5

/-- The offset of slot `slot`. -/
def slotOffset (slot : BitVec 3) : BitVec 5 := slot ++ 0#2

/-- The slots that no register of the table lies at, in rising order: the reserved slots. -/
def Offsets.freeSlots (o : Offsets) : List (BitVec 3) :=
  ((List.range 8).map (BitVec.ofNat 3)).filter fun slot => !o.table.contains (slotOffset slot)

/-- The name of the `k`-th reserved slot (log 32). -/
def reservedReg : Nat → Reg
  | 0 => .rsv14
  | 1 => .rsv18
  | _ => .rsv1c

/-- With parameterized offsets "`slot` is looked up in the parameter table" (R94). DESIGN CHOICE (log 32):
the three slots left over are reserved under the names `RSV14`, `RSV18`, `RSV1C`, in rising order. -/
def slotRegAt (o : Offsets) (slot : BitVec 3) : Reg :=
  if slotOffset slot = o.sr then .sr
  else if slotOffset slot = o.dr then .dr
  else if slotOffset slot = o.brr then .brr
  else if slotOffset slot = o.cr1 then .cr1
  else if slotOffset slot = o.cr2 then .cr2
  else reservedReg (o.freeSlots.idxOf slot)

/-- The byte offset of a slot under a table of offsets (R7, R94; the reserved slots: log 32). -/
def Reg.offsetAt (o : Offsets) : Reg → BitVec 5
  | .sr => o.sr
  | .dr => o.dr
  | .brr => o.brr
  | .cr1 => o.cr1
  | .cr2 => o.cr2
  | .rsv14 => slotOffset (o.freeSlots.getD 0 0#3)
  | .rsv18 => slotOffset (o.freeSlots.getD 1 0#3)
  | .rsv1c => slotOffset (o.freeSlots.getD 2 0#3)

/-- `RD reg` (R106). -/
def readOf : Reg → Instr
  | .sr => .rdSr
  | .dr => .rdDr
  | .brr => .rdBrr
  | .cr1 => .rdCr1
  | .cr2 => .rdCr2
  | .rsv14 => .rdRsv14
  | .rsv18 => .rdRsv18
  | .rsv1c => .rdRsv1c

/-- `WR reg, v` (R106). -/
def writeOf (r : Reg) (v : Word) : Instr :=
  match r with
  | .sr => .wrSr v
  | .dr => .wrDr v
  | .brr => .wrBrr v
  | .cr1 => .wrCr1 v
  | .cr2 => .wrCr2 v
  | .rsv14 => .wrRsv14 v
  | .rsv18 => .wrRsv18 v
  | .rsv1c => .wrRsv1c v

/-- `W = sel[7]` (R90). -/
def selW (sel : BitVec 8) : Bool := sel.getLsbD 7

/-- `SIZE = sel[6:5]` (R90). -/
def selSize (sel : BitVec 8) : BitVec 2 := sel.extractLsb' 5 2

/-- `OFF = sel[4:0]` (R90). -/
def selOff (sel : BitVec 8) : BitVec 5 := sel.extractLsb' 0 5

/-- R94, for any way to look a slot up, with the data word of a write beside the selector. -/
def decodeWith (look : BitVec 3 → Reg) (sel : BitVec 8) (wdata : Word) : Except SelectorReject Instr :=
  if selSize sel ≠ sizeWord then .error .badSize
  else if (selOff sel).extractLsb' 0 2 ≠ 0#2 then .error .misaligned
  else
    let reg := look ((selOff sel).extractLsb' 2 3)
    .ok (if selW sel then writeOf reg wdata else readOf reg)

/-- R94 with the fixed list: the default offsets, at which the opcode table is given. -/
def decodeSelector (sel : BitVec 8) (wdata : Word) : Except SelectorReject Instr :=
  decodeWith slotReg sel wdata

/-- R94 with parameterized offsets. -/
def decodeSelectorAt (o : Offsets) (sel : BitVec 8) (wdata : Word) : Except SelectorReject Instr :=
  decodeWith (slotRegAt o) sel wdata

/-- `sel = write ++ size ++ addr` (R90). -/
def Transaction.selector (t : Transaction) : BitVec 8 := BitVec.ofBool t.write ++ t.size ++ t.addr

/-- The operation a transaction at the port stands for, at the default offsets (R90, R94). -/
def decodeTransaction (t : Transaction) : Except SelectorReject Instr :=
  decodeSelector t.selector t.wdata

/-- The operation a transaction at the port stands for, under a table of offsets (R90, R94). -/
def decodeTransactionAt (o : Offsets) (t : Transaction) : Except SelectorReject Instr :=
  decodeSelectorAt o t.selector t.wdata

/-- A word from its bytes, least significant first: DESIGN CHOICE (log 9), little-endian as the window
is (R63). -/
def bytesToWord (b0 b1 b2 b3 : Byte) : Word := b3 ++ b2 ++ b1 ++ b0

/-- The bytes of a word, least significant first (log 9). -/
def wordToBytes (w : Word) : List Byte :=
  [w.extractLsb' 0 8, w.extractLsb' 8 8, w.extractLsb' 16 8, w.extractLsb' 24 8]

/-- Decode one operation from the front of a string of bytes: the selector byte, and for a write the
four bytes of its data word (R91, R106; the byte form is the model's, log 9). -/
def decodeBytes : List Byte → Except BytesReject (Instr × List Byte)
  | [] => .error .truncated
  | sel :: rest =>
    match decodeSelector sel 0#32 with
    | .error r => .error (.selector r)
    | .ok read =>
      if selW sel then
        match rest with
        | b0 :: b1 :: b2 :: b3 :: rest' =>
          match decodeSelector sel (bytesToWord b0 b1 b2 b3) with
          | .error r => .error (.selector r)
          | .ok i => .ok (i, rest')
        | _ => .error .truncated
      else .ok (read, rest)

/-- The five bytes of the longest operation, bit 0 the least significant bit of the selector byte, every
bit at or above `nbits` zero. -/
def tableBits (nbits w : Nat) : BitVec 40 := BitVec.ofNat 40 (w % 2 ^ nbits)

/-- What the decoder reads from a word numbered as spec/opcode_table.json numbers it. -/
def decodeTableWord (nbits w : Nat) : Option Instr :=
  let v := tableBits nbits w
  match decodeBytes [v.extractLsb' 0 8, v.extractLsb' 8 8, v.extractLsb' 16 8, v.extractLsb' 24 8,
      v.extractLsb' 32 8] with
  | .ok (i, _) => some i
  | .error _ => none

/-- The opcode map of R93. -/
def selectorOf : Instr → BitVec 8
  | .rdSr => 0x40#8
  | .rdDr => 0x44#8
  | .rdBrr => 0x48#8
  | .rdCr1 => 0x4C#8
  | .rdCr2 => 0x50#8
  | .rdRsv14 => 0x54#8
  | .rdRsv18 => 0x58#8
  | .rdRsv1c => 0x5C#8
  | .wrSr _ => 0xC0#8
  | .wrDr _ => 0xC4#8
  | .wrBrr _ => 0xC8#8
  | .wrCr1 _ => 0xCC#8
  | .wrCr2 _ => 0xD0#8
  | .wrRsv14 _ => 0xD4#8
  | .wrRsv18 _ => 0xD8#8
  | .wrRsv1c _ => 0xDC#8

/-- The encoding column of R106, `C8 00000682`, as bytes (log 9). -/
def encode (i : Instr) : List Byte :=
  selectorOf i ::
    match i.data with
    | none => []
    | some w => wordToBytes w

/-- The slot an operation acts on (R93). -/
def Instr.reg : Instr → Reg
  | .rdSr | .wrSr _ => .sr
  | .rdDr | .wrDr _ => .dr
  | .rdBrr | .wrBrr _ => .brr
  | .rdCr1 | .wrCr1 _ => .cr1
  | .rdCr2 | .wrCr2 _ => .cr2
  | .rdRsv14 | .wrRsv14 _ => .rsv14
  | .rdRsv18 | .wrRsv18 _ => .rsv18
  | .rdRsv1c | .wrRsv1c _ => .rsv1c

/-- The transaction that the platform presents for an operation under a table of offsets (R61, R91). -/
def transactionAt (o : Offsets) (i : Instr) : Transaction :=
  { write := i.isWrite, size := sizeWord, addr := i.reg.offsetAt o, wdata := i.data.getD 0#32 }

/-- The transaction that the platform presents for an operation at the default offsets (R61, R91). -/
def transactionOf (i : Instr) : Transaction :=
  { write := selW (selectorOf i), size := selSize (selectorOf i), addr := selOff (selectorOf i),
    wdata := i.data.getD 0#32 }

end Sys2Proof
end

