-- ==== Sys2Proof/Machine/State.lean ====
section
/-! DEFINITION. Everything spec/10_state.md gives the block (rules R20 to R46), the steps of its agents
as data (spec/00_scope.md rule R12), and the outcomes that are not a next state (R11). -/

namespace Sys2Proof.Machine

/-- `TXS`, the transmit sequencer state (R41). -/
inductive TxSeq where
  /-- `T_IDLE`: no frame in flight, `txd` is 1. -/
  | tIdle
  /-- `T_SHIFT`: a frame is in flight; `TSR` holds what is left of it. -/
  | tShift
  deriving DecidableEq, Repr

/-- `RXS`, the receive sequencer state (R42). -/
inductive RxSeq where
  /-- `R_IDLE`: hunting for a start bit. -/
  | rIdle
  /-- `R_RECV`: a start bit was accepted; `RSR` collects the bits that follow. -/
  | rRecv
  deriving DecidableEq, Repr

/-- `RXCFG`, the framing fields latched at `RX_START` (R39). -/
structure RxCfg where
  /-- Word length code as latched. -/
  wl : BitVec 2
  /-- Parity enable as latched. -/
  pce : Bool
  /-- Parity select as latched. -/
  ps : Bool
  deriving DecidableEq, Repr

/-- One atomic step of one agent (R12, R74, R106). -/
inductive Event where
  /-- `Host`: one load or store (R10). -/
  | host (a : HostAccess)
  /-- `TxEngine`: `TX_LOAD` (R176). -/
  | txLoad
  /-- `TxEngine`: `TX_BIT` (R177). -/
  | txBit
  /-- `TxEngine`: `TX_END` (R179). -/
  | txEnd
  /-- `TxEngine`: the merge `TX_CHAR` (R183). -/
  | txChar
  /-- `Line` begins a frame and `RxEngine` takes `RX_START` (R200). -/
  | rxStart
  /-- `RxEngine`: `RX_BIT(b)`, `b` chosen by `Line` (R201). -/
  | rxBit (b : Level)
  /-- `RxEngine`: `RX_END` (R203). -/
  | rxEnd
  /-- `RxEngine`: the merge `RX_CHAR(d, p, stop)` (R207); only the low `nbits(WL)` bits of `d` count. -/
  | rxChar (d : BitVec 9) (p stop : Level)
  /-- `Env`: `rst_n` falls (R270). -/
  | rstAssert
  /-- `Env`: `rst_n` rises (R270). -/
  | rstRelease
  /-- `Env`: `clk_en` falls (R276). -/
  | clkGate
  /-- `Env`: `clk_en` rises (R276). -/
  | clkUngate
  /-- Timing level: one cycle of `clk`, with at most one host access and the level of the pin `rxd`
  (R147, R196, R288). -/
  | cycle (access : Option HostAccess) (rxd : Level)
  deriving DecidableEq, Repr

/-- The whole state. Field names follow the spec's names for the state they hold. -/
structure State where
  /-- `SR.TXE`, transmit-data-register-empty (R30). -/
  txe : Bool
  /-- `SR.RXNE`, data-ready (R32). -/
  rxne : Bool
  /-- `SR.ORE`, overrun (R33). -/
  ore : Bool
  /-- `SR.FE`, framing error (R34). -/
  fe : Bool
  /-- `SR.PE`, parity error (R35). -/
  pe : Bool
  /-- `TDR`, the transmit data register (R37). -/
  tdr : BitVec 9
  /-- `RDR`, the receive data register (R38). -/
  rdr : BitVec 9
  /-- `BRR.DIV`, the baud-rate divisor (R27). -/
  div : BitVec 16
  /-- `CR1.UE`, peripheral enable (R28). -/
  ue : Bool
  /-- `CR1.WL`, word length; 0b11 is storable (R28, R105). -/
  wl : BitVec 2
  /-- `CR1.PCE`, parity control enable (R28). -/
  pce : Bool
  /-- `CR1.PS`, parity select (R28). -/
  ps : Bool
  /-- `CR1.TXEIE`, transmit-interrupt source enable (R28). -/
  txeie : Bool
  /-- `CR1.RXNEIE`, receive-interrupt source enable (R28). -/
  rxneie : Bool
  /-- `CR2.STOP2`, stop bits (R29). -/
  stop2 : Bool
  /-- `TXS` (R41). -/
  txs : TxSeq
  /-- `TSR`, the levels still to drive, next first (R39). -/
  tsr : List Level
  /-- `RXS` (R42). -/
  rxs : RxSeq
  /-- `RSR`, the levels sampled after the start bit, oldest first (R39). -/
  rsr : List Level
  /-- `RXCFG` (R39). -/
  rxcfg : RxCfg
  /-- The pin `txd` (R44). -/
  txd : Level
  /-- `LINE_OUT`, every level driven since reset, oldest first (R44). -/
  lineOut : List Level
  /-- The transmitter's baud counter (R147); timing level. -/
  txCnt : BitVec 16
  /-- The receiver's baud counter (R147); timing level. -/
  rxCnt : BitVec 16
  /-- A start-bit check is pending: the model's own field (R147, R200; log 11); timing level. -/
  startPending : Bool
  /-- First synchroniser flip-flop (R196; log 12); timing level. -/
  rxdMeta : Level
  /-- `RXD_S`, second synchroniser flip-flop (R196); timing level. -/
  rxdS : Level
  /-- `RXD_Q`, edge detector (R196); timing level. -/
  rxdQ : Level
  /-- The output `irq` as the interrupt controller sees it in time, one cycle behind `State.irq` (R243, R292;
  log 33); timing level. -/
  irqPin : Bool
  /-- The input `rst_n`, as `Env` last drove it (R270). -/
  rstN : Bool
  /-- The input `clk_en`, as the clock subsystem last drove it (R276). -/
  clkEn : Bool
  /-- `rdata`, the read data of the latest read (R61; log 4). -/
  rdata : Word
  /-- The steps still to come, oldest first: the model's own field (log 1). -/
  sched : List Event
  /-- Index of the next free value: the model's own field (log 13). -/
  freeCtr : Nat
  deriving DecidableEq, Repr

/-- The block raises no exception, trap or fault and never signals a bus error (R11, R240), so there is
no constructor: no step of the model can end in a fault. -/
inductive Fault where
  deriving DecidableEq, Repr

/-- The closed list of R11, and the host's own reason for an arm that has no meaning yet. Each refusal
is safe: the model stops where the spec gives no meaning. -/
inductive Refusal where
  /-- Raised by `exec` alone, for an operation not modelled; no arm of this model raises it. Safe. -/
  | notModelled (mnemonic : String)
  /-- Raised by every bus operation while `clk_en` = 0 (R276, U1). Safe. -/
  | clockGated
  /-- Raised by every bus operation while `rst_n` = 0 (R271, U2). Safe. -/
  | inReset
  /-- Raised by an access whose size is not a word (R65, U8). Safe. -/
  | badSize
  /-- Raised by an access that is not word aligned (R65, U8). Safe. -/
  | misaligned
  /-- Raised by an access outside the window that is routed to the block (R65, U9). Safe. -/
  | outOfWindow
  /-- Raised by `TX_LOAD`, `RX_START`, `RX_CHAR` under `WL` = 0b11 (R105, U7), and by `RX_BIT`, `RX_END`
  under a reserved `RXCFG.WL`, which no run reaches (R96). Safe. -/
  | reservedWL
  deriving DecidableEq, Repr

/-- What a step of the machine answers. -/
abbrev Result := Host.Outcome State Fault Refusal

/-- The machine right after reset: every field at the value of R45, reset released (R270) and the clock
enabled (DEDUCED from the order of R273, log 5). `rdata`, `sched` and `freeCtr` are the model's values
(logs 4, 1 and 13). -/
def State.reset : State where
  txe := true
  rxne := false
  ore := false
  fe := false
  pe := false
  tdr := 0#9
  rdr := 0#9
  div := 0#16
  ue := false
  wl := 0b00#2
  pce := false
  ps := false
  txeie := false
  rxneie := false
  stop2 := false
  txs := .tIdle
  tsr := []
  rxs := .rIdle
  rsr := []
  rxcfg := { wl := 0b00#2, pce := false, ps := false }
  txd := true
  lineOut := []
  txCnt := 0#16
  rxCnt := 0#16
  startPending := false
  rxdMeta := true
  rxdS := true
  rxdQ := true
  irqPin := false
  rstN := true
  clkEn := true
  rdata := 0#32
  sched := []
  freeCtr := 0

end Sys2Proof.Machine
end

