-- ==== Sys2Proof/Machine/Operands.lean ====
section
/-! DEFINITION. Operand assembly of spec/30_encoding.md: write data into fields (R99), fields into read
data (R100), a character into a frame (R95 to R98), a frame into a character (R101). -/

namespace Sys2Proof.Machine

/-- `nbits(WL)`: 8, 7 or 9 data bits; `none` stands for `Refuse(ReservedWL)` (R96). -/
def nbits (wl : BitVec 2) : Option Nat :=
  if wl = 0b00#2 then some 8
  else if wl = 0b01#2 then some 7
  else if wl = 0b10#2 then some 9
  else none

/-- `framelen(WL, PCE, STOP2)` (R96). -/
def framelen (wl : BitVec 2) (pce stop2 : Bool) : Option Nat :=
  (nbits wl).map fun n => 1 + n + pce.toNat + 1 + stop2.toNat

/-- `rxlen(WL, PCE)`: the levels sampled after the start bit (R96). -/
def rxlen (wl : BitVec 2) (pce : Bool) : Option Nat :=
  (nbits wl).map fun n => n + pce.toNat + 1

/-- `[c[0], c[1], ..., c[n-1]]`, least significant first (R64, R95). -/
def dataLevels (c : BitVec 9) (n : Nat) : List Level := (List.range n).map fun k => c.getLsbD k

/-- `par(c, n, PS) = c[0] ^ ... ^ c[n-1] ^ PS` (R97). -/
def par (c : BitVec 9) (n : Nat) (ps : Bool) : Bool := (dataLevels c n).foldr Bool.xor ps

/-- `Frame(v, WL, PCE, PS, STOP2)` (R98): start bit, data bits, parity bit if enabled, stop bits. -/
def frame (v : BitVec 9) (wl : BitVec 2) (pce ps stop2 : Bool) : Option (List Level) :=
  (nbits wl).map fun n =>
    [false] ++ dataLevels v n ++ (if pce then [par v n ps] else []) ++ [true] ++
      (if stop2 then [true] else [])

/-- `d = s[n-1] ++ ... ++ s[0]`, zero extended to 9 bits (R101, R203, D34). -/
def charOf (n : Nat) (levels : List Level) : BitVec 9 :=
  (BitVec.ofBoolListLE (levels.take n)).setWidth 9

/-- What R101 reads out of a received frame. -/
structure RxChar where
  /-- `zext_9(d)`. -/
  d : BitVec 9
  /-- `p_bad`. -/
  pBad : Bool
  /-- `f_bad`. -/
  fBad : Bool
  deriving DecidableEq, Repr

/-- R101, for `n` data bits: the character, whether its parity level is wrong, whether its first stop bit
is 0. `RX_END` applies it to exactly `rxlen` levels, so no default level is ever read. -/
def rxDecode (n : Nat) (pce ps : Bool) (levels : List Level) : RxChar :=
  let d := charOf n levels
  { d := d
    pBad := pce && (levels.getD n false != par d n ps)
    fBad := !levels.getD (n + pce.toNat) false }

/-- `zext_9(v[n-1:0])`, the low `n` bits of a 9-bit value (R98, R207). -/
def lowBits (n : Nat) (v : BitVec 9) : BitVec 9 := (v.setWidth n).setWidth 9

/-! ## Fields in a register word, at the positions of a layout (R7, R25 to R29)

At the default layout the fields are those of R99 and the words those of R100, which `Laws/Operands.lean`
proves. -/

/-- A field of `n` bits in its place: its lowest bit at `pos`, every other bit 0. -/
def placeField {n : Nat} (pos : Nat) (v : BitVec n) : Word := v.setWidth 32 <<< pos

/-- A one-bit field in its place. -/
def placeBit (pos : Nat) (b : Bool) : Word := placeField pos (BitVec.ofBool b)

/-- The word with a 1 at each of the given bits. -/
def maskOf (bits : List Nat) : Word := bits.foldr (fun k m => placeBit k true ||| m) 0#32

/-- `DATA` of `WR_DR`, by default `wdata[8:0]` (R99). -/
def wdataDATA (l : Layout) (w : Word) : BitVec 9 := w.extractLsb' l.data 9

/-- `DIV` of `WR_BRR`, by default `wdata[15:0]` (R99). -/
def wdataDIV (l : Layout) (w : Word) : BitVec 16 := w.extractLsb' l.div 16

/-- `UE` of `WR_CR1`, by default `wdata[13]` (R99). -/
def wdataUE (l : Layout) (w : Word) : Bool := w.getLsbD l.ue

/-- `WL` of `WR_CR1`, by default `wdata[12:11]` (R99). -/
def wdataWL (l : Layout) (w : Word) : BitVec 2 := w.extractLsb' l.wl 2

/-- `PCE` of `WR_CR1`, by default `wdata[10]` (R99). -/
def wdataPCE (l : Layout) (w : Word) : Bool := w.getLsbD l.pce

/-- `PS` of `WR_CR1`, by default `wdata[9]` (R99). -/
def wdataPS (l : Layout) (w : Word) : Bool := w.getLsbD l.ps

/-- `TXEIE` of `WR_CR1`, by default `wdata[7]` (R99). -/
def wdataTXEIE (l : Layout) (w : Word) : Bool := w.getLsbD l.txeie

/-- `RXNEIE` of `WR_CR1`, by default `wdata[5]` (R99). -/
def wdataRXNEIE (l : Layout) (w : Word) : Bool := w.getLsbD l.rxneie

/-- `STOP2` of `WR_CR2`, by default `wdata[13]` (R99). -/
def wdataSTOP2 (l : Layout) (w : Word) : Bool := w.getLsbD l.stop2

/-- The read value of `DR`: `RDR` in its place (R100). -/
def State.drWord (s : State) (l : Layout) : Word := placeField l.data s.rdr

/-- The read value of `BRR`: `DIV` in its place (R100). -/
def State.brrWord (s : State) (l : Layout) : Word := placeField l.div s.div

/-- The read value of `CR1`: its seven fields, each in its place (R28, R100). -/
def State.cr1Word (s : State) (l : Layout) : Word :=
  placeBit l.ue s.ue ||| placeField l.wl s.wl ||| placeBit l.pce s.pce ||| placeBit l.ps s.ps |||
    placeBit l.txeie s.txeie ||| placeBit l.rxneie s.rxneie

/-- The read value of `CR2`: `STOP2` in its place (R29, R100). -/
def State.cr2Word (s : State) (l : Layout) : Word := placeBit l.stop2 s.stop2

end Sys2Proof.Machine
end

