-- ==== Sys2Proof/Machine/Flags.lean ====
section
/-! DEFINITION. The flags that are functions of the state, the status word, its write-1-to-clear bits and
the interrupt request (spec/10_state.md R25 to R36, spec/60_exceptions.md R243). -/

namespace Sys2Proof.Machine

/-- `TC = (TXE = 1 and TXS = T_IDLE)` (R31). -/
def State.tc (s : State) : Bool := s.txe && s.txs == .tIdle

/-- The read value of `SR`: its six flags, each in its place (R25, R100). -/
def State.srWord (s : State) (l : Layout) : Word :=
  placeBit l.txe s.txe ||| placeBit l.tc s.tc ||| placeBit l.rxne s.rxne ||| placeBit l.ore s.ore |||
    placeBit l.fe s.fe ||| placeBit l.pe s.pe

/-- `irq = (RXNE and RXNEIE) or (TXE and TXEIE)` (R243). -/
def State.irq (s : State) : Bool := (s.rxne && s.rxneie) || (s.txe && s.txeie)

/-- The write-1-to-clear rule of `SR` (R21, R122): a written 1 at the bit of `ORE`, `FE`, `PE` (by default
3, 1, 0) clears that flag. -/
def State.clearErrors (s : State) (l : Layout) (w : Word) : State :=
  { s with
    ore := s.ore && !w.getLsbD l.ore
    fe := s.fe && !w.getLsbD l.fe
    pe := s.pe && !w.getLsbD l.pe }

/-- Deliver a received character or drop it (R203, R207): stored with its errors recorded when `RDR` is
free, else `ORE` is set and nothing of the new character is kept. -/
def State.deliver (s : State) (c : RxChar) : State :=
  if s.rxne then { s with ore := true }
  else { s with rdr := c.d, rxne := true, pe := s.pe || c.pBad, fe := s.fe || c.fBad }

end Sys2Proof.Machine
end

