-- ==== Sys2Proof/Machine/Ops.lean ====
section
/-! DEFINITION. The operations every meaning and every engine step is built from: the common
pre-condition of a bus operation, the run of two steps after each other, the abort of both engines, the
reset of the block, and the side-effect-free view of the register window. The block takes no exception
(spec/60_exceptions.md R240, R251): there is no entry and no return to model; its interrupt request is
`State.irq`. -/

namespace Sys2Proof.Machine

/-- The block's clock runs and it is out of reset: only then can an engine step occur (R270, R276). -/
def State.running (s : State) : Bool := s.rstN && s.clkEn

/-- The common pre-condition of every bus operation (R271, R276, and the head of spec/40_status_ops.md):
refused in reset, refused while gated, else one atomic step. DESIGN CHOICE: reset is tested first (log 8). -/
def busOp (f : State → State) (s : State) : Result :=
  if !s.rstN then .refused .inReset
  else if !s.clkEn then .refused .clockGated
  else .next (f s)

/-- One step after another; a refusal ends the run. Of the block, and of the block with its driver. -/
def andThen {α β : Type} (r : Host.Outcome α Fault Refusal) (f : α → Host.Outcome β Fault Refusal) :
    Host.Outcome β Fault Refusal :=
  match r with
  | .next a => f a
  | .fault e => .fault e
  | .refused e => .refused e

/-- The read data of a bus read (R61, R91). -/
def State.setRdata (s : State) (v : Word) : State := { s with rdata := v }

/-- The schedule after a step was taken from it (log 1). -/
def State.setSched (s : State) (es : List Event) : State := { s with sched := es }

/-- What a write that takes `UE` from 1 to 0 does to the engines (R156, R161): frames in flight are
aborted at once, `txd` returns to 1. A pending start-bit check is dropped too: the receiver is idle
and, enabled again, starts from idle (R162; log 11). -/
def State.abortEngines (s : State) : State :=
  { s with txs := .tIdle, tsr := [], txd := true, rxs := .rIdle, rsr := [], startPending := false }

/-- `rst_n` falls: every piece of state takes the value of R45 (R270). What is not the block's stays:
the clock enable, the schedule and the index of free values (log 18). -/
def State.resetBlock (s : State) : State :=
  { State.reset with rstN := false, clkEn := s.clkEn, sched := s.sched, freeCtr := s.freeCtr }

/-- The value a word read of a slot would return, without the side effect of the read (R70, R100). -/
def State.peek (s : State) (l : Layout) : Reg → Word
  | .sr => s.srWord l
  | .dr => s.drWord l
  | .brr => s.brrWord l
  | .cr1 => s.cr1Word l
  | .cr2 => s.cr2Word l
  | .rsv14 => 0#32
  | .rsv18 => 0#32
  | .rsv1c => 0#32

/-- The little-endian byte view of the window (R63): the byte at offset `off + k` holds bits
`8k+7 : 8k` of the register at `off`, under the offsets and the layout of `p`. A view only: no byte access
has a meaning (R65). -/
def State.windowByte (s : State) (p : Params) (off : BitVec 5) : Byte :=
  (s.peek p.layout (slotRegAt p.offsets (off.extractLsb' 2 3))).extractLsb'
    (8 * (off.extractLsb' 0 2).toNat) 8

end Sys2Proof.Machine
end

