-- ==== Sys2Proof/Machine/Baud.lean ====
section
/-! DEFINITION. Baud-rate register operations (spec/42_baud_ops.md section 1). -/

namespace Sys2Proof.Machine

/-- `RD_BRR` (R140). -/
def State.afterRdBrr (s : State) (l : Layout) : State := s.setRdata (s.brrWord l)

/-- `RD_BRR` at the default layout. -/
def execRdBrr (s : State) : Result := busOp (fun s => s.afterRdBrr Layout.default) s

/-- `WR_BRR` (R141, R142): stored whatever it is; the other bits, by default 31:16, are ignored; nothing in
flight is touched. -/
def State.afterWrBrr (s : State) (l : Layout) (wdata : Word) : State :=
  { s with div := wdataDIV l wdata }

/-- `WR_BRR` at the default layout. -/
def execWrBrr (wdata : Word) (s : State) : Result :=
  busOp (fun s => s.afterWrBrr Layout.default wdata) s

end Sys2Proof.Machine
end

