-- ==== Sys2Proof/Machine/Control.lean ====
section
/-! DEFINITION. Control operations and reserved slots (spec/43_control_ops.md). -/

namespace Sys2Proof.Machine

/-- `RD_CR1` (R155). -/
def State.afterRdCr1 (s : State) (l : Layout) : State := s.setRdata (s.cr1Word l)

/-- `RD_CR1` at the default layout. -/
def execRdCr1 (s : State) : Result := busOp (fun s => s.afterRdCr1 Layout.default) s

/-- The seven fields of `CR1`, each cut out of `wdata` (R99, R156). -/
def State.storeCr1 (s : State) (l : Layout) (w : Word) : State :=
  { s with
    ue := wdataUE l w
    wl := wdataWL l w
    pce := wdataPCE l w
    ps := wdataPS l w
    txeie := wdataTXEIE l w
    rxneie := wdataRXNEIE l w }

/-- `WR_CR1` (R156, R157): stores the fields, and aborts both engines if this write takes `UE` from 1
to 0 (R161). -/
def State.afterWrCr1 (s : State) (l : Layout) (wdata : Word) : State :=
  if s.ue && !wdataUE l wdata then (s.storeCr1 l wdata).abortEngines else s.storeCr1 l wdata

/-- `WR_CR1` at the default layout. -/
def execWrCr1 (wdata : Word) (s : State) : Result :=
  busOp (fun s => s.afterWrCr1 Layout.default wdata) s

/-- `RD_CR2` (R165). -/
def State.afterRdCr2 (s : State) (l : Layout) : State := s.setRdata (s.cr2Word l)

/-- `RD_CR2` at the default layout. -/
def execRdCr2 (s : State) : Result := busOp (fun s => s.afterRdCr2 Layout.default) s

/-- `WR_CR2` (R166). -/
def State.afterWrCr2 (s : State) (l : Layout) (wdata : Word) : State :=
  { s with stop2 := wdataSTOP2 l wdata }

/-- `WR_CR2` at the default layout. -/
def execWrCr2 (wdata : Word) (s : State) : Result :=
  busOp (fun s => s.afterWrCr2 Layout.default wdata) s

/-- `RD_RSV14` (R171): returns 0 in every state. -/
def State.afterRdRsv14 (s : State) : State := s.setRdata 0#32

/-- `RD_RSV14`; it has no field, so no layout. -/
def execRdRsv14 (s : State) : Result := busOp State.afterRdRsv14 s

/-- `WR_RSV14` (R172): no value written has any effect. -/
def State.afterWrRsv14 (s : State) (_wdata : Word) : State := s

/-- `WR_RSV14`; it has no field, so no layout. -/
def execWrRsv14 (wdata : Word) (s : State) : Result := busOp (fun s => s.afterWrRsv14 wdata) s

/-- `RD_RSV18` (R171): returns 0 in every state. -/
def State.afterRdRsv18 (s : State) : State := s.setRdata 0#32

/-- `RD_RSV18`; it has no field, so no layout. -/
def execRdRsv18 (s : State) : Result := busOp State.afterRdRsv18 s

/-- `WR_RSV18` (R172): no value written has any effect. -/
def State.afterWrRsv18 (s : State) (_wdata : Word) : State := s

/-- `WR_RSV18`; it has no field, so no layout. -/
def execWrRsv18 (wdata : Word) (s : State) : Result := busOp (fun s => s.afterWrRsv18 wdata) s

/-- `RD_RSV1C` (R171): returns 0 in every state. -/
def State.afterRdRsv1c (s : State) : State := s.setRdata 0#32

/-- `RD_RSV1C`; it has no field, so no layout. -/
def execRdRsv1c (s : State) : Result := busOp State.afterRdRsv1c s

/-- `WR_RSV1C` (R172): no value written has any effect. -/
def State.afterWrRsv1c (s : State) (_wdata : Word) : State := s

/-- `WR_RSV1C`; it has no field, so no layout. -/
def execWrRsv1c (wdata : Word) (s : State) : Result := busOp (fun s => s.afterWrRsv1c wdata) s

end Sys2Proof.Machine
end

