-- ==== Sys2Proof/Machine/Data.lean ====
section
/-! DEFINITION. Data operations (spec/41_data_ops.md). -/

namespace Sys2Proof.Machine

/-- `RD_DR` (R130, R131): returns `RDR`, which keeps its value, and clears `RXNE`. -/
def State.afterRdDr (s : State) (l : Layout) : State :=
  { s.setRdata (s.drWord l) with rxne := false }

/-- `RD_DR` at the default layout. -/
def execRdDr (s : State) : Result := busOp (fun s => s.afterRdDr Layout.default) s

/-- `WR_DR` (R132, R133): loads all 9 bits of `TDR` and clears `TXE`, whatever they were. -/
def State.afterWrDr (s : State) (l : Layout) (wdata : Word) : State :=
  { s with tdr := wdataDATA l wdata, txe := false }

/-- `WR_DR` at the default layout. -/
def execWrDr (wdata : Word) (s : State) : Result :=
  busOp (fun s => s.afterWrDr Layout.default wdata) s

end Sys2Proof.Machine
end

