-- ==== Sys2Proof/Machine/Status.lean ====
section
/-! DEFINITION. Status operations (spec/40_status_ops.md). -/

namespace Sys2Proof.Machine

/-- `RD_SR` (R120): the flags as they stand; no side effect. -/
def State.afterRdSr (s : State) (l : Layout) : State := s.setRdata (s.srWord l)

/-- `RD_SR` at the default layout. -/
def execRdSr (s : State) : Result := busOp (fun s => s.afterRdSr Layout.default) s

/-- `WR_SR` (R122): clears error flags, stores nothing. -/
def State.afterWrSr (s : State) (l : Layout) (wdata : Word) : State := s.clearErrors l wdata

/-- `WR_SR` at the default layout. -/
def execWrSr (wdata : Word) (s : State) : Result :=
  busOp (fun s => s.afterWrSr Layout.default wdata) s

end Sys2Proof.Machine
end

