-- ==== Sys2Proof/Machine/Dispatch.lean ====
section
/-! DEFINITION. One arm per bus operation (spec/30_encoding.md R93). -/

namespace Sys2Proof.Machine

/-- The meaning of each bus operation, one atomic step of the agent `Host` (R67), at the default layout of the
registers (DESIGN CHOICE, log 7); `execAt` is the same at any layout. -/
def exec (i : Instr) (s : State) : Host.Outcome State Fault Refusal :=
  match i with
  | .rdSr => Sys2Proof.Machine.execRdSr s
  | .rdDr => Sys2Proof.Machine.execRdDr s
  | .rdBrr => Sys2Proof.Machine.execRdBrr s
  | .rdCr1 => Sys2Proof.Machine.execRdCr1 s
  | .rdCr2 => Sys2Proof.Machine.execRdCr2 s
  | .rdRsv14 => Sys2Proof.Machine.execRdRsv14 s
  | .rdRsv18 => Sys2Proof.Machine.execRdRsv18 s
  | .rdRsv1c => Sys2Proof.Machine.execRdRsv1c s
  | .wrSr wdata => Sys2Proof.Machine.execWrSr wdata s
  | .wrDr wdata => Sys2Proof.Machine.execWrDr wdata s
  | .wrBrr wdata => Sys2Proof.Machine.execWrBrr wdata s
  | .wrCr1 wdata => Sys2Proof.Machine.execWrCr1 wdata s
  | .wrCr2 wdata => Sys2Proof.Machine.execWrCr2 wdata s
  | .wrRsv14 wdata => Sys2Proof.Machine.execWrRsv14 wdata s
  | .wrRsv18 wdata => Sys2Proof.Machine.execWrRsv18 wdata s
  | .wrRsv1c wdata => Sys2Proof.Machine.execWrRsv1c wdata s

end Sys2Proof.Machine
end

