-- ==== Sys2Proof/Machine/Bus.lean ====
section
/-! DEFINITION. From the host's load or store to a bus operation (spec/20_memory.md R61, R65;
spec/30_encoding.md R90, R94), and the operation at any layout of the registers (spec/00_scope.md R7). -/

namespace Sys2Proof.Machine

/-- What the platform presents at the port for a host access, with the checks of R65 in the order R65
writes them: size, alignment, window (log 8). DESIGN CHOICE (log 25): the window does not wrap round the
end of the 32-bit address space. -/
def route (p : Params) (a : HostAccess) : Except Refusal Transaction :=
  let off := a.addr - p.uartBase
  if a.size ≠ sizeWord then .error .badSize
  else if off.extractLsb' 0 2 ≠ 0#2 then .error .misaligned
  else if p.uartBase.toNat ≤ a.addr.toNat ∧ a.addr.toNat < p.uartBase.toNat + Config.window then
    .ok { write := a.write, size := a.size, addr := off.extractLsb' 0 5, wdata := a.wdata }
  else .error .outOfWindow

/-- What each operation does to the state once its common pre-condition holds, at a layout. -/
def effect (l : Layout) (i : Instr) (s : State) : State :=
  match i with
  | .rdSr => s.afterRdSr l
  | .rdDr => s.afterRdDr l
  | .rdBrr => s.afterRdBrr l
  | .rdCr1 => s.afterRdCr1 l
  | .rdCr2 => s.afterRdCr2 l
  | .rdRsv14 => s.afterRdRsv14
  | .rdRsv18 => s.afterRdRsv18
  | .rdRsv1c => s.afterRdRsv1c
  | .wrSr wdata => s.afterWrSr l wdata
  | .wrDr wdata => s.afterWrDr l wdata
  | .wrBrr wdata => s.afterWrBrr l wdata
  | .wrCr1 wdata => s.afterWrCr1 l wdata
  | .wrCr2 wdata => s.afterWrCr2 l wdata
  | .wrRsv14 wdata => s.afterWrRsv14 wdata
  | .wrRsv18 wdata => s.afterWrRsv18 wdata
  | .wrRsv1c wdata => s.afterWrRsv1c wdata

/-- A bus operation with the fields of the registers at the positions of a layout (R7, D6). `exec` is this at
the default layout. -/
def execAt (l : Layout) (i : Instr) (s : State) : Result := busOp (effect l i) s

/-- The refusal that a rejected selector is (R94, R103). -/
def selectorRefusal : SelectorReject → Refusal
  | .badSize => .badSize
  | .misaligned => .misaligned

/-- A transaction at the port: decode its selector under the table of offsets and perform the operation
(R67, R94). -/
def transact (p : Params) (t : Transaction) (s : State) : Result :=
  match decodeTransactionAt p.offsets t with
  | .error r => .refused (selectorRefusal r)
  | .ok i => execAt p.layout i s

/-- One load or store of the host (R10). -/
def hostAccess (p : Params) (a : HostAccess) (s : State) : Result :=
  match route p a with
  | .error r => .refused r
  | .ok t => transact p t s

/-- The host access that performs an operation: `MemRead(UART_BASE + off, 4)` or
`MemWrite(UART_BASE + off, 4, v)` (R10). -/
def accessOf (p : Params) (i : Instr) : HostAccess :=
  let t := transactionAt p.offsets i
  { write := t.write, size := t.size, addr := p.uartBase + t.addr.setWidth 32, wdata := t.wdata }

/-- The host access whose selector and data word are the bits of a word numbered as
spec/opcode_table.json numbers it; the data word is little-endian (log 9). -/
def accessOfTableWord (p : Params) (nbits w : Nat) : HostAccess :=
  let v := tableBits nbits w
  let sel := v.extractLsb' 0 8
  { write := selW sel
    size := selSize sel
    addr := p.uartBase + (selOff sel).setWidth 32
    wdata := bytesToWord (v.extractLsb' 8 8) (v.extractLsb' 16 8) (v.extractLsb' 24 8)
      (v.extractLsb' 32 8) }

end Sys2Proof.Machine
end

