-- ==== Sys2Proof/Machine/Receiver.lean ====
section
/-! DEFINITION. The receive engine (spec/45_receiver.md). As for the transmitter, a step whose
pre-condition does not hold leaves the state as it is (R11, log 3), and the loads of the baud counter
(R147) are timing level (log 16). -/

namespace Sys2Proof.Machine

/-- Pre-condition of `RX_START` (R200) and of `RX_CHAR` (R207) but for what `Line` presents. -/
def State.rxStartEnabled (s : State) : Bool :=
  s.running && s.ue && s.div != 0#16 && s.rxs == .rIdle

/-- `RX_START` (R200): latch the framing fields; `WL` = 0b11 is refused (R105). -/
def rxStart (s : State) : Result :=
  if s.rxStartEnabled then
    match nbits s.wl with
    | none => .refused .reservedWL
    | some _ =>
      .next { s with
        rxcfg := { wl := s.wl, pce := s.pce, ps := s.ps }
        rsr := []
        rxs := .rRecv
        rxCnt := s.div
        startPending := false }
  else .next s

/-- `rxlen(RXCFG.WL, RXCFG.PCE)` (R96, R201). -/
def RxCfg.need (c : RxCfg) : Option Nat := rxlen c.wl c.pce

/-- `RX_BIT(b)` (R201): take one sample, while fewer than `rxlen` were taken. -/
def rxBit (b : Level) (s : State) : Result :=
  if s.running && s.rxs == .rRecv then
    match s.rxcfg.need with
    | none => .refused .reservedWL
    | some need =>
      if s.rsr.length < need then .next { s with rsr := s.rsr ++ [b], rxCnt := s.div } else .next s
  else .next s

/-- `RX_END` (R203): once all `rxlen` levels are there, decode them under `RXCFG` (R101) and deliver or
drop the character; `STOP2` is not looked at (R202). -/
def rxEnd (s : State) : Result :=
  if s.running && s.rxs == .rRecv then
    match nbits s.rxcfg.wl with
    | none => .refused .reservedWL
    | some n =>
      if s.rxcfg.need = some s.rsr.length then
        .next { s.deliver (rxDecode n s.rxcfg.pce s.rxcfg.ps s.rsr) with rsr := [], rxs := .rIdle }
      else .next s
  else .next s

/-- `RX_CHAR(d, p, stop)` (R207): a whole frame in one step, under the live framing fields. -/
def rxChar (d : BitVec 9) (p stop : Level) (s : State) : Result :=
  if s.rxStartEnabled then
    match nbits s.wl with
    | none => .refused .reservedWL
    | some n =>
      .next (s.deliver
        { d := lowBits n d
          pBad := s.pce && (p != par d n s.ps)
          fBad := !stop })
  else .next s

end Sys2Proof.Machine
end

