-- ==== Sys2Proof/Machine/Transmitter.lean ====
section
/-! DEFINITION. The transmit engine (spec/44_transmitter.md). A step whose pre-condition does not hold
cannot occur; scheduled all the same, it leaves the state as it is: the engine waits (R11, log 3). The
loads of the baud counter (R147) are timing level: no untimed rule reads them (log 16). -/

namespace Sys2Proof.Machine

/-- Pre-condition of `TX_LOAD` (R176), with `DIV != 0` as R148 says. -/
def State.txLoadEnabled (s : State) : Bool :=
  s.running && s.ue && s.div != 0#16 && s.txs == .tIdle && !s.txe

/-- `TX_LOAD` (R176): build the whole frame from `TDR` and the framing fields in force now, set `TXE`.
`WL` = 0b11 is refused (R105). -/
def txLoad (s : State) : Result :=
  if s.txLoadEnabled then
    match frame s.tdr s.wl s.pce s.ps s.stop2 with
    | none => .refused .reservedWL
    | some f => .next { s with tsr := f, txs := .tShift, txe := true, txCnt := s.div }
  else .next s

/-- `TX_BIT` (R177): drive the next level and record it in `LINE_OUT`. -/
def txBit (s : State) : Result :=
  if s.running && s.txs == .tShift then
    match s.tsr with
    | [] => .next s
    | b :: rest => .next { s with txd := b, lineOut := s.lineOut ++ [b], tsr := rest, txCnt := s.div }
  else .next s

/-- `TX_END` (R179): close the frame; `txd` stays as the last stop bit left it. -/
def txEnd (s : State) : Result :=
  if s.running && s.txs == .tShift && s.tsr.isEmpty then .next { s with txs := .tIdle }
  else .next s

/-- `TX_CHAR` (R183): the levels left of the frame and its close in one step. -/
def txChar (s : State) : Result :=
  if s.running && s.txs == .tShift then
    .next { s with lineOut := s.lineOut ++ s.tsr, tsr := [], txd := true, txs := .tIdle }
  else .next s

end Sys2Proof.Machine
end

