-- ==== Sys2Proof/Machine/Clock.lean ====
section
/-! DEFINITION. The timing level: one cycle of `clk` (spec/42_baud_ops.md R146 to R148,
spec/45_receiver.md R196, R200, R205, spec/70_reset_and_hazards.md R288, R290, R291). Each cycle is made
of the atomic steps of the untimed model; no untimed rule depends on anything here (R289). -/

namespace Sys2Proof.Machine

/-- The next free value (log 13). -/
def State.free (s : State) : BitVec 16 := Config.freeResume s.freeCtr

/-- The index moved past the free value just used (log 13). -/
def State.useFree (s : State) : State := { s with freeCtr := s.freeCtr + 1 }

/-- `TX_LOAD` and, in the same cycle, the start bit (R290: loaded in cycle `t + 1`, "the start bit is on
`txd` from `t + 1`"; log 10). -/
def txLoadAndDrive (s : State) : Result := andThen (txLoad s) txBit

/-- The transmitter's counter has counted a whole bit time (R147). `canLoad` says that a character was
waiting before this cycle's host access (log 14). DESIGN CHOICE (log 37): when that bit is the last stop bit,
`TX_END` occurs with `DIV` = 0 too, as R147 and R179 can be read; R148 and U6 can be read as a stall there. -/
def txExpire (canLoad : Bool) (s : State) : Result :=
  match s.tsr with
  | [] =>
    andThen (txEnd { s with txCnt := 0#16 }) fun s' =>
      if canLoad then txLoadAndDrive s' else .next s'
  | _ :: _ =>
    -- `DIV` = 0: no further bit time is produced, the frame stalls here (R148)
    if s.div = 0#16 then .next { s with txCnt := 0#16 } else txBit s

/-- The transmitter in one cycle (R147, R290). -/
def txClock (canLoad : Bool) (s : State) : Result :=
  match s.txs with
  | .tIdle => if canLoad then txLoadAndDrive s else .next s
  | .tShift =>
    if s.txCnt = 0#16 then
      -- stalled: goes on a free number of cycles after `DIV` is non-zero again (R148, U6; log 13)
      if s.div = 0#16 then .next s
      else if s.free = 0#16 then txExpire canLoad s.useFree
      else .next { s.useFree with txCnt := s.free }
    else if s.txCnt = 1#16 then txExpire canLoad s
    else .next { s with txCnt := s.txCnt - 1#16 }

/-- The start-bit sample (R200, R205): level 0 is a start bit, level 1 a false start, which is no step. -/
def startSample (level : Level) (s : State) : Result :=
  if level then .next { s with startPending := false } else rxStart { s with startPending := false }

/-- A falling edge: load the counter with `floor(DIV / 2)` (R147). With `DIV` = 1 the sample point is in
this same cycle, and its level is the 0 of the edge (R291). -/
def beginStartCheck (s : State) : Result :=
  let half := s.div / 2#16
  if half = 0#16 then startSample false s
  else .next { s with startPending := true, rxCnt := half }

/-- The receiver's counter has expired inside a frame: sample, and end the frame at the first stop bit
(R147, R203 (e), R291). With `DIV` = 0 no further sample is taken (R148). -/
def rxExpire (level : Level) (s : State) : Result :=
  if s.div = 0#16 then .next { s with rxCnt := 0#16 } else andThen (rxBit level s) rxEnd

/-- The receiver in one cycle; `level` is `RXD_S` and `edge` is `RXD_Q = 1 and RXD_S = 0` (R196). A fall of
`rxd` with `RXS` = `R_IDLE` loads the counter (R147), whether or not a check is pending. In the cycle in
which the counter expires as well, the load stands and no sample is taken (DEDUCED, log 11). `UE` is read as
the access of this cycle left it: a fall in the very cycle of the `WR_CR1` that sets `UE` counts as an edge and
begins a start check (DESIGN CHOICE, log 34; R162 and R200 (c) can be read as no edge there). -/
def rxClock (level edge : Level) (s : State) : Result :=
  match s.rxs with
  | .rIdle =>
    if !s.ue then .next s
    else if edge && s.div != 0#16 then beginStartCheck s
    else if s.startPending then
      if s.rxCnt = 0#16 ∨ s.rxCnt = 1#16 then startSample level { s with rxCnt := 0#16 }
      else .next { s with rxCnt := s.rxCnt - 1#16 }
    else .next s
  | .rRecv =>
    if s.rxcfg.need = some s.rsr.length then rxEnd s
    else if s.rxCnt = 0#16 then
      -- stalled, as the transmitter (R148, U6; log 13)
      if s.div = 0#16 then .next s
      else if s.free = 0#16 then rxExpire level s.useFree
      else .next { s.useFree with rxCnt := s.free }
    else if s.rxCnt = 1#16 then rxExpire level s
    else .next { s with rxCnt := s.rxCnt - 1#16 }

/-- What is registered at the end of a cycle: the synchroniser and the edge detector take the levels before
them (R196), and the pin `irq` takes the request as it stood before the cycle, so that it changes in the
cycle after the step that changes the request (R292; DEDUCED, log 33). -/
def State.registerPins (s : State) (before : State) (rxd : Level) : State :=
  { s with rxdQ := before.rxdS, rxdS := before.rxdMeta, rxdMeta := rxd, irqPin := before.irq }

/-- The host access of a cycle, if there is one. -/
def accessIn (p : Params) (access : Option HostAccess) (s : State) : Result :=
  match access with
  | none => .next s
  | some a => hostAccess p a s

/-- One cycle of `clk`: the host access first, then the hardware steps that fall due (R288, D27). While
the clock is gated or the block is in reset no cycle passes for it: an access is refused as ever
(R271, R276) and otherwise nothing changes. DESIGN CHOICE (log 26): of two engine steps that fall due in one
cycle the transmitter's is written first; no rule orders them. DESIGN CHOICE (log 34): the receiver sees the
`UE` of the access of the same cycle, so an edge in the cycle of the enable is hunted already. -/
def clockCycle (p : Params) (access : Option HostAccess) (rxd : Level) (s : State) : Result :=
  if s.running then
    andThen (accessIn p access s) fun s1 =>
    andThen (txClock (!s.txe) s1) fun s2 =>
    andThen (rxClock s.rxdS (s.rxdQ && !s.rxdS) s2) fun s3 =>
    .next (s3.registerPins s rxd)
  else accessIn p access s

end Sys2Proof.Machine
end

