-- ==== Sys2Proof/Machine/Env.lean ====
section
/-! DEFINITION. The steps of the agent `Env`: reset and the clock gate (spec/70_reset_and_hazards.md
R270, R276). -/

namespace Sys2Proof.Machine

/-- `rst_n` falls, in any state: the reset values of R45, nothing recorded (R270). -/
def rstAssert (s : State) : Result := .next s.resetBlock

/-- `rst_n` rises: the block goes on from the reset values (R270). The release is taken at once, whatever
the clock gate says (log 17). -/
def rstRelease (s : State) : Result := .next { s with rstN := true }

/-- `clk_en` falls: the block's clock stops, every piece of state keeps its value (R276). -/
def clkGate (s : State) : Result := .next { s with clkEn := false }

/-- `clk_en` rises: the block goes on from the state it held (R276). -/
def clkUngate (s : State) : Result := .next { s with clkEn := true }

end Sys2Proof.Machine
end

