-- ==== Sys2Proof/Machine/Events.lean ====
section
/-! DEFINITION. One atomic step of one agent, and runs of them (spec/00_scope.md R12,
spec/20_memory.md R74). -/

namespace Sys2Proof.Machine

/-- The step an event stands for. -/
def runEvent (p : Params) (e : Event) (s : State) : Result :=
  match e with
  | .host a => hostAccess p a s
  | .txLoad => txLoad s
  | .txBit => txBit s
  | .txEnd => txEnd s
  | .txChar => txChar s
  | .rxStart => rxStart s
  | .rxBit b => rxBit b s
  | .rxEnd => rxEnd s
  | .rxChar d q stop => rxChar d q stop s
  | .rstAssert => rstAssert s
  | .rstRelease => rstRelease s
  | .clkGate => clkGate s
  | .clkUngate => clkUngate s
  | .cycle access rxd => clockCycle p access rxd s

/-- A schedule run to its end: one total order of steps, each from the state the earlier ones left (R74). -/
def runEvents (p : Params) : List Event → State → Result
  | [], s => .next s
  | e :: es, s => andThen (runEvent p e s) (runEvents p es)

/-- The next step of the schedule, and the state without it; `none` when nobody has a step to take. -/
def fetch (s : State) : Option (Event × State) :=
  match s.sched with
  | [] => none
  | e :: es => some (e, s.setSched es)

/-- One step under given parameters. Between two steps nothing changes, so an empty schedule leaves the
state as it is (R12, log 1). -/
def stepWith (p : Params) (s : State) : Result :=
  match fetch s with
  | none => .next s
  | some (e, s') => runEvent p e s'

/-- A host access placed first on the schedule. -/
def State.scheduleFirst (s : State) (e : Event) : State := s.setSched (e :: s.sched)

end Sys2Proof.Machine
end

