-- ==== Sys2Proof/Machine/Step.lean ====
section
/-! DEFINITION. The step of the machine: the next scheduled step of an agent (spec/20_memory.md R74). -/

namespace Sys2Proof.Machine

/-- One step, under the default parameters of R7 (log 6). -/
def step (s : State) : Host.Outcome State Fault Refusal := stepWith Params.default s

/-- `s` with the bus operation whose bits are `w` scheduled as the very next step (log 2). -/
def State.withFetchWord (s : State) (nbits w : Nat) : State :=
  s.scheduleFirst (.host (accessOfTableWord Params.default nbits w))

end Sys2Proof.Machine
end

