-- ==== Sys2Proof/Machine/System.lean ====
section
/-! DEFINITION. The block with what stands beside it in spec/46_driver_sequences.md and
spec/60_exceptions.md: the firmware's state (R220), one line of the interrupt controller (R258), and how a
sequence of the driver runs on them (R231). None of it is part of State (R46); the block is reached through
`execAt` and `runEvent` alone (log 24). -/

namespace Sys2Proof.Machine

/-! ## The interrupt controller's line -/

/-- What the interrupt controller keeps for one line (R258). -/
structure IrqLine where
  /-- The line is enabled. -/
  enabled : Bool
  /-- Its priority; R258 gives the encoding of a priority nowhere, so it is a number (log 24). -/
  priority : Nat
  /-- Set while `irq` = 1 and the line is not being served. -/
  pending : Bool
  deriving DecidableEq, Repr

/-- The line before `CONFIGURE`. DESIGN CHOICE (log 28): disabled, priority 0, not pending; the
controller's state after reset is "the host's and in no source" (R272). -/
def IrqLine.initial : IrqLine := { enabled := false, priority := 0, pending := false }

/-- The four services of the controller, for the line `UART_IRQ_ID` (R258). -/
inductive Service where
  | enable
  | disable
  | setPriority (prio : Nat)
  | clearPending
  deriving DecidableEq, Repr

/-- The controller sets `pending` while `irq` = 1 and the line is not being served (R258). DESIGN CHOICE
(log 29): `pending` is a latch; it does not fall with `irq`, but when the line is taken into service or by
`clear-pending`. -/
def IrqLine.observe (l : IrqLine) (irq serving : Bool) : IrqLine :=
  { l with pending := l.pending || (irq && !serving) }

/-- What a service does to the line (R258). The line watches `irq` all along, so `clear-pending` has no
lasting effect while `irq` is still 1 (see `System.service`). A second registration, by a second
`CONFIGURE`, acts as the first (DESIGN CHOICE, log 30; U3 says "any value"). -/
def IrqLine.apply (l : IrqLine) : Service → IrqLine
  | .enable => { l with enabled := true }
  | .disable => { l with enabled := false }
  | .setPriority prio => { l with priority := prio }
  | .clearPending => { l with pending := false }

/-! ## The firmware's state -/

/-- The two buffers of R220. -/
inductive Buffer where
  /-- `rx_buf`. -/
  | rx
  /-- `tx_buf`. -/
  | tx
  deriving DecidableEq, Repr

/-- The three counts of R220. -/
inductive Count where
  /-- `rx_count`. -/
  | rx
  /-- `pending_count`. -/
  | pending
  /-- `sent_count`. -/
  | sent
  deriving DecidableEq, Repr

/-- One write to the firmware's state. -/
inductive Store where
  /-- `buf[i] <- v`. -/
  | cell (buf : Buffer) (i : Nat) (v : Byte)
  /-- `count <- n`. -/
  | count (c : Count) (n : Nat)
  deriving DecidableEq, Repr

/-- Firmware state (R220): "initialized empty at startup", so the defaults are the startup values. A
buffer is the list of its cells up to the highest one written. -/
structure Firmware where
  /-- `rx_buf`. -/
  rxBuf : List Byte := []
  /-- `rx_count`. -/
  rxCount : Nat := 0
  /-- `tx_buf`. -/
  txBuf : List Byte := []
  /-- `pending_count`. -/
  pendingCount : Nat := 0
  /-- `sent_count`. -/
  sentCount : Nat := 0
  deriving DecidableEq, Repr

/-- A count as it stands. -/
def Firmware.count (fw : Firmware) : Count → Nat
  | .rx => fw.rxCount
  | .pending => fw.pendingCount
  | .sent => fw.sentCount

/-- The cells of a buffer that were written. -/
def Firmware.cells (fw : Firmware) : Buffer → List Byte
  | .rx => fw.rxBuf
  | .tx => fw.txBuf

/-- The byte a cell holds; a free value as long as nothing has written it (log 31). -/
def Firmware.cell (fw : Firmware) (buf : Buffer) (i : Nat) : Byte :=
  (fw.cells buf).getD i (Config.freeCell (buf == .tx) i)

/-- A buffer with cell `i` written. The cells below that were never written keep their free values. -/
def setCell (buf : Buffer) (cells : List Byte) (i : Nat) (v : Byte) : List Byte :=
  cells.take i ++
    (List.range (i - cells.length)).map (fun k => Config.freeCell (buf == .tx) (cells.length + k)) ++
    [v] ++ cells.drop (i + 1)

/-- A write to the firmware's state. -/
def Firmware.store (fw : Firmware) : Store → Firmware
  | .cell .rx i v => { fw with rxBuf := setCell .rx fw.rxBuf i v }
  | .cell .tx i v => { fw with txBuf := setCell .tx fw.txBuf i v }
  | .count .rx n => { fw with rxCount := n }
  | .count .pending n => { fw with pendingCount := n }
  | .count .sent n => { fw with sentCount := n }

/-- The bytes received and not yet drained, oldest first (R220). -/
def Firmware.held (fw : Firmware) : List Byte := fw.rxBuf.take fw.rxCount

/-- The bytes enqueued and not yet handed to the block, oldest first (R220). -/
def Firmware.backlog (fw : Firmware) : List Byte := (fw.txBuf.take fw.pendingCount).drop fw.sentCount

/-! ## Sequences -/

/-- A sequence of one context of the host. Every constructor but `done` is one indivisible step: a load
or store of a register, a load or store of one item of the firmware's state, or a call of the controller.
After a register read the continuation gets the word read; after a register write it gets the `rdata` the
port still shows, which no sequence here looks at. -/
inductive Script (α : Type) where
  /-- The sequence is over, with its result. -/
  | done (a : α)
  /-- One bus operation, then the rest. -/
  | bus (i : Instr) (k : Word → Script α)
  /-- Load a count. -/
  | readCount (c : Count) (k : Nat → Script α)
  /-- Load a cell of a buffer. -/
  | readCell (buf : Buffer) (i : Nat) (k : Byte → Script α)
  /-- Store to the firmware's state. -/
  | store (w : Store) (k : Script α)
  /-- Call the interrupt controller. -/
  | service (c : Service) (k : Script α)

/-- One sequence after another. -/
def Script.bind {α β : Type} : Script α → (α → Script β) → Script β
  | .done a, f => f a
  | .bus i k, f => .bus i fun w => (k w).bind f
  | .readCount c k, f => .readCount c fun n => (k n).bind f
  | .readCell buf i k, f => .readCell buf i fun b => (k b).bind f
  | .store w k, f => .store w (k.bind f)
  | .service c k, f => .service c (k.bind f)

/-- `RD reg` as a sequence (R106). -/
def rdReg (r : Reg) : Script Word := .bus (readOf r) .done

/-- `WR reg, v` as a sequence (R106). -/
def wrReg (r : Reg) (v : Word) : Script Unit := .bus (writeOf r v) fun _ => .done ()

/-- Load a count, as a sequence. -/
def getCount (c : Count) : Script Nat := .readCount c .done

/-- Load a cell, as a sequence. -/
def getCell (buf : Buffer) (i : Nat) : Script Byte := .readCell buf i .done

/-- Store, as a sequence. -/
def put (w : Store) : Script Unit := .store w (.done ())

/-- Call the controller, as a sequence. -/
def call (c : Service) : Script Unit := .service c (.done ())

/-! ## The block, the firmware and the line together -/

/-- The block with its driver. -/
structure System where
  /-- The block. -/
  block : State
  /-- The firmware's state. -/
  fw : Firmware
  /-- The line `UART_IRQ_ID` at the interrupt controller. -/
  line : IrqLine
  /-- The handler is running: the line is being served (R258). -/
  serving : Bool
  deriving DecidableEq, Repr

/-- At startup (R45, R220; the line: log 28). -/
def System.initial : System :=
  { block := State.reset, fw := {}, line := IrqLine.initial, serving := false }

/-- The controller looks at `irq` (R243, R258). -/
def System.observe (y : System) : System := { y with line := y.line.observe y.block.irq y.serving }

/-- The block has taken a step, and the controller sees its request as it stands after it. -/
def System.withBlock (y : System) (s : State) : System := { y with block := s }.observe

/-- A service of the controller is called; with `irq` still 1 `pending` is set again at once (R258). -/
def System.service (y : System) (c : Service) : System := { y with line := y.line.apply c }.observe

/-- One step of another agent, or of another master of the bus (R74). DESIGN CHOICE (log 35): when the step is
the fall of `rst_n`, the block alone is reset: the line keeps its enable, its priority and a pending bit that
is latched, and the firmware's state and `serving` stay too. "The interrupt controller's state after reset is
the host's and in no source" (R272). -/
def System.event (p : Params) (e : Event) (y : System) : Host.Outcome System Fault Refusal :=
  andThen (runEvent p e y.block) fun s => .next (y.withBlock s)

/-- Everything that falls before one step of a sequence, in order. -/
def System.gap {γ : Type} (f : γ → System → Host.Outcome System Fault Refusal) :
    List γ → System → Host.Outcome System Fault Refusal
  | [], y => .next y
  | g :: gs, y => andThen (f g y) (System.gap f gs)

/-- Run a sequence. `gaps` holds, for each step of it, what falls before that step, each item run by `f`;
past the end of `gaps` nothing does. -/
def Script.runWith {α γ : Type} (p : Params) (f : γ → System → Host.Outcome System Fault Refusal) :
    Script α → List (List γ) → System → Host.Outcome (α × System) Fault Refusal
  | .done a, _, y => .next (a, y)
  | .bus i k, gaps, y =>
    andThen (System.gap f (gaps.headD []) y) fun y =>
    andThen (execAt p.layout i y.block) fun s => (k s.rdata).runWith p f gaps.tail (y.withBlock s)
  | .readCount c k, gaps, y =>
    andThen (System.gap f (gaps.headD []) y) fun y => (k (y.fw.count c)).runWith p f gaps.tail y
  | .readCell buf i k, gaps, y =>
    andThen (System.gap f (gaps.headD []) y) fun y => (k (y.fw.cell buf i)).runWith p f gaps.tail y
  | .store w k, gaps, y =>
    andThen (System.gap f (gaps.headD []) y) fun y =>
      k.runWith p f gaps.tail { y with fw := y.fw.store w }
  | .service c k, gaps, y =>
    andThen (System.gap f (gaps.headD []) y) fun y => k.runWith p f gaps.tail (y.service c)

/-- Run a sequence in the handler's context: mainline does not preempt it and it does not nest (R231,
R255), so only steps of other agents fall between its steps. -/
def Script.runHandler {α : Type} (p : Params) :
    Script α → List (List Event) → System → Host.Outcome (α × System) Fault Refusal :=
  Script.runWith p (System.event p)

/-- The line as the controller has it now, `irq` looked at. -/
def System.lineNow (y : System) : IrqLine := y.observe.line

/-- The interrupt id requested of the host, if any: `UART_IRQ_ID` while the line is enabled and pending
and not being served (R248, R255, R258). The core's priority and mask are the host's, and when it takes the
request is too (R248, R251, log 21). -/
def System.requested (p : Params) (y : System) : Option Nat :=
  if y.lineNow.enabled && y.lineNow.pending && !y.serving then some p.uartIrqId else none

/-- The host enters the handler. The block sees nothing of it (R251); the line is taken into service and
its pending bit falls (DESIGN CHOICE, log 29). -/
def System.enter (y : System) : System :=
  { y with line := { y.lineNow with pending := false }, serving := true }

/-- The host returns from the handler: the block sees nothing of it, and a request that is still there is
pending at once (R247, R254). -/
def System.leave (y : System) : System := { y with serving := false }.observe

/-- What may fall between two steps of mainline. -/
inductive Interlude where
  /-- A step of another agent. -/
  | event (e : Event)
  /-- The handler preempts mainline, if the line is requested, and runs to completion (R231), with the given
  steps of other agents before each of its steps. -/
  | interrupt (gaps : List (List Event))
  deriving DecidableEq, Repr

/-- The handler, if the line is requested: entered, run to completion, returned from (R231, R251, R254). -/
def System.interrupt (p : Params) (handler : Script Unit) (gaps : List (List Event)) (y : System) :
    Host.Outcome System Fault Refusal :=
  if (y.requested p).isSome then
    andThen (handler.runHandler p gaps y.enter) fun r => .next r.2.leave
  else .next y

/-- One interlude, for a given handler. -/
def System.interlude (p : Params) (handler : Script Unit) (g : Interlude) (y : System) :
    Host.Outcome System Fault Refusal :=
  match g with
  | .event e => y.event p e
  | .interrupt gaps => y.interrupt p handler gaps

/-- Run a sequence in mainline: before each of its steps steps of other agents may fall, and the handler may
preempt it (R231, R282). -/
def Script.runUnder {α : Type} (p : Params) (handler : Script Unit) :
    Script α → List (List Interlude) → System → Host.Outcome (α × System) Fault Refusal :=
  Script.runWith p (System.interlude p handler)

end Sys2Proof.Machine
end

