-- ==== Sys2Proof/Machine/Driver.lean ====
section
/-! DEFINITION. The driver's reference sequences of spec/46_driver_sequences.md: firmware, kept beside
the machine and not part of State (R46, R220). Every mention of a count in the spec's pseudocode is one
load or store of it, from left to right (log 24), so that a handler that preempts mainline between two of
them is shown (R282, U18). The masks the pseudocode writes as numbers are those of the default layout; here
they are made from the layout of the parameters (DEDUCED, log 36). -/

namespace Sys2Proof.Machine

/-! ## The access layer (R222) -/

/-- `SETBITS reg, m`: `t = RD reg ; WR reg, t | m` (R222). -/
def setBits (r : Reg) (m : Word) : Script Unit := (rdReg r).bind fun t => wrReg r (t ||| m)

/-- `CLRBITS reg, m`: `t = RD reg ; WR reg, t & ~m` (R222). -/
def clrBits (r : Reg) (m : Word) : Script Unit := (rdReg r).bind fun t => wrReg r (t &&& ~~~m)

/-- `TEST reg, m`: `((RD reg) & m) != 0` (R222). -/
def testBits (r : Reg) (m : Word) : Script Bool := (rdReg r).bind fun t => .done (t &&& m != 0#32)

/-- `count <- count + 1`. -/
def increment (c : Count) : Script Unit := (getCount c).bind fun n => put (.count c (n + 1))

/-! ## `CONFIGURE` -/

/-- `word_length` of `LineConfig` (R13, R221). -/
inductive WordLength where
  | w7 | w8 | w9
  deriving DecidableEq, Repr

/-- `parity` of `LineConfig` (R13, R221). -/
inductive Parity where
  | none | even | odd
  deriving DecidableEq, Repr

/-- `stop_bits` of `LineConfig` (R13, R221). -/
inductive StopBits where
  | one | two
  deriving DecidableEq, Repr

/-- The firmware's record `LineConfig` (R13). -/
structure LineConfig where
  bitRate : Nat
  wordLength : WordLength
  parity : Parity
  stopBits : StopBits
  deriving DecidableEq, Repr

/-- `ConfigError`, whose one member is the only explicit error (R242). -/
inductive ConfigError where
  | unsupportedRate
  deriving DecidableEq, Repr

/-- R149: `d = floor(F_CLK / bit_rate)`, refused if zero or above 65535; a clock that is zero or negative
fails the same way (R221, U21). R149 says `bit_rate > 0`; for `bit_rate` = 0, which it gives no outcome,
`d` is taken to be 0, and so `UnsupportedRate` is answered (DESIGN CHOICE, log 27). -/
def divisor (fClk : Int) (bitRate : Nat) : Option Nat :=
  let d := if bitRate = 0 then 0 else fClk.toNat / bitRate
  if fClk ≤ 0 ∨ d = 0 ∨ 65535 < d then none else some d

/-- The code of `WL` (R28, R221). -/
def WordLength.code : WordLength → BitVec 2
  | .w8 => 0b00#2
  | .w7 => 0b01#2
  | .w9 => 0b10#2

/-- The `WL` code in its place in `CR1`: by default 0x0000, 0x0800, 0x1000 (R221). -/
def WordLength.bits (c : WordLength) (l : Layout) : Word := placeField l.wl c.code

/-- `PCE` for a parity (R28). -/
def Parity.pce : Parity → Bool
  | .none => false
  | .even | .odd => true

/-- `PS` for a parity (R28). -/
def Parity.ps : Parity → Bool
  | .none | .even => false
  | .odd => true

/-- The parity bits in their place in `CR1`: by default 0x0000, 0x0400, 0x0600 (R221). -/
def Parity.bits (c : Parity) (l : Layout) : Word := placeBit l.pce c.pce ||| placeBit l.ps c.ps

/-- `STOP2` for a number of stop bits (R29). -/
def StopBits.stop2 : StopBits → Bool
  | .one => false
  | .two => true

/-- `STOP2` in its place in `CR2`: by default 0x0000, 0x2000 (R221). -/
def StopBits.bits (c : StopBits) (l : Layout) : Word := placeBit l.stop2 c.stop2

/-- The framing bits of `CR1`, `WL`, `PCE` and `PS`: by default 0x1E00 (R221). -/
def framingMask (l : Layout) : Word := maskOf (List.range' l.wl 2 ++ [l.pce, l.ps])

/-- `CONFIGURE` (R221), in the order R221 chooses; `prio` is the priority the firmware registers. Nothing
guards against a second call (R232): at the block it is defined (R157), and the line is registered again
(log 30). -/
def configure (p : Params) (fClk : Int) (c : LineConfig) (prio : Nat) : Script (Except ConfigError Unit) :=
  let l := p.layout
  match divisor fClk c.bitRate with
  | none => .done (.error .unsupportedRate)
  | some d =>
    (wrReg .brr (placeField l.div (BitVec.ofNat 16 d))).bind fun _ =>
    (rdReg .cr1).bind fun t =>
    (wrReg .cr1 ((t &&& ~~~framingMask l) ||| c.wordLength.bits l ||| c.parity.bits l)).bind fun _ =>
    (rdReg .cr2).bind fun u =>
    (wrReg .cr2 ((u &&& ~~~placeBit l.stop2 true) ||| c.stopBits.bits l)).bind fun _ =>
    (setBits .cr1 (placeBit l.rxneie true)).bind fun _ =>
    (call (.setPriority prio)).bind fun _ =>
    (call .enable).bind fun _ =>
    (setBits .cr1 (placeBit l.ue true)).bind fun _ =>
    .done (.ok ())

/-! ## The handler -/

/-- `ON_RX_READY` (R225): the read is made even when the byte is dropped. -/
def onRxReady (p : Params) : Script Unit :=
  (rdReg .dr).bind fun t =>
  (getCount .rx).bind fun n =>
  if n < p.cRx then
    (getCount .rx).bind fun i =>
    (put (.cell .rx i (t.extractLsb' p.layout.data 8))).bind fun _ => increment .rx
  else .done ()

/-- `ON_TX_READY` (R226). Called outside its contract, with an empty backlog, it writes what the cell holds,
be it a free value (log 31). -/
def onTxReady (p : Params) : Script Unit :=
  (getCount .sent).bind fun i =>
  (getCell .tx i).bind fun b =>
  (wrReg .dr (placeField p.layout.data b)).bind fun _ =>
  (increment .sent).bind fun _ =>
  (getCount .sent).bind fun sent =>
  (getCount .pending).bind fun pending =>
  if sent = pending then
    (put (.count .sent 0)).bind fun _ =>
    (put (.count .pending 0)).bind fun _ => clrBits .cr1 (placeBit p.layout.txeie true)
  else .done ()

/-- `sent_count < pending_count`: the backlog is not empty. -/
def backlogWaits : Script Bool :=
  (getCount .sent).bind fun sent =>
  (getCount .pending).bind fun pending => .done (decide (sent < pending))

/-- `ON_INTERRUPT` (R224): one read of the status, then both conditions, independently. -/
def onInterrupt (p : Params) : Script Unit :=
  (rdReg .sr).bind fun s =>
  (if s.getLsbD p.layout.rxne then onRxReady p else .done ()).bind fun _ =>
  (if s.getLsbD p.layout.txe then backlogWaits else .done false).bind fun ready =>
  if ready then onTxReady p else .done ()

/-! ## The application's sequences -/

/-- `sent_count = pending_count`: the backlog is empty. -/
def backlogEmpty : Script Bool :=
  (getCount .sent).bind fun sent =>
  (getCount .pending).bind fun pending => .done (decide (sent = pending))

/-- `SEND(text)` (R227): a byte goes straight to `DR`; or it is appended to the backlog and then, "after the
append, never before" (R283), the transmit source is armed; or the rest of the text is dropped. -/
def send (p : Params) : List Byte → Script Unit
  | [] => .done ()
  | b :: bs =>
    (rdReg .sr).bind fun s =>
    (if s.getLsbD p.layout.txe then backlogEmpty else .done false).bind fun direct =>
    if direct then (wrReg .dr (placeField p.layout.data b)).bind fun _ => send p bs
    else
      (getCount .pending).bind fun n =>
      if n = p.cTx then .done ()
      else
        (getCount .pending).bind fun i =>
        (put (.cell .tx i b)).bind fun _ =>
        (increment .pending).bind fun _ =>
        (setBits .cr1 (placeBit p.layout.txeie true)).bind fun _ => send p bs

/-- `rx_buf[i .. i + n - 1]`. -/
def copyReceived (i : Nat) : Nat → Script (List Byte)
  | 0 => .done []
  | n + 1 =>
    (getCell .rx i).bind fun b =>
    (copyReceived (i + 1) n).bind fun bs => .done (b :: bs)

/-- `RECEIVE(max_len)` (R228): no register operation; `RECEIVE(0)` changes nothing (C6). -/
def receive (maxLen : Nat) : Script (List Byte) :=
  if maxLen = 0 then .done []
  else
    (getCount .rx).bind fun n =>
    (copyReceived 0 (min maxLen n)).bind fun out =>
    (put (.count .rx 0)).bind fun _ => .done out

/-! ## Running them -/

/-- Run a sequence of the application, with `ON_INTERRUPT` as the handler of the line (R231, R252). -/
def Script.run {α : Type} (p : Params) :
    Script α → List (List Interlude) → System → Host.Outcome (α × System) Fault Refusal :=
  Script.runUnder p (onInterrupt p)

end Sys2Proof.Machine
end

