-- ==== Sys2Proof/Safety.lean ====
section
/-! DEFINITION. The terms statements are made in: the invariant of every step, the untimed view of a
state, what a run writes and reads, what software must respect (spec/70_reset_and_hazards.md section 4),
and the firmware's division of its state. Nothing here is enforced by the machine. -/

namespace Sys2Proof.Machine

/-- What holds in every reachable state. Ranges over states; that every step keeps it is a statement. -/
structure State.Inv (s : State) : Prop where
  /-- R180 (a). -/
  txIdle : s.txs = .tIdle → s.tsr = [] ∧ s.txd = true
  /-- R179: when the last level of a frame has been driven the pin is at the stop bit's level 1. -/
  txDriven : s.txs = .tShift → s.tsr = [] → s.txd = true
  /-- R95: every frame ends in a stop bit. -/
  txStop : s.tsr = [] ∨ s.tsr.getLast? = some true
  /-- R43: `len(TSR) <= 13`. -/
  tsrBound : s.tsr.length ≤ 13
  /-- R208 (a). -/
  rxIdle : s.rxs = .rIdle → s.rsr = []
  /-- R105, R201: a frame in flight has a legal latched word length and at most `rxlen` samples. -/
  rxNeed : s.rxs = .rRecv → ∃ n, s.rxcfg.need = some n ∧ s.rsr.length ≤ n
  /-- R161: while `UE` = 0 both engines are idle. -/
  disabled : s.ue = false → s.txs = .tIdle ∧ s.rxs = .rIdle ∧ s.startPending = false
  /-- R270: while `rst_n` = 0 every piece of state has its reset value. -/
  inReset : s.rstN = false → s = s.resetBlock

/-- The steps of the two engines: everything that is neither the host, nor the environment, nor a clock
cycle. "Hardware event" in R74, R75, R204. -/
def Event.isEngine : Event → Bool
  | .txLoad | .txBit | .txEnd | .txChar | .rxStart | .rxBit _ | .rxEnd | .rxChar _ _ _ => true
  | .host _ | .rstAssert | .rstRelease | .clkGate | .clkUngate | .cycle _ _ => false

/-- The state as the untimed model has it (R44, R147): the timing-level fields are put at their reset
values, and so is the index of free values, which only the timing level moves. -/
def State.untimed (s : State) : State :=
  { s with
    txCnt := 0#16
    rxCnt := 0#16
    startPending := false
    rxdMeta := true
    rxdS := true
    rxdQ := true
    irqPin := false
    freeCtr := 0 }

/-- The outcome of a step as the untimed model has it. -/
def untimedOutcome : Result → Result
  | .next s => .next s.untimed
  | .fault e => .fault e
  | .refused e => .refused e

/-- The host access a step makes, if any. -/
def Event.access : Event → Option HostAccess
  | .host a => some a
  | .cycle access _ => access
  | .txLoad | .txBit | .txEnd | .txChar | .rxStart | .rxBit _ | .rxEnd | .rxChar _ _ _
  | .rstAssert | .rstRelease | .clkGate | .clkUngate => none

/-- The bus operation a host access performs, if it is one. -/
def operation (p : Params) (a : HostAccess) : Option Instr :=
  match route p a with
  | .error _ => none
  | .ok t =>
    match decodeTransactionAt p.offsets t with
    | .error _ => none
    | .ok i => some i

/-- The bus operation a step performs, if any. -/
def Event.operation (p : Params) (e : Event) : Option Instr :=
  match e.access with
  | none => none
  | some a => Machine.operation p a

/-- The characters handed to the transmitter by the `WR_DR` operations of a schedule, in order. -/
def written (p : Params) (es : List Event) : List (BitVec 9) :=
  es.filterMap fun e =>
    match e.operation p with
    | some (.wrDr w) => some (wdataDATA p.layout w)
    | _ => none

/-- The frame of a character under the framing fields of `s`; nothing under the reserved word length. -/
def State.frameOf (s : State) (v : BitVec 9) : List Level :=
  (frame v s.wl s.pce s.ps s.stop2).getD []

/-- Every level the block has driven or still owes the line: driven, left of the frame in flight, and the
frame of the character that waits in `TDR`. -/
def State.owed (s : State) : List Level :=
  s.lineOut ++ s.tsr ++ (if s.txe then [] else s.frameOf s.tdr)

/-- A bus operation that leaves the framing and `UE` as they are and hands a character over only with
`TXE` = 1 (R182, R280, R285). -/
def orderlyOperation (l : Layout) (s : State) : Instr → Bool
  | .wrDr _ => s.txe
  | .wrCr1 w =>
    (wdataUE l w == s.ue) && (wdataWL l w == s.wl) && (wdataPCE l w == s.pce) &&
      (wdataPS l w == s.ps)
  | .wrCr2 w => (wdataSTOP2 l w == s.stop2)
  | .rdSr | .rdDr | .rdBrr | .rdCr1 | .rdCr2 | .rdRsv14 | .rdRsv18 | .rdRsv1c
  | .wrSr _ | .wrBrr _ | .wrRsv14 _ | .wrRsv18 _ | .wrRsv1c _ => true

/-- What a step may do in a run that sends a sequence of characters in order (R182): any step of any
agent but a reset, with orderly bus operations. -/
def orderlyStep (p : Params) (s : State) (e : Event) : Bool :=
  (e != .rstAssert) &&
    match e.operation p with
    | none => true
    | some i => orderlyOperation p.layout s i

/-- A schedule every step of which is orderly in the state it is taken from. -/
def orderly (p : Params) : List Event → State → Bool
  | [], _ => true
  | e :: es, s => orderlyStep p s e &&
    match runEvent p e s with
    | .next s' => orderly p es s'
    | .fault _ => true
    | .refused _ => true

/-- The character that waits in `RDR`, if one does (R195). -/
def State.waiting (s : State) : List (BitVec 9) := if s.rxne then [s.rdr] else []

/-- What a run delivers to the host: the `rdata` of each `RD_DR` that found `RXNE` = 1 (R208). -/
def delivered (p : Params) : List Event → State → List Word
  | [], _ => []
  | e :: es, s =>
    match runEvent p e s with
    | .next s' =>
      (if e.operation p = some .rdDr ∧ s.rxne = true then [s'.rdata] else []) ++ delivered p es s'
    | _ => []

/-- What a run stores: `RDR` after each step that makes `RXNE` 1 (R203, R207). -/
def stored (p : Params) : List Event → State → List Word
  | [], _ => []
  | e :: es, s =>
    match runEvent p e s with
    | .next s' =>
      (if s.rxne = false ∧ s'.rxne = true then [s'.drWord p.layout] else []) ++ stored p es s'
    | _ => []

/-- A step that is one atomic step of the untimed model (R74): not a clock cycle, which is several. -/
def Event.isAtomic : Event → Bool
  | .cycle _ _ => false
  | .host _ | .txLoad | .txBit | .txEnd | .txChar | .rxStart | .rxBit _ | .rxEnd | .rxChar _ _ _
  | .rstAssert | .rstRelease | .clkGate | .clkUngate => true

/-- What a driver must respect at the bus: check `TXE` before `WR_DR` (R280), re-configure only while
disabled (R285), never write a zero divisor or the reserved word length (R286). -/
def safeOperation (l : Layout) (s : State) : Instr → Bool
  | .wrDr _ => s.txe
  | .wrBrr w => !s.ue && (wdataDIV l w != 0#16)
  | .wrCr1 w =>
    (wdataWL l w != Config.wlReserved) &&
      (!s.ue || ((wdataWL l w == s.wl) && (wdataPCE l w == s.pce) && (wdataPS l w == s.ps)))
  | .wrCr2 w => !s.ue || (wdataSTOP2 l w == s.stop2)
  | .rdSr | .rdDr | .rdBrr | .rdCr1 | .rdCr2 | .rdRsv14 | .rdRsv18 | .rdRsv1c
  | .wrSr _ | .wrRsv14 _ | .wrRsv18 _ | .wrRsv1c _ => true

/-- A step a driver that respects the hazards may take part in. -/
def safeStep (p : Params) (s : State) (e : Event) : Bool :=
  match e.operation p with
  | none => true
  | some i => safeOperation p.layout s i

/-- The reserved word length stands neither in `CR1` nor in the frame in flight. -/
def State.legalWordLength (s : State) : Prop :=
  s.wl ≠ Config.wlReserved ∧ (s.rxs = .rRecv → s.rxcfg.wl ≠ Config.wlReserved)

/-! ## The firmware (spec/46_driver_sequences.md) -/

/-- R220: `rx_count` in 0 to `C_rx`, `0 <= sent_count <= pending_count <= C_tx`; and what the model's form of
a buffer adds: every byte that is counted was written, and no cell beyond the capacity was. -/
def Firmware.wf (p : Params) (fw : Firmware) : Bool :=
  decide (fw.rxCount ≤ fw.rxBuf.length) && decide (fw.rxBuf.length ≤ p.cRx) &&
    decide (fw.sentCount ≤ fw.pendingCount) && decide (fw.pendingCount ≤ fw.txBuf.length) &&
    decide (fw.txBuf.length ≤ p.cTx)

/-- The ISR's fields (R220): it appends to `rx_buf` and `rx_count` and writes `sent_count`, and of
`pending_count` it writes the reset to 0. -/
def Store.byIsr : Store → Bool
  | .cell .rx _ _ => true
  | .cell .tx _ _ => false
  | .count .rx _ => true
  | .count .sent _ => true
  | .count .pending n => n == 0

/-- The application's fields (R220): it resets `rx_count` and writes `tx_buf` and `pending_count`. -/
def Store.byApplication : Store → Bool
  | .cell .rx _ _ => false
  | .cell .tx _ _ => true
  | .count .rx n => n == 0
  | .count .sent _ => false
  | .count .pending _ => true

/-- Every store of a sequence, whatever it reads on its way, is one of those allowed. -/
def Script.writesOnly {α : Type} (allowed : Store → Bool) : Script α → Prop
  | .done _ => True
  | .bus _ k => ∀ w, (k w).writesOnly allowed
  | .readCount _ k => ∀ n, (k n).writesOnly allowed
  | .readCell _ _ k => ∀ b, (k b).writesOnly allowed
  | .store w k => allowed w = true ∧ k.writesOnly allowed
  | .service _ k => k.writesOnly allowed

/-- The write of `CR1` that arms the transmit source (R246). -/
def arms (l : Layout) : Instr → Bool
  | .wrCr1 w => wdataTXEIE l w
  | .rdSr | .rdDr | .rdBrr | .rdCr1 | .rdCr2 | .rdRsv14 | .rdRsv18 | .rdRsv1c
  | .wrSr _ | .wrDr _ | .wrBrr _ | .wrCr2 _ | .wrRsv14 _ | .wrRsv18 _ | .wrRsv1c _ => false

/-- The store that makes an append visible: `pending_count` moves on (R227). -/
def Store.isAppend : Store → Bool
  | .count .pending _ => true
  | .count .rx _ | .count .sent _ | .cell _ _ _ => false

/-- R227, R283: in a sequence, whatever it reads on its way, the transmit source is armed only after an
append, and every append is followed by one arming write before the next append and before the end.
`appended`: an append stands before this point that no arming write has followed yet. -/
def Script.armsAfterAppend {α : Type} (l : Layout) : Script α → Bool → Prop
  | .done _, appended => appended = false
  | .bus i k, appended =>
    (arms l i = true → appended = true) ∧
      ∀ w, (k w).armsAfterAppend l (appended && !arms l i)
  | .readCount _ k, appended => ∀ n, (k n).armsAfterAppend l appended
  | .readCell _ _ k, appended => ∀ b, (k b).armsAfterAppend l appended
  | .store w k, appended =>
    (w.isAppend = true → appended = false) ∧ k.armsAfterAppend l (appended || w.isAppend)
  | .service _ k, appended => k.armsAfterAppend l appended

end Sys2Proof.Machine
end

