-- ==== Sys2Proof/Certificates/Slice0/Obligations.lean ====
section
/-! DEFINITION. The statements for the provers. Each docstring names the rule of spec/ it formalises, or
says on what it rests. `s.running = true` is the common pre-condition of every operation: out of reset
(R271) and clock running (R276). An equality with a record update says the whole frame: every field not
named is unchanged. The block holds no memory (R60). -/

open Sys2Proof Sys2Proof.Machine

/-! ## Bus operations -/

/-- R120 (with R25, R31): selector, value bit by bit, no side effect. -/
def Obligations.RdSrReturnsFlags : Prop :=
  (∀ w, decodeSelector 0x40#8 w = .ok .rdSr) ∧
  ∀ s : State, s.running = true → ∃ v : Word, exec .rdSr s = .next { s with rdata := v } ∧
    v.getLsbD 7 = s.txe ∧ v.getLsbD 6 = (s.txe && s.txs == .tIdle) ∧
    v.getLsbD 5 = s.rxne ∧ v.getLsbD 3 = s.ore ∧ v.getLsbD 1 = s.fe ∧ v.getLsbD 0 = s.pe ∧
    ∀ k, k ≠ 7 → k ≠ 6 → k ≠ 5 → k ≠ 3 → k ≠ 1 → k ≠ 0 → v.getLsbD k = false

/-- R122: selector; each error flag goes to 0 exactly if a 1 is written at its bit; nothing else moves. -/
def Obligations.WrSrClearsErrorFlags : Prop :=
  (∀ w, decodeSelector 0xC0#8 w = .ok (.wrSr w)) ∧
  ∀ (s : State) (w : Word), s.running = true →
    exec (.wrSr w) s = .next { s with
      ore := s.ore && !w.getLsbD 3
      fe := s.fe && !w.getLsbD 1
      pe := s.pe && !w.getLsbD 0 }

/-- R130: selector; `rdata` is `RDR` zero extended; `RXNE` falls; `RDR` and the error flags stay; the
receive request falls in the same step. -/
def Obligations.RdDrReturnsCharacter : Prop :=
  (∀ w, decodeSelector 0x44#8 w = .ok .rdDr) ∧
  ∀ s : State, s.running = true → ∃ v : Word,
    exec .rdDr s = .next { s with rdata := v, rxne := false } ∧
    (∀ k, k < 9 → v.getLsbD k = s.rdr.getLsbD k) ∧ (∀ k, 9 ≤ k → v.getLsbD k = false) ∧
    ∀ t, exec .rdDr s = .next t → t.irq = (s.txe && s.txeie)

/-- R131 (a), (b): a second read finds `RXNE` = 0, returns the same value and changes nothing. -/
def Obligations.SecondRdDrChangesNothing : Prop :=
  ∀ s t : State, exec .rdDr s = .next t → t.rxne = false ∧ exec .rdDr t = .next t

/-- R132, R133 (a), (b), (c): selector; all 9 bits are stored and `TXE` falls whatever `TXE`, `UE` and
`DIV` are; `TC` falls with it; the transmit request falls in the same step; the write starts no frame,
and `TX_LOAD` is enabled by it exactly if `UE` = 1, `DIV` != 0 and `TXS` = `T_IDLE`. -/
def Obligations.WrDrLoadsTdr : Prop :=
  (∀ w, decodeSelector 0xC4#8 w = .ok (.wrDr w)) ∧
  ∀ (s : State) (w : Word), s.running = true → ∃ c : BitVec 9,
    exec (.wrDr w) s = .next { s with tdr := c, txe := false } ∧
    (∀ k, k < 9 → c.getLsbD k = w.getLsbD k) ∧
    ∀ t, exec (.wrDr w) s = .next t → t.tc = false ∧ t.irq = (s.rxne && s.rxneie) ∧
      (t.txLoadEnabled = true ↔ s.ue = true ∧ s.div ≠ 0#16 ∧ s.txs = .tIdle)

/-- R140, R141, R142 (a), (d), (e): selectors; the low 16 bits are stored whatever they are, nothing in
flight is touched; the read returns them zero extended and has no side effect. -/
def Obligations.BrrStoresDivisor : Prop :=
  (∀ w, decodeSelector 0x48#8 w = .ok .rdBrr ∧ decodeSelector 0xC8#8 w = .ok (.wrBrr w)) ∧
  (∀ (s : State) (w : Word), s.running = true → ∃ d : BitVec 16,
    exec (.wrBrr w) s = .next { s with div := d } ∧ ∀ k, k < 16 → d.getLsbD k = w.getLsbD k) ∧
  ∀ s : State, s.running = true → ∃ v : Word, exec .rdBrr s = .next { s with rdata := v } ∧
    (∀ k, k < 16 → v.getLsbD k = s.div.getLsbD k) ∧ ∀ k, 16 ≤ k → v.getLsbD k = false

/-- R155: selector; the fields of `CR1` bit by bit; no side effect. -/
def Obligations.RdCr1ReturnsFields : Prop :=
  (∀ w, decodeSelector 0x4C#8 w = .ok .rdCr1) ∧
  ∀ s : State, s.running = true → ∃ v : Word, exec .rdCr1 s = .next { s with rdata := v } ∧
    v.getLsbD 13 = s.ue ∧ v.getLsbD 12 = s.wl.getLsbD 1 ∧ v.getLsbD 11 = s.wl.getLsbD 0 ∧
    v.getLsbD 10 = s.pce ∧ v.getLsbD 9 = s.ps ∧ v.getLsbD 7 = s.txeie ∧ v.getLsbD 5 = s.rxneie ∧
    ∀ k, k ≠ 13 → k ≠ 12 → k ≠ 11 → k ≠ 10 → k ≠ 9 → k ≠ 7 → k ≠ 5 → v.getLsbD k = false

/-- Rests on R156, R157 (d), (e), R161, R163, and on log 11 for the pending start-bit check: selector; the
seven fields are stored; both engines are aborted, with `txd` back at 1, exactly if the write takes `UE` from
1 to 0; no flag, no data register and none of `LINE_OUT` moves; `irq` follows the new enables in the same
step. The last line, that a pending start-bit check is dropped, is about the model's own field and is the
model's reading (log 11, DEDUCED). -/
def Obligations.WrCr1StoresFieldsAndMayAbort : Prop :=
  (∀ w, decodeSelector 0xCC#8 w = .ok (.wrCr1 w)) ∧
  ∀ (s : State) (w : Word), s.running = true → ∃ (l : BitVec 2) (t : State),
    exec (.wrCr1 w) s = .next t ∧ l.getLsbD 1 = w.getLsbD 12 ∧ l.getLsbD 0 = w.getLsbD 11 ∧
    t.irq = ((s.rxne && w.getLsbD 5) || (s.txe && w.getLsbD 7)) ∧
    (¬(s.ue = true ∧ w.getLsbD 13 = false) → t = { s with
      ue := w.getLsbD 13, wl := l, pce := w.getLsbD 10, ps := w.getLsbD 9,
      txeie := w.getLsbD 7, rxneie := w.getLsbD 5 }) ∧
    (s.ue = true ∧ w.getLsbD 13 = false → t = { s with
      ue := false, wl := l, pce := w.getLsbD 10, ps := w.getLsbD 9,
      txeie := w.getLsbD 7, rxneie := w.getLsbD 5,
      txs := .tIdle, tsr := [], txd := true, rxs := .rIdle, rsr := [],
      startPending := false })

/-- R155, R165, R75 (b), and R7, R25 to R29, D6, U22 for the positions: a read after a write returns what was
written, masked to the implemented bits (`CR1` 0x3EA0, `CR2` 0x2000). At every legal layout the same holds
with the layout's masks, each operation is the one of the default layout with each field at its own position,
and every bit that no field takes reads 0; and `exec` is the default layout. What a legal layout is rests on
spec/92_eei_decisions.md (no two fields overlap) and R7 (a register has 32 bits; log 36, DEDUCED). -/
def Obligations.ControlReadsBackMasked : Prop :=
  (∀ (s t u : State) (w : Word),
    (exec (.wrCr1 w) s = .next t → exec .rdCr1 t = .next u → u.rdata = w &&& 0x3EA0#32) ∧
    (exec (.wrCr2 w) s = .next t → exec .rdCr2 t = .next u → u.rdata = w &&& 0x2000#32) ∧
    (exec (.wrBrr w) s = .next t → exec .rdBrr t = .next u → u.rdata = w &&& 0xFFFF#32)) ∧
  (∀ (i : Instr) (s : State), exec i s = execAt Layout.default i s) ∧
  (∀ (l : Layout) (s t u : State) (w : Word), l.wf = true →
    (execAt l (.wrCr1 w) s = .next t → execAt l .rdCr1 t = .next u →
      u.rdata = w &&& maskOf l.cr1Bits) ∧
    (execAt l (.wrCr2 w) s = .next t → execAt l .rdCr2 t = .next u →
      u.rdata = w &&& maskOf l.cr2Bits) ∧
    (execAt l (.wrBrr w) s = .next t → execAt l .rdBrr t = .next u →
      u.rdata = w &&& maskOf l.brrBits)) ∧
  (∀ (l : Layout) (s : State) (w v : Word), l.wf = true →
    (w.getLsbD l.ore = v.getLsbD 3 → w.getLsbD l.fe = v.getLsbD 1 → w.getLsbD l.pe = v.getLsbD 0 →
      execAt l (.wrSr w) s = exec (.wrSr v) s) ∧
    ((∀ k, k < 9 → w.getLsbD (l.data + k) = v.getLsbD k) →
      execAt l (.wrDr w) s = exec (.wrDr v) s) ∧
    ((∀ k, k < 16 → w.getLsbD (l.div + k) = v.getLsbD k) →
      execAt l (.wrBrr w) s = exec (.wrBrr v) s) ∧
    (w.getLsbD l.ue = v.getLsbD 13 → w.getLsbD (l.wl + 1) = v.getLsbD 12 →
      w.getLsbD l.wl = v.getLsbD 11 → w.getLsbD l.pce = v.getLsbD 10 → w.getLsbD l.ps = v.getLsbD 9 →
      w.getLsbD l.txeie = v.getLsbD 7 → w.getLsbD l.rxneie = v.getLsbD 5 →
      execAt l (.wrCr1 w) s = exec (.wrCr1 v) s) ∧
    (w.getLsbD l.stop2 = v.getLsbD 13 → execAt l (.wrCr2 w) s = exec (.wrCr2 v) s) ∧
    execAt l .rdRsv14 s = exec .rdRsv14 s ∧ execAt l .rdRsv18 s = exec .rdRsv18 s ∧
    execAt l .rdRsv1c s = exec .rdRsv1c s ∧ execAt l (.wrRsv14 w) s = exec (.wrRsv14 v) s ∧
    execAt l (.wrRsv18 w) s = exec (.wrRsv18 v) s ∧ execAt l (.wrRsv1c w) s = exec (.wrRsv1c v) s) ∧
  ∀ (l : Layout) (s : State), l.wf = true → s.running = true →
    (∃ v : Word, execAt l .rdSr s = .next { s with rdata := v } ∧
      v.getLsbD l.txe = s.txe ∧ v.getLsbD l.tc = s.tc ∧ v.getLsbD l.rxne = s.rxne ∧
      v.getLsbD l.ore = s.ore ∧ v.getLsbD l.fe = s.fe ∧ v.getLsbD l.pe = s.pe ∧
      ∀ k, k ∉ l.srBits → v.getLsbD k = false) ∧
    (∃ v : Word, execAt l .rdDr s = .next { s with rdata := v, rxne := false } ∧
      (∀ k, k < 9 → v.getLsbD (l.data + k) = s.rdr.getLsbD k) ∧
      ∀ k, k ∉ l.drBits → v.getLsbD k = false) ∧
    (∃ v : Word, execAt l .rdBrr s = .next { s with rdata := v } ∧
      (∀ k, k < 16 → v.getLsbD (l.div + k) = s.div.getLsbD k) ∧
      ∀ k, k ∉ l.brrBits → v.getLsbD k = false) ∧
    (∃ v : Word, execAt l .rdCr1 s = .next { s with rdata := v } ∧
      v.getLsbD l.ue = s.ue ∧ v.getLsbD (l.wl + 1) = s.wl.getLsbD 1 ∧
      v.getLsbD l.wl = s.wl.getLsbD 0 ∧ v.getLsbD l.pce = s.pce ∧ v.getLsbD l.ps = s.ps ∧
      v.getLsbD l.txeie = s.txeie ∧ v.getLsbD l.rxneie = s.rxneie ∧
      ∀ k, k ∉ l.cr1Bits → v.getLsbD k = false) ∧
    ∃ v : Word, execAt l .rdCr2 s = .next { s with rdata := v } ∧ v.getLsbD l.stop2 = s.stop2 ∧
      ∀ k, k ∉ l.cr2Bits → v.getLsbD k = false

/-- R165, R166: selectors; bit 13 is stored and returned, every other bit reads 0; a frame in flight is
not touched. -/
def Obligations.Cr2StoresStop2 : Prop :=
  (∀ w, decodeSelector 0x50#8 w = .ok .rdCr2 ∧ decodeSelector 0xD0#8 w = .ok (.wrCr2 w)) ∧
  (∀ (s : State) (w : Word), s.running = true →
    exec (.wrCr2 w) s = .next { s with stop2 := w.getLsbD 13 }) ∧
  ∀ s : State, s.running = true → ∃ v : Word, exec .rdCr2 s = .next { s with rdata := v } ∧
    v.getLsbD 13 = s.stop2 ∧ ∀ k, k ≠ 13 → v.getLsbD k = false

/-- R171, R172: selectors; reserved slots read as zero in every state and ignore writes; neither has a
side effect and neither is refused. -/
def Obligations.ReservedSlotsReadZeroIgnoreWrites : Prop :=
  (∀ w, decodeSelector 0x54#8 w = .ok .rdRsv14 ∧ decodeSelector 0x58#8 w = .ok .rdRsv18 ∧
    decodeSelector 0x5C#8 w = .ok .rdRsv1c ∧ decodeSelector 0xD4#8 w = .ok (.wrRsv14 w) ∧
    decodeSelector 0xD8#8 w = .ok (.wrRsv18 w) ∧ decodeSelector 0xDC#8 w = .ok (.wrRsv1c w)) ∧
  ∀ (s : State) (w : Word), s.running = true →
    exec .rdRsv14 s = .next { s with rdata := 0#32 } ∧
    exec .rdRsv18 s = .next { s with rdata := 0#32 } ∧
    exec .rdRsv1c s = .next { s with rdata := 0#32 } ∧
    exec (.wrRsv14 w) s = .next s ∧ exec (.wrRsv18 w) s = .next s ∧ exec (.wrRsv1c w) s = .next s

/-- Rests on R271, R276, R240, and on log 8 (DESIGN CHOICE) for which reason is given when both hold: an
operation is refused in reset and while the clock is gated, and completes otherwise, whatever it is. -/
def Obligations.OperationCompletesUnlessResetOrGated : Prop :=
  ∀ (i : Instr) (s : State),
    (s.rstN = false → exec i s = .refused .inReset) ∧
    (s.rstN = true → s.clkEn = false → exec i s = .refused .clockGated) ∧
    (s.rstN = true → s.clkEn = true → ∃ t, exec i s = .next t)

/-- R22: no operation writes `RDR`, and no operation lets the host see `TDR`: two states that differ only
in `TDR` give the same read data. -/
def Obligations.BusNeitherWritesRdrNorShowsTdr : Prop :=
  ∀ (i : Instr) (s : State) (c : BitVec 9),
    (∀ t, exec i s = .next t → t.rdr = s.rdr) ∧
    ∀ t u, exec i s = .next t → exec i { s with tdr := c } = .next u → t.rdata = u.rdata

/-- The whole frame of the engines under bus operations (R156, R161, R69): no operation but a `WR_CR1`
that takes `UE` from 1 to 0 touches a sequencer, a shift register, `RXCFG`, `txd` or `LINE_OUT`. -/
def Obligations.OnlyDisableTouchesEngines : Prop :=
  ∀ (i : Instr) (s t : State), exec i s = .next t →
    (∀ w, i = .wrCr1 w → ¬(s.ue = true ∧ w.getLsbD 13 = false)) →
    t.txs = s.txs ∧ t.tsr = s.tsr ∧ t.rxs = s.rxs ∧ t.rsr = s.rsr ∧ t.rxcfg = s.rxcfg ∧
      t.txd = s.txd ∧ t.lineOut = s.lineOut

/-! ## Encoding -/

/-- R93, R94, R103: a selector decodes exactly if `SIZE` = 0b10 and `OFF[1:0]` = 0; the size is tested
first; sixteen selectors decode. -/
def Obligations.ExactlySixteenSelectorsDecode : Prop :=
  (∀ (sel : BitVec 8) (w : Word),
    (sel.extractLsb' 5 2 ≠ 0b10#2 → decodeSelector sel w = .error .badSize) ∧
    (sel.extractLsb' 5 2 = 0b10#2 → sel.extractLsb' 0 2 ≠ 0b00#2 →
      decodeSelector sel w = .error .misaligned) ∧
    (sel.extractLsb' 5 2 = 0b10#2 → sel.extractLsb' 0 2 = 0b00#2 →
      ∃ i, decodeSelector sel w = .ok i ∧ selectorOf i = sel)) ∧
  ((List.range 256).filter fun n => (decodeSelector (BitVec.ofNat 8 n) 0#32).isOk).length = 16

/-- Decode of encode is the operation, with every data word, whatever bytes follow; the byte form is the
model's choice (log 9). At the port the same holds under every legal table of offsets (R94; which free slot
bears which reserved name is log 32), and at the default table the two decoders are one. -/
def Obligations.DecodeOfEncodeIsInstr : Prop :=
  (∀ (i : Instr) (rest : List Byte), decodeBytes (encode i ++ rest) = .ok (i, rest)) ∧
  (∀ i : Instr, decodeTransaction (transactionOf i) = .ok i) ∧
  (∀ (o : Offsets) (i : Instr), o.wf = true → decodeTransactionAt o (transactionAt o i) = .ok i) ∧
  ∀ t : Transaction, decodeTransactionAt Offsets.default t = decodeTransaction t

/-- Encode of decode gives back the bytes: no two strings of bytes decode to the same operation. -/
def Obligations.EncodeOfDecodeIsBytes : Prop :=
  ∀ (bs rest : List Byte) (i : Instr), decodeBytes bs = .ok (i, rest) → bs = encode i ++ rest

/-- Words of spec/95_test_vectors.md 2.1 and R106, written out bit by bit. -/
def Obligations.ListedWordsDecode : Prop :=
  decodeTableWord 8 0b01000000 = some .rdSr ∧ decodeTableWord 8 0b01000100 = some .rdDr ∧
  decodeTableWord 8 0b01001000 = some .rdBrr ∧ decodeTableWord 8 0b01011100 = some .rdRsv1c ∧
  decodeTableWord 8 0b11001100 = some (.wrCr1 0#32) ∧
  decodeBytes [0xC8#8, 0x82#8, 0x06#8, 0x00#8, 0x00#8] = .ok (.wrBrr 0x682#32, []) ∧
  decodeTableWord 8 0b00000100 = none ∧ decodeTableWord 8 0b01000101 = none

/-! ## The step, the window, the schedule -/

/-- R10, R94: the host's load or store at `UART_BASE + OFF_reg`, scheduled next, is `RD reg` or
`WR reg, v`: the step is `exec` of it on the state without that entry of the schedule. Under the
default parameters (log 6); the schedule is the model's (log 1). -/
def Obligations.StepRunsDecodedOperation : Prop :=
  (∀ (s : State) (i : Instr) (es : List Event),
    s.sched = .host (accessOf Params.default i) :: es → step s = exec i { s with sched := es }) ∧
  ∀ (s : State) (a : HostAccess) (es : List Event) (i : Instr), s.sched = .host a :: es →
    a.wf Params.default = true →
    decodeTransaction ⟨a.write, a.size, (a.addr - Params.default.uartBase).extractLsb' 0 5, a.wdata⟩ =
      .ok i →
    step s = exec i { s with sched := es }

/-- R10, R70, R94, R106, for every legal placing of the window (what is legal: log 25) and every legal table
of offsets (R94; the names of the reserved slots: log 32) and every legal layout of the registers (D6): an
aligned word access at the offset of a slot reaches that slot, a read reads and a write writes; and each
register lies at the offset the table gives. -/
def Obligations.WindowAccessReachesItsRegister : Prop :=
  ∀ (p : Params) (r : Reg) (w : Word) (s : State), p.wf = true →
    hostAccess p ⟨false, 0b10#2, p.uartBase + (r.offsetAt p.offsets).setWidth 32, w⟩ s =
      execAt p.layout (readOf r) s ∧
    hostAccess p ⟨true, 0b10#2, p.uartBase + (r.offsetAt p.offsets).setWidth 32, w⟩ s =
      execAt p.layout (writeOf r w) s ∧
    Reg.sr.offsetAt p.offsets = p.offsets.sr ∧ Reg.dr.offsetAt p.offsets = p.offsets.dr ∧
    Reg.brr.offsetAt p.offsets = p.offsets.brr ∧ Reg.cr1.offsetAt p.offsets = p.offsets.cr1 ∧
    Reg.cr2.offsetAt p.offsets = p.offsets.cr2

/-- Rests on R65, and on log 8 (DESIGN CHOICE): any access that is not an aligned word access inside the
window is refused by name, for every placing of the window, in every state. That these tests come before
the reset input (R271) and the clock gate (R276), and in the order in which R65 writes them, is the model's
choice; so is that the window does not wrap round the end of the address space (log 25). -/
def Obligations.MalformedAccessIsRefused : Prop :=
  ∀ (p : Params) (a : HostAccess) (s : State),
    (a.size ≠ 0b10#2 → hostAccess p a s = .refused .badSize) ∧
    (a.size = 0b10#2 → (a.addr - p.uartBase).extractLsb' 0 2 ≠ 0#2 →
      hostAccess p a s = .refused .misaligned) ∧
    (a.size = 0b10#2 → (a.addr - p.uartBase).extractLsb' 0 2 = 0#2 →
      (a.addr.toNat < p.uartBase.toNat ∨ p.uartBase.toNat + 32 ≤ a.addr.toNat) →
      hostAccess p a s = .refused .outOfWindow)

/-- R63: the bytes of a slot, little-endian, are the bytes of the word a read of it returns, under every
legal table of offsets (R94) and at every layout of the registers (D6). -/
def Obligations.WindowIsLittleEndian : Prop :=
  ∀ (p : Params) (s : State) (r : Reg), p.offsets.wf = true → s.peek p.layout r =
    (s.windowByte p (r.offsetAt p.offsets + 3#5) ++ s.windowByte p (r.offsetAt p.offsets + 2#5) ++
      s.windowByte p (r.offsetAt p.offsets + 1#5) ++ s.windowByte p (r.offsetAt p.offsets) :
      BitVec 32)

/-- The schedule is run in its order, one step of one agent at a time, and nothing else happens
(R12, R74; the schedule is the model's, log 1): as many steps as a schedule is long are that schedule. -/
def Obligations.StepsRunTheSchedule : Prop :=
  (∀ s : State, s.sched = [] → step s = .next s) ∧
  ∀ (es rest : List Event) (s : State),
    Host.Core.run Sys2Proof.core es.length (s.setSched (es ++ rest)) =
      runEvents Params.default es (s.setSched rest)

/-! ## Reset and the clock gate -/

/-- R45: the values after reset, and the read value of every slot (at the default layout, as R45 gives them). -/
def Obligations.ResetValues : Prop :=
  State.reset.txe = true ∧ State.reset.tc = true ∧ State.reset.rxne = false ∧
  State.reset.ore = false ∧ State.reset.fe = false ∧ State.reset.pe = false ∧
  State.reset.tdr = 0#9 ∧ State.reset.rdr = 0#9 ∧ State.reset.div = 0#16 ∧
  State.reset.ue = false ∧ State.reset.pce = false ∧ State.reset.ps = false ∧
  State.reset.txeie = false ∧ State.reset.rxneie = false ∧ State.reset.wl = 0b00#2 ∧
  State.reset.stop2 = false ∧ State.reset.txs = .tIdle ∧ State.reset.rxs = .rIdle ∧
  State.reset.tsr = [] ∧ State.reset.rsr = [] ∧ State.reset.rxcfg = ⟨0b00#2, false, false⟩ ∧
  State.reset.txd = true ∧ State.reset.rxdS = true ∧ State.reset.rxdQ = true ∧
  State.reset.txCnt = 0#16 ∧ State.reset.rxCnt = 0#16 ∧ State.reset.irq = false ∧
  State.reset.lineOut = [] ∧
  State.reset.peek Layout.default .sr = 0xC0#32 ∧ State.reset.peek Layout.default .dr = 0#32 ∧
  State.reset.peek Layout.default .brr = 0#32 ∧ State.reset.peek Layout.default .cr1 = 0#32 ∧
  State.reset.peek Layout.default .cr2 = 0#32 ∧ State.reset.peek Layout.default .rsv14 = 0#32 ∧
  State.reset.peek Layout.default .rsv18 = 0#32 ∧ State.reset.peek Layout.default .rsv1c = 0#32

/-- Rests on R270, and on three choices of the model: what is not the block's (clock enable, schedule, index
of free values) stays (log 18), an engine step scheduled in reset, where none can occur, leaves the state as
it is (log 3), and the release is taken at once (log 17). Reset may fall in any state and leaves the reset
values, recording nothing; while it is asserted no engine step occurs; its release lets the block go on from
there. -/
def Obligations.ResetFromAnyState : Prop :=
  ∀ (p : Params) (s : State), ∃ t, runEvent p .rstAssert s = .next t ∧
    t = { State.reset with rstN := false, clkEn := s.clkEn, sched := s.sched, freeCtr := s.freeCtr } ∧
    (∀ e, e.isEngine = true → runEvent p e t = .next t) ∧
    runEvent p .rstRelease t = .next { t with rstN := true }

/-- Rests on R276, on log 8 (in reset the other reason is given), on log 19 (a cycle while gated is none)
and on log 3 (a scheduled engine step that cannot occur leaves the state as it is): while the clock is gated
no engine step occurs and nothing of the block changes, `txd` and `irq` included, the pin is not sampled and
every operation is refused; ungated, it goes on from the state it held. -/
def Obligations.ClockGateFreezesBlock : Prop :=
  ∀ (p : Params) (s : State), s.clkEn = true → ∃ t, runEvent p .clkGate s = .next t ∧
    t = { s with clkEn := false } ∧ t.irq = s.irq ∧
    (∀ e, e.isEngine = true → runEvent p e t = .next t) ∧
    (∀ x, runEvent p (.cycle none x) t = .next t) ∧
    (t.rstN = true → ∀ i, exec i t = .refused .clockGated) ∧
    runEvent p .clkUngate t = .next s

/-! ## Interrupt request and flags -/

/-- R243: `irq` is the or of the two enabled sources and of nothing else; with the default layout (D6) it
is `(SR & CR1 & 0xA0) != 0` of the two words as software reads them. -/
def Obligations.IrqIsMaskOfStatusAndEnables : Prop :=
  ∀ s : State, (s.irq = true ↔ (s.rxne = true ∧ s.rxneie = true) ∨ (s.txe = true ∧ s.txeie = true)) ∧
    s.irq = (s.srWord Layout.default &&& s.cr1Word Layout.default &&& 0xA0#32 != 0#32)

/-- R36: the complete list of writers of the flags, for every atomic step of every agent, whatever the
positions of the flags (by default a 1 at bit 3, 1, 0 clears `ORE`, `FE`, `PE`). A reset is the one step set
apart: it gives every flag its reset value (R45). -/
def Obligations.FlagsHaveNoOtherWriters : Prop :=
  ∀ (p : Params) (e : Event) (s t : State), e.isAtomic = true → e ≠ .rstAssert →
    runEvent p e s = .next t →
    (s.txe = false → t.txe = true → e = .txLoad) ∧
    (s.txe = true → t.txe = false → ∃ w, e.operation p = some (.wrDr w)) ∧
    (s.rxne = false → t.rxne = true → e = .rxEnd ∨ ∃ d q st, e = .rxChar d q st) ∧
    (s.rxne = true → t.rxne = false → e.operation p = some .rdDr) ∧
    (s.ore = false → t.ore = true → s.rxne = true ∧ (e = .rxEnd ∨ ∃ d q st, e = .rxChar d q st)) ∧
    (s.ore = true → t.ore = false →
      ∃ w, e.operation p = some (.wrSr w) ∧ w.getLsbD p.layout.ore = true) ∧
    (s.fe = false → t.fe = true → s.rxne = false ∧ (e = .rxEnd ∨ ∃ d q st, e = .rxChar d q st)) ∧
    (s.fe = true → t.fe = false →
      ∃ w, e.operation p = some (.wrSr w) ∧ w.getLsbD p.layout.fe = true) ∧
    (s.pe = false → t.pe = true → s.rxne = false ∧ (e = .rxEnd ∨ ∃ d q st, e = .rxChar d q st)) ∧
    (s.pe = true → t.pe = false →
      ∃ w, e.operation p = some (.wrSr w) ∧ w.getLsbD p.layout.pe = true)

/-- R23: `BRR`, `CR1`, `CR2` change only by the host's write of that register; no hardware event, a clock
cycle included, changes them. Reset is set apart (R45). -/
def Obligations.ControlRegistersChangeOnlyByHostWrite : Prop :=
  ∀ (p : Params) (e : Event) (s t : State), e ≠ .rstAssert → runEvent p e s = .next t →
    ((∀ w, e.operation p ≠ some (.wrBrr w)) → t.div = s.div) ∧
    ((∀ w, e.operation p ≠ some (.wrCr1 w)) → t.ue = s.ue ∧ t.wl = s.wl ∧ t.pce = s.pce ∧
      t.ps = s.ps ∧ t.txeie = s.txeie ∧ t.rxneie = s.rxneie) ∧
    ((∀ w, e.operation p ≠ some (.wrCr2 w)) → t.stop2 = s.stop2)

/-- R204, R75 (c), (d): no hardware step clears `RXNE` or overwrites a waiting `RDR`, and none clears
`TXE`: engine steps and clock cycles without a host access. -/
def Obligations.HardwareKeepsWhatHostWasTold : Prop :=
  ∀ (p : Params) (e : Event) (s t : State),
    (e.isEngine = true ∨ ∃ x, e = .cycle none x) → runEvent p e s = .next t →
    (s.rxne = true → t.rxne = true ∧ t.rdr = s.rdr) ∧ (s.txe = true → t.txe = true) ∧
    (s.rxne = true → s.ore = true → t.ore = true)

/-! ## Transmitter -/

/-- Rests on R176, R105, R148, R161, and on two choices of the model: scheduled while it cannot occur,
`TX_LOAD` leaves the state as it is (log 3), and the atomic step loads the counter of R147 (log 16). It
occurs exactly under its pre-condition; then it takes the frame of `TDR` under the live framing fields, sets
`TXE`, keeps `TDR`, leaves `TC` at 0, raises `irq` if `TXEIE` = 1, and is refused under `WL` = 0b11. -/
def Obligations.TxLoadTakesCharacter : Prop :=
  ∀ s : State, s.running = true →
    (¬(s.ue = true ∧ s.div ≠ 0#16 ∧ s.txs = .tIdle ∧ s.txe = false) → txLoad s = .next s) ∧
    (s.ue = true → s.div ≠ 0#16 → s.txs = .tIdle → s.txe = false →
      (s.wl = 0b11#2 → txLoad s = .refused .reservedWL) ∧
      (s.wl ≠ 0b11#2 → ∃ f t, frame s.tdr s.wl s.pce s.ps s.stop2 = some f ∧
        txLoad s = .next t ∧ t = { s with tsr := f, txs := .tShift, txe := true, txCnt := s.div } ∧
        t.tc = false ∧ (s.txeie = true → t.irq = true)))

/-- Rests on R177, R179, and on two choices of the model: scheduled while it cannot occur, a step leaves the
state as it is (log 3), and the atomic step loads the counter of R147 (log 16). `TX_BIT` drives the head of
`TSR` and records it; `TX_END` idles the sequencer and changes nothing else, so `TC` becomes 1 exactly if no
character waits. -/
def Obligations.TxBitAndTxEnd : Prop :=
  ∀ s : State, s.running = true →
    (∀ b rest, s.txs = .tShift → s.tsr = b :: rest → txBit s =
      .next { s with txd := b, lineOut := s.lineOut ++ [b], tsr := rest, txCnt := s.div }) ∧
    (s.txs = .tShift → s.tsr = [] → ∃ t, txEnd s = .next t ∧ t = { s with txs := .tIdle } ∧
      t.tc = s.txe) ∧
    (s.txs = .tIdle ∨ s.tsr = [] → txBit s = .next s) ∧
    (s.txs = .tIdle ∨ s.tsr ≠ [] → txEnd s = .next s)

/-- R95, R96, R97, R98: the layout of a frame, level by level: start bit 0, the data bits least
significant first, the parity bit that makes the count of 1s even or odd, one or two stop bits at 1;
9 to 13 levels; no frame under the reserved word length. -/
def Obligations.FrameLayout : Prop :=
  ∀ (v : BitVec 9) (wl : BitVec 2) (pce ps stop2 : Bool),
    (wl = 0b11#2 → frame v wl pce ps stop2 = none) ∧
    (wl ≠ 0b11#2 → ∃ n f, n = (if wl = 0b00#2 then 8 else if wl = 0b01#2 then 7 else 9) ∧
      frame v wl pce ps stop2 = some f ∧
      f.length = 1 + n + (if pce then 1 else 0) + 1 + (if stop2 then 1 else 0) ∧
      9 ≤ f.length ∧ f.length ≤ 13 ∧
      f[0]? = some false ∧ (∀ k, k < n → f[1 + k]? = some (v.getLsbD k)) ∧
      (pce = true → (((f.drop 1).take (n + 1)).count true) % 2 = if ps then 1 else 0) ∧
      ∀ k, 1 + n + (if pce then 1 else 0) ≤ k → k < f.length → f[k]? = some true)

/-- R180 (b), R183: from `TX_LOAD`, as many `TX_BIT` steps as the frame is long and one `TX_END` put
exactly the frame on the line and leave the sequencer idle with `txd` = 1, when nothing comes between. -/
def Obligations.WholeFrameOnTheLine : Prop :=
  ∀ (p : Params) (s : State) (f : List Level), s.txLoadEnabled = true →
    frame s.tdr s.wl s.pce s.ps s.stop2 = some f → ∃ t,
    runEvents p ([.txLoad] ++ List.replicate f.length .txBit ++ [.txEnd]) s = .next t ∧
    t.lineOut = s.lineOut ++ f ∧ t.txs = .tIdle ∧ t.tsr = [] ∧ t.txd = true ∧ t.txe = true ∧
      t.tdr = s.tdr

/-- R183: `TX_CHAR` is the `TX_BIT` steps that are left and `TX_END`, up to timing-level state, in every
state that meets the invariant. -/
def Obligations.TxCharMergesBitSteps : Prop :=
  ∀ (p : Params) (s : State), s.Inv →
    untimedOutcome (runEvent p .txChar s) =
      untimedOutcome (runEvents p (List.replicate s.tsr.length .txBit ++ [.txEnd]) s)

/-- R182, R180 (d): in a run of any steps of any agents, timed or not, in which `WR_DR` is performed only
with `TXE` = 1, the framing is not changed and the block is not disabled or reset: what has been driven
and is still owed to the line grows by exactly the frames of the characters written, in the order of
the writes, each once. -/
def Obligations.CharactersGoOutInOrder : Prop :=
  ∀ (p : Params) (es : List Event) (s t : State), s.Inv → orderly p es s = true →
    runEvents p es s = .next t →
    t.owed = s.owed ++ (written p es).flatMap s.frameOf

/-! ## Receiver -/

/-- Rests on R200, R105, R148, R161, and on three choices of the model: scheduled while it cannot occur,
`RX_START` leaves the state as it is (log 3), it ends a pending start-bit check (log 11), and the atomic
step loads the counter of R147 (log 16). It occurs exactly under its pre-condition, latches the framing
fields and is refused under `WL` = 0b11; it starts whether or not `RXNE` = 1. -/
def Obligations.RxStartLatchesFraming : Prop :=
  ∀ s : State, s.running = true →
    (¬(s.ue = true ∧ s.div ≠ 0#16 ∧ s.rxs = .rIdle) → rxStart s = .next s) ∧
    (s.ue = true → s.div ≠ 0#16 → s.rxs = .rIdle →
      (s.wl = 0b11#2 → rxStart s = .refused .reservedWL) ∧
      (s.wl ≠ 0b11#2 → rxStart s = .next { s with
        rxcfg := ⟨s.wl, s.pce, s.ps⟩, rsr := [], rxs := .rRecv, rxCnt := s.div,
        startPending := false }))

/-- Rests on R201, R202, and on two choices of the model: scheduled with all samples taken, `RX_BIT` leaves
the state as it is (log 3), and the atomic step loads the counter of R147 (log 16). `RX_BIT(b)` appends `b`
as long as fewer than `nbits + PCE + 1` levels were taken under the latched fields, whatever `STOP2` is. -/
def Obligations.RxBitTakesOneSample : Prop :=
  ∀ (s : State) (b : Level) (n : Nat), s.running = true → s.rxs = .rRecv →
    nbits s.rxcfg.wl = some n →
    (s.rsr.length < n + (if s.rxcfg.pce then 1 else 0) + 1 →
      rxBit b s = .next { s with rsr := s.rsr ++ [b], rxCnt := s.div }) ∧
    (n + (if s.rxcfg.pce then 1 else 0) + 1 ≤ s.rsr.length → rxBit b s = .next s)

/-- Rests on R203, R101, R97, and on one choice of the model: scheduled while its pre-condition does not
hold, with the receiver idle or with fewer levels (or, which no run reaches, more) than `nbits + PCE + 1`
under the latched fields, `RX_END` leaves the state as it is (log 3). With all levels taken: stored when
`RXNE` = 0, with bit `k` of `RDR` the `k`-th level, bits above the word zero, `PE` raised exactly if parity is
on and the number of 1s among data and parity levels is wrong, `FE` exactly if the stop level is 0, and `irq`
raised if `RXNEIE` = 1; dropped with `ORE` when `RXNE` = 1. -/
def Obligations.RxEndStoresOrDrops : Prop :=
  (∀ s : State, s.running = true → s.rxs = .rIdle → rxEnd s = .next s) ∧
  (∀ (s : State) (n : Nat), s.running = true → s.rxs = .rRecv → nbits s.rxcfg.wl = some n →
    s.rsr.length ≠ n + (if s.rxcfg.pce then 1 else 0) + 1 → rxEnd s = .next s) ∧
  ∀ (s : State) (n : Nat), s.running = true → s.rxs = .rRecv → nbits s.rxcfg.wl = some n →
    s.rsr.length = n + (if s.rxcfg.pce then 1 else 0) + 1 →
    (s.rxne = true → rxEnd s = .next { s with ore := true, rsr := [], rxs := .rIdle }) ∧
    (s.rxne = false → ∃ d pe fe t, rxEnd s = .next t ∧ t = { s with
        rdr := d, rxne := true, pe := s.pe || pe, fe := s.fe || fe, rsr := [], rxs := .rIdle } ∧
      (s.rxneie = true → t.irq = true) ∧
      (∀ k, k < n → s.rsr[k]? = some (d.getLsbD k)) ∧ (∀ k, n ≤ k → d.getLsbD k = false) ∧
      (pe = true ↔ s.rxcfg.pce = true ∧
        ((s.rsr.take (n + 1)).count true) % 2 ≠ if s.rxcfg.ps then 1 else 0) ∧
      (fe = true ↔ s.rsr.getLast? = some false))

/-- Rests on R207, R105, R161, and on one choice of the model: scheduled while its pre-condition does not
hold (`UE` = 0, `DIV` = 0 or a frame being received), `RX_CHAR` leaves the state as it is (log 3). Under its
pre-condition it is refused under `WL` = 0b11 (U7), and otherwise `RX_CHAR(d, p, stop)` is `RX_START`, the
samples and `RX_END` in one step, up to timing-level state and to `RXCFG`, which only the bit-level steps write
and which is not read in `R_IDLE` (R45). -/
def Obligations.RxCharMergesBitSteps : Prop :=
  (∀ (p : Params) (s : State) (d : BitVec 9) (q stop : Level) (n : Nat),
    s.rxStartEnabled = true → nbits s.wl = some n → s.Inv → ∃ t u,
    runEvents p ([.rxStart] ++ ((List.range n).map fun k => Event.rxBit (d.getLsbD k)) ++
      (if s.pce then [.rxBit q] else []) ++ [.rxBit stop, .rxEnd]) s = .next t ∧
    runEvent p (.rxChar d q stop) s = .next u ∧
    { t with rxcfg := s.rxcfg }.untimed = u.untimed) ∧
  ∀ (p : Params) (s : State) (d : BitVec 9) (q stop : Level), s.running = true →
    (s.ue = true → s.div ≠ 0#16 → s.rxs = .rIdle → s.wl = 0b11#2 →
      runEvent p (.rxChar d q stop) s = .refused .reservedWL) ∧
    (s.ue = false ∨ s.div = 0#16 ∨ s.rxs = .rRecv → runEvent p (.rxChar d q stop) s = .next s)

/-- R207, R101: a receiver configured like the sender reads back every character the sender's frame
carries, at every word length, parity and stop setting, with no error flag raised. -/
def Obligations.ReceiverReadsBackFrame : Prop :=
  ∀ (p : Params) (s : State) (v : BitVec 9) (stop2 : Bool) (n : Nat) (f : List Level),
    s.rxStartEnabled = true → s.rxne = false → nbits s.wl = some n →
    frame v s.wl s.pce s.ps stop2 = some f →
    ∃ t, runEvents p ([.rxStart] ++
        (((f.drop 1).take (n + (if s.pce then 1 else 0) + 1)).map Event.rxBit) ++ [.rxEnd]) s =
        .next t ∧
      t.rxne = true ∧ t.rxs = .rIdle ∧ t.ore = s.ore ∧ t.pe = s.pe ∧ t.fe = s.fe ∧
      (∀ k, k < n → t.rdr.getLsbD k = v.getLsbD k) ∧ ∀ k, n ≤ k → t.rdr.getLsbD k = false

/-- R97, R101: with parity on, one data or parity level received wrong is always detected. -/
def Obligations.ParityDetectsOneWrongLevel : Prop :=
  ∀ (v : BitVec 9) (n k : Nat) (ps stop : Bool), n ≤ 9 → k ≤ n →
    (rxDecode n true ps ((dataLevels v n ++ [par v n ps] ++ [stop]).modify k not)).pBad = true

/-- R208 (b), (c): over any run of atomic steps without a reset, the characters stored, after the one
that waited at the start, are the ones delivered to the host, in that order, and then the one that
still waits: none is lost, doubled or reordered between `RX_END` and `RD_DR`. Each is given as the word `DR`
reads, the character in the place of `DATA`. -/
def Obligations.CharactersDeliveredInOrder : Prop :=
  ∀ (p : Params) (es : List Event) (s t : State),
    (∀ e ∈ es, e.isAtomic = true ∧ e ≠ .rstAssert) → runEvents p es s = .next t →
    s.waiting.map (placeField p.layout.data) ++ stored p es s =
      delivered p es s ++ t.waiting.map (placeField p.layout.data)

/-! ## Whole-machine statements -/

/-- Every step of every agent keeps the invariant, from every state that meets it (R43, R95, R105, R161,
R180 (a), R208 (a), R270). -/
def Obligations.EveryStepKeepsInvariant : Prop :=
  ∀ s t : State, s.Inv → step s = .next t → t.Inv

/-- The state after reset meets the invariant. -/
def Obligations.ResetMeetsInvariant : Prop := State.reset.Inv

/-- A driver that respects the hazards of R280, R285, R286 is never refused for the reserved word length,
whatever the other agents do (R105). -/
def Obligations.SafeDriverNeverMeetsReservedWordLength : Prop :=
  ∀ (p : Params) (e : Event) (s : State), s.legalWordLength → safeStep p s e = true →
    runEvent p e s ≠ .refused .reservedWL ∧
    ∀ t, runEvent p e s = .next t → t.legalWordLength

/-- R147, R289: no atomic step reads timing-level state: what a step does, timing level aside, is the
same from any two states that agree, timing level aside. -/
def Obligations.UntimedStepsDoNotReadTimingState : Prop :=
  ∀ (p : Params) (e : Event) (s u : State), e.isAtomic = true → s.untimed = u.untimed →
    untimedOutcome (runEvent p e s) = untimedOutcome (runEvent p e u)

/-- R74, R288: every clock cycle of the timing level is a run of the untimed model: the host access of
the cycle, if any, and then engine steps, each enabled or waiting; a refused cycle is a refused run.
Rests on the model's reading of the timing section (logs 10 to 16). -/
def Obligations.ClockCycleIsRunOfAtomicSteps : Prop :=
  ∀ (p : Params) (access : Option HostAccess) (x : Level) (s : State), ∃ es : List Event,
    (∀ e ∈ es, e.isEngine = true) ∧
    untimedOutcome (runEvent p (.cycle access x) s) =
      untimedOutcome (runEvents p (access.toList.map .host ++ es) s)

/-- R196: the pin goes through two flip-flops, and `RXD_Q` is the value `RXD_S` had one cycle earlier,
whatever `UE` is. The name of the first flip-flop is the model's (log 12). -/
def Obligations.SynchroniserFollowsThePin : Prop :=
  ∀ (p : Params) (access : Option HostAccess) (x : Level) (s t : State), s.running = true →
    runEvent p (.cycle access x) s = .next t →
    t.rxdMeta = x ∧ t.rxdS = s.rxdMeta ∧ t.rxdQ = s.rxdS

/-- R288, first row: a `RD_DR` in the cycle in which a frame ends reads the old character, and then the new
character, the one decoded under `RXCFG` from the levels sampled, is stored with its errors (R101, R203),
without overrun. The levels are those in `RSR`, and the level of this cycle after them where it completes the
frame (R291). -/
def Obligations.ReadInCycleOfFrameEndLosesNothing : Prop :=
  ∀ (p : Params) (s t : State) (a : HostAccess) (x : Level), s.running = true →
    operation p a = some .rdDr → s.rxs = .rRecv → s.rxne = true →
    runEvent p (.cycle (some a) x) s = .next t → t.rxs = .rIdle →
    t.rdata = s.drWord p.layout ∧ t.rxne = true ∧ t.ore = s.ore ∧
    ∃ n levels, nbits s.rxcfg.wl = some n ∧ levels.length = n + (if s.rxcfg.pce then 1 else 0) + 1 ∧
      (levels = s.rsr ∨ levels = s.rsr ++ [s.rxdS]) ∧
      t.rdr = (rxDecode n s.rxcfg.pce s.rxcfg.ps levels).d ∧
      t.pe = (s.pe || (rxDecode n s.rxcfg.pce s.rxcfg.ps levels).pBad) ∧
      t.fe = (s.fe || (rxDecode n s.rxcfg.pce s.rxcfg.ps levels).fBad)

/-! ## The driver's sequences (firmware, R107, R222). Scripts and systems are the model's form (log 24) -/

/-- R221, R149: `CONFIGURE` from a block in reset leaves `BRR = d`, the framing fields as given, `UE` and
`RXNEIE` at 1 and `TXEIE` at 0, the line enabled with its priority, and the firmware's state as it was, at
every legal layout; at the default layout the words are `CR1 = 0x2020 | WL | parity bits`, `CR2` = 0 or
0x2000, `SR` = 0xC0. With an unsupported rate it returns the error and touches nothing. That a rate of 0 is
unsupported is the model's choice (log 27); that the masks of the sequences move with the fields is the
model's reading of D6 (log 36, DEDUCED). -/
def Obligations.ConfigureFromReset : Prop :=
  (∀ (p : Params) (fClk : Int) (c : LineConfig) (prio : Nat) (y : System),
    fClk ≤ 0 ∨ fClk.toNat / c.bitRate = 0 ∨ 65535 < fClk.toNat / c.bitRate →
      (configure p fClk c prio).run p [] y = .next (.error .unsupportedRate, y)) ∧
  ∀ (p : Params) (fClk : Int) (c : LineConfig) (prio : Nat) (y : System), p.layout.wf = true →
    0 < fClk → 0 < fClk.toNat / c.bitRate → fClk.toNat / c.bitRate ≤ 65535 →
      y.block = State.reset → ∃ t,
      (configure p fClk c prio).run p [] y = .next (.ok (), { y with
        block := t, line := { y.line with enabled := true, priority := prio } }) ∧
      (∃ v, t = { State.reset with
        div := BitVec.ofNat 16 (fClk.toNat / c.bitRate)
        wl := if c.wordLength = .w8 then 0b00#2 else if c.wordLength = .w7 then 0b01#2 else 0b10#2
        pce := decide (c.parity ≠ .none), ps := decide (c.parity = .odd)
        stop2 := decide (c.stopBits = .two)
        ue := true, rxneie := true, rdata := v }) ∧
      (p.layout = Layout.default →
        t.peek Layout.default .brr = BitVec.ofNat 32 (fClk.toNat / c.bitRate) ∧
        t.peek Layout.default .cr1 = (0x2020#32 |||
          (if c.wordLength = .w8 then 0#32 else if c.wordLength = .w7 then 0x0800#32 else 0x1000#32) |||
          (if c.parity = .none then 0#32 else if c.parity = .even then 0x0400#32 else 0x0600#32)) ∧
        t.peek Layout.default .cr2 = (if c.stopBits = .two then 0x2000#32 else 0#32) ∧
        t.peek Layout.default .sr = 0xC0#32)

/-- R222, R163: `SETBITS` and `CLRBITS` of `CR1` with the mask of `TXEIE` (by default 0x80) arm and disarm the
transmit source and leave every other field as it is; `irq` follows in the same step, and the controller's
line sees it (R258; that a pending bit once set stays is log 29). That the mask moves with the field at
another layout is the model's reading of D6 (log 36, DEDUCED). -/
def Obligations.ArmAndDisarmTransmitSource : Prop :=
  placeBit Layout.default.txeie true = 0x80#32 ∧
  ∀ (p : Params) (y : System), p.layout.wf = true → y.block.running = true →
    (∃ v, (setBits .cr1 (placeBit p.layout.txeie true)).run p [] y =
      .next ((), y.withBlock { y.block with txeie := true, rdata := v })) ∧
    (∃ v, (clrBits .cr1 (placeBit p.layout.txeie true)).run p [] y =
      .next ((), y.observe.withBlock { y.block with txeie := false, rdata := v })) ∧
    (∀ v : Word, ({ y.block with txeie := true, rdata := v } : State).irq =
      (y.block.rxne && y.block.rxneie || y.block.txe)) ∧
    ∀ s : State, (y.withBlock s).line =
      { y.line with pending := y.line.pending || (s.irq && !y.serving) }

/-- R281: `SETBITS SR` clears every error flag that was set, whatever the mask; `CLRBITS SR` those outside
its mask; a plain write clears exactly the flag whose bit alone is set (by default 0x8, 0x2, 0x1). -/
def Obligations.ReadModifyWriteOfSrLosesErrorFlags : Prop :=
  (placeBit Layout.default.ore true = 0x8#32 ∧ placeBit Layout.default.fe true = 0x2#32 ∧
    placeBit Layout.default.pe true = 0x1#32) ∧
  ∀ (p : Params) (y : System) (m : Word), p.layout.wf = true → y.block.running = true →
    (∃ v, (setBits .sr m).run p [] y =
      .next ((), y.withBlock { y.block with ore := false, fe := false, pe := false, rdata := v })) ∧
    (∃ v, (clrBits .sr m).run p [] y = .next ((), y.withBlock { y.block with
      ore := y.block.ore && m.getLsbD p.layout.ore, fe := y.block.fe && m.getLsbD p.layout.fe,
      pe := y.block.pe && m.getLsbD p.layout.pe, rdata := v })) ∧
    (wrReg .sr (placeBit p.layout.ore true)).run p [] y =
      .next ((), y.withBlock { y.block with ore := false }) ∧
    (wrReg .sr (placeBit p.layout.fe true)).run p [] y =
      .next ((), y.withBlock { y.block with fe := false }) ∧
    (wrReg .sr (placeBit p.layout.pe true)).run p [] y =
      .next ((), y.withBlock { y.block with pe := false })

/-- R282: a read-modify-write of `CR1` is two operations: a write of `CR1` by anyone else that falls between
them is lost, whatever it wrote. By default the implemented bits are 0x3EA0. -/
def Obligations.ReadModifyWriteOfCr1LosesInterveningWrite : Prop :=
  maskOf Layout.default.cr1Bits = 0x3EA0#32 ∧
  ∀ (p : Params) (y : System) (m w : Word), y.block.running = true → p.wf = true → ∃ z,
    (setBits .cr1 m).run p [[], [.event (.host (accessOf p (.wrCr1 w)))]] y = .next ((), z) ∧
      z.block.peek p.layout .cr1 = (y.block.peek p.layout .cr1 ||| m) &&& maskOf p.layout.cr1Bits ∧
      z.fw = y.fw

/-- R225: `ON_RX_READY` reads `DR` on every path, so `RXNE` falls even when the byte is dropped; with room
the byte is appended, and the buffer never exceeds its capacity. At a layout other than the default the byte,
`[7:0]` in R225, is cut from the place of `DATA`, which is the model's reading of D6 (log 36, DEDUCED). -/
def Obligations.OnRxReadyAlwaysReads : Prop :=
  ∀ (p : Params) (y : System), p.layout.wf = true → y.block.running = true → y.fw.wf p = true → ∃ fw',
    (onRxReady p).runHandler p [] y = .next ((),
      { y.withBlock { y.block with rdata := y.block.drWord p.layout, rxne := false } with fw := fw' }) ∧
    fw'.wf p = true ∧ fw'.backlog = y.fw.backlog ∧
    (y.fw.rxCount < p.cRx → fw'.held = y.fw.held ++ [y.block.rdr.setWidth 8]) ∧
    (y.fw.rxCount = p.cRx → fw' = y.fw)

/-! ## The pin `irq` in time, and the two contexts of the firmware -/

/-- R292: in time the pin `irq` changes in the cycle after the step that changes the request: after a cycle
it shows the request as it stood before that cycle, while the clock is gated it holds (R276), and in reset it
is 0 (R270). Which state shows a cycle's signals is the model's convention (log 33, DEDUCED). -/
def Obligations.IrqPinFollowsOneCycleLater : Prop :=
  (∀ (p : Params) (access : Option HostAccess) (x : Level) (s t : State), s.running = true →
    runEvent p (.cycle access x) s = .next t → t.irqPin = s.irq) ∧
  (∀ (p : Params) (access : Option HostAccess) (x : Level) (s t : State), s.running = false →
    runEvent p (.cycle access x) s = .next t → t.irqPin = s.irqPin) ∧
  ∀ (p : Params) (s t : State), runEvent p .rstAssert s = .next t → t.irqPin = false

/-- R220, R229, R231, R283: each context stores only to the fields that are its own, whatever it reads on its
way (`CONFIGURE` to none); and `SEND` arms the transmit source after an append, never before, once for each
append. That at a layout other than the default the driver's masks, and with them the arming write, move with
the fields is the model's reading of D6 (log 36, DEDUCED). -/
def Obligations.FirmwareContextsKeepTheirSplit : Prop :=
  ∀ (p : Params) (text : List Byte) (n : Nat) (fClk : Int) (c : LineConfig) (prio : Nat),
    p.layout.wf = true →
    (onInterrupt p).writesOnly Store.byIsr ∧
    (send p text).writesOnly Store.byApplication ∧
    (receive n).writesOnly Store.byApplication ∧
    (configure p fClk c prio).writesOnly (fun _ => false) ∧
    (send p text).armsAfterAppend p.layout false

/-- R227, R228, R229, with nothing between the steps of the sequence: while the block's data register is full
or bytes wait, `SEND` appends to the backlog in the order of the text, as far as there is room, drops the
rest and arms the source if it appended; into a free data register with an empty backlog the first byte
goes directly. `RECEIVE` returns the oldest bytes and empties the buffer; `RECEIVE(0)` changes nothing. That
at a layout other than the default the masks of `SEND` and the place of the byte it writes move with the fields
is the model's reading of D6 (log 36, DEDUCED). -/
def Obligations.SendEnqueuesInOrderAndReceiveDrainsOldestFirst : Prop :=
  ∀ (p : Params) (y : System), p.layout.wf = true → y.block.running = true → y.fw.wf p = true →
    (∀ text : List Byte, (y.block.txe = false ∨ y.fw.sentCount ≠ y.fw.pendingCount) →
      ∃ z v, (send p text).run p [] y = .next ((), z) ∧ z.fw.wf p = true ∧
      z.fw.backlog = y.fw.backlog ++ text.take (p.cTx - y.fw.pendingCount) ∧ z.fw.held = y.fw.held ∧
      z.block = { y.block with
        txeie := y.block.txeie || !(text.take (p.cTx - y.fw.pendingCount)).isEmpty, rdata := v }) ∧
    (∀ (b : Byte) (bs : List Byte), y.block.txe = true → y.fw.sentCount = y.fw.pendingCount →
      ∃ z v, (send p (b :: bs)).run p [] y = .next ((), z) ∧ z.fw.wf p = true ∧
      z.fw.backlog = bs.take (p.cTx - y.fw.pendingCount) ∧ z.fw.held = y.fw.held ∧
      z.block = { y.block with
        tdr := b.setWidth 9, txe := false,
        txeie := y.block.txeie || !(bs.take (p.cTx - y.fw.pendingCount)).isEmpty, rdata := v }) ∧
    (∀ n, 0 < n → (receive n).run p [] y =
      .next (y.fw.held.take n, { y with fw := { y.fw with rxCount := 0 } })) ∧
    (receive 0).run p [] y = .next ([], y)

/-- R224, R225, R226, R229, R284, with nothing between the steps of the handler: both conditions are served
in one invocation: a waiting character is read and, if there is room, appended; the oldest byte of the
backlog goes to `DR`, and with the last one the source is disarmed. An idle invocation only reads `SR`. That
at a layout other than the default the handler's tests of `RXNE` and `TXE`, its mask of `TXEIE` and the place
of the byte move with the fields is the model's reading of D6 (log 36, DEDUCED). -/
def Obligations.HandlerServesBothConditions : Prop :=
  ∀ (p : Params) (y : System), p.layout.wf = true → y.block.running = true → y.fw.wf p = true →
    ∃ z v, (onInterrupt p).runHandler p [] y = .next ((), z) ∧ z.fw.wf p = true ∧
    z.serving = y.serving ∧
    z.fw.held = (if y.block.rxne = true ∧ y.fw.rxCount < p.cRx
      then y.fw.held ++ [y.block.rdr.setWidth 8] else y.fw.held) ∧
    (y.block.txe = false ∨ y.fw.backlog = [] → z.fw.backlog = y.fw.backlog ∧
      z.block = { y.block with rxne := false, rdata := v }) ∧
    ∀ b rest, y.block.txe = true → y.fw.backlog = b :: rest → z.fw.backlog = rest ∧
      z.block = { y.block with
        rxne := false, tdr := b.setWidth 9, txe := false,
        txeie := y.block.txeie && !rest.isEmpty, rdata := v }

/-- R282, R283, R247: mainline has appended the last byte and read `CR1` in its `SETBITS`; the handler
preempts it there, hands the byte over, resets both counts and disarms; mainline's stale write leaves the
source armed with an empty backlog. From there, with `TXE` = 1 again, the handler finds nothing, changes
nothing, and is requested again as soon as it returns. Preemption between two steps is the model's form of
R231 (log 24); that at a layout other than the default the masks of mainline and of the handler move with the
fields is its reading of D6 (log 36, DEDUCED). -/
def Obligations.StaleArmLeavesArmedEmptyBacklog : Prop :=
  (∀ (p : Params) (y : System) (b : Byte), p.layout.wf = true → y.block.running = true → y.fw.wf p = true →
    y.block.irq = true → y.block.txe = true → y.fw.backlog = [b] → y.line.enabled = true →
    y.serving = false → ∃ z,
    (setBits .cr1 (placeBit p.layout.txeie true)).run p [[], [.interrupt []]] y = .next ((), z) ∧
      z.block.tdr = b.setWidth 9 ∧ z.block.txe = false ∧ z.block.txeie = true ∧
      z.fw.sentCount = 0 ∧ z.fw.pendingCount = 0 ∧ z.fw.backlog = [] ∧ z.serving = false) ∧
  ∀ (p : Params) (y : System), p.layout.wf = true → y.block.running = true → y.block.txe = true →
    y.block.txeie = true → y.block.rxne = false → y.fw.sentCount = y.fw.pendingCount → y.line.enabled = true →
    y.serving = false → ∃ z v,
    y.interrupt p (onInterrupt p) [] = .next z ∧ z.fw = y.fw ∧
      z.block = { y.block with rdata := v } ∧ z.requested p = some p.uartIrqId
end

