-- ==== Sys2Proof/Laws/State.lean ====
section
/-! SUPPORT. One lemma per field per named update of State, each true by rfl. -/

namespace Sys2Proof.Machine

variable (s : State)


section setRdata

@[simp] theorem State.setRdata_txe (v : Word) : (s.setRdata v).txe = s.txe := rfl
@[simp] theorem State.setRdata_rxne (v : Word) : (s.setRdata v).rxne = s.rxne := rfl
@[simp] theorem State.setRdata_ore (v : Word) : (s.setRdata v).ore = s.ore := rfl
@[simp] theorem State.setRdata_fe (v : Word) : (s.setRdata v).fe = s.fe := rfl
@[simp] theorem State.setRdata_pe (v : Word) : (s.setRdata v).pe = s.pe := rfl
@[simp] theorem State.setRdata_tdr (v : Word) : (s.setRdata v).tdr = s.tdr := rfl
@[simp] theorem State.setRdata_rdr (v : Word) : (s.setRdata v).rdr = s.rdr := rfl
@[simp] theorem State.setRdata_div (v : Word) : (s.setRdata v).div = s.div := rfl
@[simp] theorem State.setRdata_ue (v : Word) : (s.setRdata v).ue = s.ue := rfl
@[simp] theorem State.setRdata_wl (v : Word) : (s.setRdata v).wl = s.wl := rfl
@[simp] theorem State.setRdata_pce (v : Word) : (s.setRdata v).pce = s.pce := rfl
@[simp] theorem State.setRdata_ps (v : Word) : (s.setRdata v).ps = s.ps := rfl
@[simp] theorem State.setRdata_txeie (v : Word) : (s.setRdata v).txeie = s.txeie := rfl
@[simp] theorem State.setRdata_rxneie (v : Word) : (s.setRdata v).rxneie = s.rxneie := rfl
@[simp] theorem State.setRdata_stop2 (v : Word) : (s.setRdata v).stop2 = s.stop2 := rfl
@[simp] theorem State.setRdata_txs (v : Word) : (s.setRdata v).txs = s.txs := rfl
@[simp] theorem State.setRdata_tsr (v : Word) : (s.setRdata v).tsr = s.tsr := rfl
@[simp] theorem State.setRdata_rxs (v : Word) : (s.setRdata v).rxs = s.rxs := rfl
@[simp] theorem State.setRdata_rsr (v : Word) : (s.setRdata v).rsr = s.rsr := rfl
@[simp] theorem State.setRdata_rxcfg (v : Word) : (s.setRdata v).rxcfg = s.rxcfg := rfl
@[simp] theorem State.setRdata_txd (v : Word) : (s.setRdata v).txd = s.txd := rfl
@[simp] theorem State.setRdata_lineOut (v : Word) : (s.setRdata v).lineOut = s.lineOut := rfl
@[simp] theorem State.setRdata_txCnt (v : Word) : (s.setRdata v).txCnt = s.txCnt := rfl
@[simp] theorem State.setRdata_rxCnt (v : Word) : (s.setRdata v).rxCnt = s.rxCnt := rfl
@[simp] theorem State.setRdata_startPending (v : Word) : (s.setRdata v).startPending = s.startPending := rfl
@[simp] theorem State.setRdata_rxdMeta (v : Word) : (s.setRdata v).rxdMeta = s.rxdMeta := rfl
@[simp] theorem State.setRdata_rxdS (v : Word) : (s.setRdata v).rxdS = s.rxdS := rfl
@[simp] theorem State.setRdata_rxdQ (v : Word) : (s.setRdata v).rxdQ = s.rxdQ := rfl
@[simp] theorem State.setRdata_irqPin (v : Word) : (s.setRdata v).irqPin = s.irqPin := rfl
@[simp] theorem State.setRdata_rstN (v : Word) : (s.setRdata v).rstN = s.rstN := rfl
@[simp] theorem State.setRdata_clkEn (v : Word) : (s.setRdata v).clkEn = s.clkEn := rfl
@[simp] theorem State.setRdata_rdata (v : Word) : (s.setRdata v).rdata = v := rfl
@[simp] theorem State.setRdata_sched (v : Word) : (s.setRdata v).sched = s.sched := rfl
@[simp] theorem State.setRdata_freeCtr (v : Word) : (s.setRdata v).freeCtr = s.freeCtr := rfl

end setRdata

section setSched

@[simp] theorem State.setSched_txe (es : List Event) : (s.setSched es).txe = s.txe := rfl
@[simp] theorem State.setSched_rxne (es : List Event) : (s.setSched es).rxne = s.rxne := rfl
@[simp] theorem State.setSched_ore (es : List Event) : (s.setSched es).ore = s.ore := rfl
@[simp] theorem State.setSched_fe (es : List Event) : (s.setSched es).fe = s.fe := rfl
@[simp] theorem State.setSched_pe (es : List Event) : (s.setSched es).pe = s.pe := rfl
@[simp] theorem State.setSched_tdr (es : List Event) : (s.setSched es).tdr = s.tdr := rfl
@[simp] theorem State.setSched_rdr (es : List Event) : (s.setSched es).rdr = s.rdr := rfl
@[simp] theorem State.setSched_div (es : List Event) : (s.setSched es).div = s.div := rfl
@[simp] theorem State.setSched_ue (es : List Event) : (s.setSched es).ue = s.ue := rfl
@[simp] theorem State.setSched_wl (es : List Event) : (s.setSched es).wl = s.wl := rfl
@[simp] theorem State.setSched_pce (es : List Event) : (s.setSched es).pce = s.pce := rfl
@[simp] theorem State.setSched_ps (es : List Event) : (s.setSched es).ps = s.ps := rfl
@[simp] theorem State.setSched_txeie (es : List Event) : (s.setSched es).txeie = s.txeie := rfl
@[simp] theorem State.setSched_rxneie (es : List Event) : (s.setSched es).rxneie = s.rxneie := rfl
@[simp] theorem State.setSched_stop2 (es : List Event) : (s.setSched es).stop2 = s.stop2 := rfl
@[simp] theorem State.setSched_txs (es : List Event) : (s.setSched es).txs = s.txs := rfl
@[simp] theorem State.setSched_tsr (es : List Event) : (s.setSched es).tsr = s.tsr := rfl
@[simp] theorem State.setSched_rxs (es : List Event) : (s.setSched es).rxs = s.rxs := rfl
@[simp] theorem State.setSched_rsr (es : List Event) : (s.setSched es).rsr = s.rsr := rfl
@[simp] theorem State.setSched_rxcfg (es : List Event) : (s.setSched es).rxcfg = s.rxcfg := rfl
@[simp] theorem State.setSched_txd (es : List Event) : (s.setSched es).txd = s.txd := rfl
@[simp] theorem State.setSched_lineOut (es : List Event) : (s.setSched es).lineOut = s.lineOut := rfl
@[simp] theorem State.setSched_txCnt (es : List Event) : (s.setSched es).txCnt = s.txCnt := rfl
@[simp] theorem State.setSched_rxCnt (es : List Event) : (s.setSched es).rxCnt = s.rxCnt := rfl
@[simp] theorem State.setSched_startPending (es : List Event) : (s.setSched es).startPending = s.startPending := rfl
@[simp] theorem State.setSched_rxdMeta (es : List Event) : (s.setSched es).rxdMeta = s.rxdMeta := rfl
@[simp] theorem State.setSched_rxdS (es : List Event) : (s.setSched es).rxdS = s.rxdS := rfl
@[simp] theorem State.setSched_rxdQ (es : List Event) : (s.setSched es).rxdQ = s.rxdQ := rfl
@[simp] theorem State.setSched_irqPin (es : List Event) : (s.setSched es).irqPin = s.irqPin := rfl
@[simp] theorem State.setSched_rstN (es : List Event) : (s.setSched es).rstN = s.rstN := rfl
@[simp] theorem State.setSched_clkEn (es : List Event) : (s.setSched es).clkEn = s.clkEn := rfl
@[simp] theorem State.setSched_rdata (es : List Event) : (s.setSched es).rdata = s.rdata := rfl
@[simp] theorem State.setSched_sched (es : List Event) : (s.setSched es).sched = es := rfl
@[simp] theorem State.setSched_freeCtr (es : List Event) : (s.setSched es).freeCtr = s.freeCtr := rfl

end setSched

section abortEngines

@[simp] theorem State.abortEngines_txe : (s.abortEngines).txe = s.txe := rfl
@[simp] theorem State.abortEngines_rxne : (s.abortEngines).rxne = s.rxne := rfl
@[simp] theorem State.abortEngines_ore : (s.abortEngines).ore = s.ore := rfl
@[simp] theorem State.abortEngines_fe : (s.abortEngines).fe = s.fe := rfl
@[simp] theorem State.abortEngines_pe : (s.abortEngines).pe = s.pe := rfl
@[simp] theorem State.abortEngines_tdr : (s.abortEngines).tdr = s.tdr := rfl
@[simp] theorem State.abortEngines_rdr : (s.abortEngines).rdr = s.rdr := rfl
@[simp] theorem State.abortEngines_div : (s.abortEngines).div = s.div := rfl
@[simp] theorem State.abortEngines_ue : (s.abortEngines).ue = s.ue := rfl
@[simp] theorem State.abortEngines_wl : (s.abortEngines).wl = s.wl := rfl
@[simp] theorem State.abortEngines_pce : (s.abortEngines).pce = s.pce := rfl
@[simp] theorem State.abortEngines_ps : (s.abortEngines).ps = s.ps := rfl
@[simp] theorem State.abortEngines_txeie : (s.abortEngines).txeie = s.txeie := rfl
@[simp] theorem State.abortEngines_rxneie : (s.abortEngines).rxneie = s.rxneie := rfl
@[simp] theorem State.abortEngines_stop2 : (s.abortEngines).stop2 = s.stop2 := rfl
@[simp] theorem State.abortEngines_txs : (s.abortEngines).txs = .tIdle := rfl
@[simp] theorem State.abortEngines_tsr : (s.abortEngines).tsr = [] := rfl
@[simp] theorem State.abortEngines_rxs : (s.abortEngines).rxs = .rIdle := rfl
@[simp] theorem State.abortEngines_rsr : (s.abortEngines).rsr = [] := rfl
@[simp] theorem State.abortEngines_rxcfg : (s.abortEngines).rxcfg = s.rxcfg := rfl
@[simp] theorem State.abortEngines_txd : (s.abortEngines).txd = true := rfl
@[simp] theorem State.abortEngines_lineOut : (s.abortEngines).lineOut = s.lineOut := rfl
@[simp] theorem State.abortEngines_txCnt : (s.abortEngines).txCnt = s.txCnt := rfl
@[simp] theorem State.abortEngines_rxCnt : (s.abortEngines).rxCnt = s.rxCnt := rfl
@[simp] theorem State.abortEngines_startPending : (s.abortEngines).startPending = false := rfl
@[simp] theorem State.abortEngines_rxdMeta : (s.abortEngines).rxdMeta = s.rxdMeta := rfl
@[simp] theorem State.abortEngines_rxdS : (s.abortEngines).rxdS = s.rxdS := rfl
@[simp] theorem State.abortEngines_rxdQ : (s.abortEngines).rxdQ = s.rxdQ := rfl
@[simp] theorem State.abortEngines_irqPin : (s.abortEngines).irqPin = s.irqPin := rfl
@[simp] theorem State.abortEngines_rstN : (s.abortEngines).rstN = s.rstN := rfl
@[simp] theorem State.abortEngines_clkEn : (s.abortEngines).clkEn = s.clkEn := rfl
@[simp] theorem State.abortEngines_rdata : (s.abortEngines).rdata = s.rdata := rfl
@[simp] theorem State.abortEngines_sched : (s.abortEngines).sched = s.sched := rfl
@[simp] theorem State.abortEngines_freeCtr : (s.abortEngines).freeCtr = s.freeCtr := rfl

end abortEngines

section storeCr1

@[simp] theorem State.storeCr1_txe (l : Layout) (w : Word) : (s.storeCr1 l w).txe = s.txe := rfl
@[simp] theorem State.storeCr1_rxne (l : Layout) (w : Word) : (s.storeCr1 l w).rxne = s.rxne := rfl
@[simp] theorem State.storeCr1_ore (l : Layout) (w : Word) : (s.storeCr1 l w).ore = s.ore := rfl
@[simp] theorem State.storeCr1_fe (l : Layout) (w : Word) : (s.storeCr1 l w).fe = s.fe := rfl
@[simp] theorem State.storeCr1_pe (l : Layout) (w : Word) : (s.storeCr1 l w).pe = s.pe := rfl
@[simp] theorem State.storeCr1_tdr (l : Layout) (w : Word) : (s.storeCr1 l w).tdr = s.tdr := rfl
@[simp] theorem State.storeCr1_rdr (l : Layout) (w : Word) : (s.storeCr1 l w).rdr = s.rdr := rfl
@[simp] theorem State.storeCr1_div (l : Layout) (w : Word) : (s.storeCr1 l w).div = s.div := rfl
@[simp] theorem State.storeCr1_ue (l : Layout) (w : Word) : (s.storeCr1 l w).ue = wdataUE l w := rfl
@[simp] theorem State.storeCr1_wl (l : Layout) (w : Word) : (s.storeCr1 l w).wl = wdataWL l w := rfl
@[simp] theorem State.storeCr1_pce (l : Layout) (w : Word) : (s.storeCr1 l w).pce = wdataPCE l w := rfl
@[simp] theorem State.storeCr1_ps (l : Layout) (w : Word) : (s.storeCr1 l w).ps = wdataPS l w := rfl
@[simp] theorem State.storeCr1_txeie (l : Layout) (w : Word) : (s.storeCr1 l w).txeie = wdataTXEIE l w := rfl
@[simp] theorem State.storeCr1_rxneie (l : Layout) (w : Word) : (s.storeCr1 l w).rxneie = wdataRXNEIE l w := rfl
@[simp] theorem State.storeCr1_stop2 (l : Layout) (w : Word) : (s.storeCr1 l w).stop2 = s.stop2 := rfl
@[simp] theorem State.storeCr1_txs (l : Layout) (w : Word) : (s.storeCr1 l w).txs = s.txs := rfl
@[simp] theorem State.storeCr1_tsr (l : Layout) (w : Word) : (s.storeCr1 l w).tsr = s.tsr := rfl
@[simp] theorem State.storeCr1_rxs (l : Layout) (w : Word) : (s.storeCr1 l w).rxs = s.rxs := rfl
@[simp] theorem State.storeCr1_rsr (l : Layout) (w : Word) : (s.storeCr1 l w).rsr = s.rsr := rfl
@[simp] theorem State.storeCr1_rxcfg (l : Layout) (w : Word) : (s.storeCr1 l w).rxcfg = s.rxcfg := rfl
@[simp] theorem State.storeCr1_txd (l : Layout) (w : Word) : (s.storeCr1 l w).txd = s.txd := rfl
@[simp] theorem State.storeCr1_lineOut (l : Layout) (w : Word) : (s.storeCr1 l w).lineOut = s.lineOut := rfl
@[simp] theorem State.storeCr1_txCnt (l : Layout) (w : Word) : (s.storeCr1 l w).txCnt = s.txCnt := rfl
@[simp] theorem State.storeCr1_rxCnt (l : Layout) (w : Word) : (s.storeCr1 l w).rxCnt = s.rxCnt := rfl
@[simp] theorem State.storeCr1_startPending (l : Layout) (w : Word) : (s.storeCr1 l w).startPending = s.startPending := rfl
@[simp] theorem State.storeCr1_rxdMeta (l : Layout) (w : Word) : (s.storeCr1 l w).rxdMeta = s.rxdMeta := rfl
@[simp] theorem State.storeCr1_rxdS (l : Layout) (w : Word) : (s.storeCr1 l w).rxdS = s.rxdS := rfl
@[simp] theorem State.storeCr1_rxdQ (l : Layout) (w : Word) : (s.storeCr1 l w).rxdQ = s.rxdQ := rfl
@[simp] theorem State.storeCr1_irqPin (l : Layout) (w : Word) : (s.storeCr1 l w).irqPin = s.irqPin := rfl
@[simp] theorem State.storeCr1_rstN (l : Layout) (w : Word) : (s.storeCr1 l w).rstN = s.rstN := rfl
@[simp] theorem State.storeCr1_clkEn (l : Layout) (w : Word) : (s.storeCr1 l w).clkEn = s.clkEn := rfl
@[simp] theorem State.storeCr1_rdata (l : Layout) (w : Word) : (s.storeCr1 l w).rdata = s.rdata := rfl
@[simp] theorem State.storeCr1_sched (l : Layout) (w : Word) : (s.storeCr1 l w).sched = s.sched := rfl
@[simp] theorem State.storeCr1_freeCtr (l : Layout) (w : Word) : (s.storeCr1 l w).freeCtr = s.freeCtr := rfl

end storeCr1

section clearErrors

@[simp] theorem State.clearErrors_txe (l : Layout) (w : Word) : (s.clearErrors l w).txe = s.txe := rfl
@[simp] theorem State.clearErrors_rxne (l : Layout) (w : Word) : (s.clearErrors l w).rxne = s.rxne := rfl
@[simp] theorem State.clearErrors_ore (l : Layout) (w : Word) : (s.clearErrors l w).ore = (s.ore && !w.getLsbD l.ore) := rfl
@[simp] theorem State.clearErrors_fe (l : Layout) (w : Word) : (s.clearErrors l w).fe = (s.fe && !w.getLsbD l.fe) := rfl
@[simp] theorem State.clearErrors_pe (l : Layout) (w : Word) : (s.clearErrors l w).pe = (s.pe && !w.getLsbD l.pe) := rfl
@[simp] theorem State.clearErrors_tdr (l : Layout) (w : Word) : (s.clearErrors l w).tdr = s.tdr := rfl
@[simp] theorem State.clearErrors_rdr (l : Layout) (w : Word) : (s.clearErrors l w).rdr = s.rdr := rfl
@[simp] theorem State.clearErrors_div (l : Layout) (w : Word) : (s.clearErrors l w).div = s.div := rfl
@[simp] theorem State.clearErrors_ue (l : Layout) (w : Word) : (s.clearErrors l w).ue = s.ue := rfl
@[simp] theorem State.clearErrors_wl (l : Layout) (w : Word) : (s.clearErrors l w).wl = s.wl := rfl
@[simp] theorem State.clearErrors_pce (l : Layout) (w : Word) : (s.clearErrors l w).pce = s.pce := rfl
@[simp] theorem State.clearErrors_ps (l : Layout) (w : Word) : (s.clearErrors l w).ps = s.ps := rfl
@[simp] theorem State.clearErrors_txeie (l : Layout) (w : Word) : (s.clearErrors l w).txeie = s.txeie := rfl
@[simp] theorem State.clearErrors_rxneie (l : Layout) (w : Word) : (s.clearErrors l w).rxneie = s.rxneie := rfl
@[simp] theorem State.clearErrors_stop2 (l : Layout) (w : Word) : (s.clearErrors l w).stop2 = s.stop2 := rfl
@[simp] theorem State.clearErrors_txs (l : Layout) (w : Word) : (s.clearErrors l w).txs = s.txs := rfl
@[simp] theorem State.clearErrors_tsr (l : Layout) (w : Word) : (s.clearErrors l w).tsr = s.tsr := rfl
@[simp] theorem State.clearErrors_rxs (l : Layout) (w : Word) : (s.clearErrors l w).rxs = s.rxs := rfl
@[simp] theorem State.clearErrors_rsr (l : Layout) (w : Word) : (s.clearErrors l w).rsr = s.rsr := rfl
@[simp] theorem State.clearErrors_rxcfg (l : Layout) (w : Word) : (s.clearErrors l w).rxcfg = s.rxcfg := rfl
@[simp] theorem State.clearErrors_txd (l : Layout) (w : Word) : (s.clearErrors l w).txd = s.txd := rfl
@[simp] theorem State.clearErrors_lineOut (l : Layout) (w : Word) : (s.clearErrors l w).lineOut = s.lineOut := rfl
@[simp] theorem State.clearErrors_txCnt (l : Layout) (w : Word) : (s.clearErrors l w).txCnt = s.txCnt := rfl
@[simp] theorem State.clearErrors_rxCnt (l : Layout) (w : Word) : (s.clearErrors l w).rxCnt = s.rxCnt := rfl
@[simp] theorem State.clearErrors_startPending (l : Layout) (w : Word) : (s.clearErrors l w).startPending = s.startPending := rfl
@[simp] theorem State.clearErrors_rxdMeta (l : Layout) (w : Word) : (s.clearErrors l w).rxdMeta = s.rxdMeta := rfl
@[simp] theorem State.clearErrors_rxdS (l : Layout) (w : Word) : (s.clearErrors l w).rxdS = s.rxdS := rfl
@[simp] theorem State.clearErrors_rxdQ (l : Layout) (w : Word) : (s.clearErrors l w).rxdQ = s.rxdQ := rfl
@[simp] theorem State.clearErrors_irqPin (l : Layout) (w : Word) : (s.clearErrors l w).irqPin = s.irqPin := rfl
@[simp] theorem State.clearErrors_rstN (l : Layout) (w : Word) : (s.clearErrors l w).rstN = s.rstN := rfl
@[simp] theorem State.clearErrors_clkEn (l : Layout) (w : Word) : (s.clearErrors l w).clkEn = s.clkEn := rfl
@[simp] theorem State.clearErrors_rdata (l : Layout) (w : Word) : (s.clearErrors l w).rdata = s.rdata := rfl
@[simp] theorem State.clearErrors_sched (l : Layout) (w : Word) : (s.clearErrors l w).sched = s.sched := rfl
@[simp] theorem State.clearErrors_freeCtr (l : Layout) (w : Word) : (s.clearErrors l w).freeCtr = s.freeCtr := rfl

end clearErrors

section untimed

@[simp] theorem State.untimed_txe : (s.untimed).txe = s.txe := rfl
@[simp] theorem State.untimed_rxne : (s.untimed).rxne = s.rxne := rfl
@[simp] theorem State.untimed_ore : (s.untimed).ore = s.ore := rfl
@[simp] theorem State.untimed_fe : (s.untimed).fe = s.fe := rfl
@[simp] theorem State.untimed_pe : (s.untimed).pe = s.pe := rfl
@[simp] theorem State.untimed_tdr : (s.untimed).tdr = s.tdr := rfl
@[simp] theorem State.untimed_rdr : (s.untimed).rdr = s.rdr := rfl
@[simp] theorem State.untimed_div : (s.untimed).div = s.div := rfl
@[simp] theorem State.untimed_ue : (s.untimed).ue = s.ue := rfl
@[simp] theorem State.untimed_wl : (s.untimed).wl = s.wl := rfl
@[simp] theorem State.untimed_pce : (s.untimed).pce = s.pce := rfl
@[simp] theorem State.untimed_ps : (s.untimed).ps = s.ps := rfl
@[simp] theorem State.untimed_txeie : (s.untimed).txeie = s.txeie := rfl
@[simp] theorem State.untimed_rxneie : (s.untimed).rxneie = s.rxneie := rfl
@[simp] theorem State.untimed_stop2 : (s.untimed).stop2 = s.stop2 := rfl
@[simp] theorem State.untimed_txs : (s.untimed).txs = s.txs := rfl
@[simp] theorem State.untimed_tsr : (s.untimed).tsr = s.tsr := rfl
@[simp] theorem State.untimed_rxs : (s.untimed).rxs = s.rxs := rfl
@[simp] theorem State.untimed_rsr : (s.untimed).rsr = s.rsr := rfl
@[simp] theorem State.untimed_rxcfg : (s.untimed).rxcfg = s.rxcfg := rfl
@[simp] theorem State.untimed_txd : (s.untimed).txd = s.txd := rfl
@[simp] theorem State.untimed_lineOut : (s.untimed).lineOut = s.lineOut := rfl
@[simp] theorem State.untimed_txCnt : (s.untimed).txCnt = 0#16 := rfl
@[simp] theorem State.untimed_rxCnt : (s.untimed).rxCnt = 0#16 := rfl
@[simp] theorem State.untimed_startPending : (s.untimed).startPending = false := rfl
@[simp] theorem State.untimed_rxdMeta : (s.untimed).rxdMeta = true := rfl
@[simp] theorem State.untimed_rxdS : (s.untimed).rxdS = true := rfl
@[simp] theorem State.untimed_rxdQ : (s.untimed).rxdQ = true := rfl
@[simp] theorem State.untimed_irqPin : (s.untimed).irqPin = false := rfl
@[simp] theorem State.untimed_rstN : (s.untimed).rstN = s.rstN := rfl
@[simp] theorem State.untimed_clkEn : (s.untimed).clkEn = s.clkEn := rfl
@[simp] theorem State.untimed_rdata : (s.untimed).rdata = s.rdata := rfl
@[simp] theorem State.untimed_sched : (s.untimed).sched = s.sched := rfl
@[simp] theorem State.untimed_freeCtr : (s.untimed).freeCtr = 0 := rfl

end untimed

section registerPins

@[simp] theorem State.registerPins_txe (b : State) (x : Level) : (s.registerPins b x).txe = s.txe := rfl
@[simp] theorem State.registerPins_rxne (b : State) (x : Level) : (s.registerPins b x).rxne = s.rxne := rfl
@[simp] theorem State.registerPins_ore (b : State) (x : Level) : (s.registerPins b x).ore = s.ore := rfl
@[simp] theorem State.registerPins_fe (b : State) (x : Level) : (s.registerPins b x).fe = s.fe := rfl
@[simp] theorem State.registerPins_pe (b : State) (x : Level) : (s.registerPins b x).pe = s.pe := rfl
@[simp] theorem State.registerPins_tdr (b : State) (x : Level) : (s.registerPins b x).tdr = s.tdr := rfl
@[simp] theorem State.registerPins_rdr (b : State) (x : Level) : (s.registerPins b x).rdr = s.rdr := rfl
@[simp] theorem State.registerPins_div (b : State) (x : Level) : (s.registerPins b x).div = s.div := rfl
@[simp] theorem State.registerPins_ue (b : State) (x : Level) : (s.registerPins b x).ue = s.ue := rfl
@[simp] theorem State.registerPins_wl (b : State) (x : Level) : (s.registerPins b x).wl = s.wl := rfl
@[simp] theorem State.registerPins_pce (b : State) (x : Level) : (s.registerPins b x).pce = s.pce := rfl
@[simp] theorem State.registerPins_ps (b : State) (x : Level) : (s.registerPins b x).ps = s.ps := rfl
@[simp] theorem State.registerPins_txeie (b : State) (x : Level) : (s.registerPins b x).txeie = s.txeie := rfl
@[simp] theorem State.registerPins_rxneie (b : State) (x : Level) : (s.registerPins b x).rxneie = s.rxneie := rfl
@[simp] theorem State.registerPins_stop2 (b : State) (x : Level) : (s.registerPins b x).stop2 = s.stop2 := rfl
@[simp] theorem State.registerPins_txs (b : State) (x : Level) : (s.registerPins b x).txs = s.txs := rfl
@[simp] theorem State.registerPins_tsr (b : State) (x : Level) : (s.registerPins b x).tsr = s.tsr := rfl
@[simp] theorem State.registerPins_rxs (b : State) (x : Level) : (s.registerPins b x).rxs = s.rxs := rfl
@[simp] theorem State.registerPins_rsr (b : State) (x : Level) : (s.registerPins b x).rsr = s.rsr := rfl
@[simp] theorem State.registerPins_rxcfg (b : State) (x : Level) : (s.registerPins b x).rxcfg = s.rxcfg := rfl
@[simp] theorem State.registerPins_txd (b : State) (x : Level) : (s.registerPins b x).txd = s.txd := rfl
@[simp] theorem State.registerPins_lineOut (b : State) (x : Level) : (s.registerPins b x).lineOut = s.lineOut := rfl
@[simp] theorem State.registerPins_txCnt (b : State) (x : Level) : (s.registerPins b x).txCnt = s.txCnt := rfl
@[simp] theorem State.registerPins_rxCnt (b : State) (x : Level) : (s.registerPins b x).rxCnt = s.rxCnt := rfl
@[simp] theorem State.registerPins_startPending (b : State) (x : Level) : (s.registerPins b x).startPending = s.startPending := rfl
@[simp] theorem State.registerPins_rxdMeta (b : State) (x : Level) : (s.registerPins b x).rxdMeta = x := rfl
@[simp] theorem State.registerPins_rxdS (b : State) (x : Level) : (s.registerPins b x).rxdS = b.rxdMeta := rfl
@[simp] theorem State.registerPins_rxdQ (b : State) (x : Level) : (s.registerPins b x).rxdQ = b.rxdS := rfl
@[simp] theorem State.registerPins_irqPin (b : State) (x : Level) : (s.registerPins b x).irqPin = b.irq := rfl
@[simp] theorem State.registerPins_rstN (b : State) (x : Level) : (s.registerPins b x).rstN = s.rstN := rfl
@[simp] theorem State.registerPins_clkEn (b : State) (x : Level) : (s.registerPins b x).clkEn = s.clkEn := rfl
@[simp] theorem State.registerPins_rdata (b : State) (x : Level) : (s.registerPins b x).rdata = s.rdata := rfl
@[simp] theorem State.registerPins_sched (b : State) (x : Level) : (s.registerPins b x).sched = s.sched := rfl
@[simp] theorem State.registerPins_freeCtr (b : State) (x : Level) : (s.registerPins b x).freeCtr = s.freeCtr := rfl

end registerPins

section resetBlock

@[simp] theorem State.resetBlock_txe : s.resetBlock.txe = State.reset.txe := rfl
@[simp] theorem State.resetBlock_rxne : s.resetBlock.rxne = State.reset.rxne := rfl
@[simp] theorem State.resetBlock_ore : s.resetBlock.ore = State.reset.ore := rfl
@[simp] theorem State.resetBlock_fe : s.resetBlock.fe = State.reset.fe := rfl
@[simp] theorem State.resetBlock_pe : s.resetBlock.pe = State.reset.pe := rfl
@[simp] theorem State.resetBlock_tdr : s.resetBlock.tdr = State.reset.tdr := rfl
@[simp] theorem State.resetBlock_rdr : s.resetBlock.rdr = State.reset.rdr := rfl
@[simp] theorem State.resetBlock_div : s.resetBlock.div = State.reset.div := rfl
@[simp] theorem State.resetBlock_ue : s.resetBlock.ue = State.reset.ue := rfl
@[simp] theorem State.resetBlock_wl : s.resetBlock.wl = State.reset.wl := rfl
@[simp] theorem State.resetBlock_pce : s.resetBlock.pce = State.reset.pce := rfl
@[simp] theorem State.resetBlock_ps : s.resetBlock.ps = State.reset.ps := rfl
@[simp] theorem State.resetBlock_txeie : s.resetBlock.txeie = State.reset.txeie := rfl
@[simp] theorem State.resetBlock_rxneie : s.resetBlock.rxneie = State.reset.rxneie := rfl
@[simp] theorem State.resetBlock_stop2 : s.resetBlock.stop2 = State.reset.stop2 := rfl
@[simp] theorem State.resetBlock_txs : s.resetBlock.txs = State.reset.txs := rfl
@[simp] theorem State.resetBlock_tsr : s.resetBlock.tsr = State.reset.tsr := rfl
@[simp] theorem State.resetBlock_rxs : s.resetBlock.rxs = State.reset.rxs := rfl
@[simp] theorem State.resetBlock_rsr : s.resetBlock.rsr = State.reset.rsr := rfl
@[simp] theorem State.resetBlock_rxcfg : s.resetBlock.rxcfg = State.reset.rxcfg := rfl
@[simp] theorem State.resetBlock_txd : s.resetBlock.txd = State.reset.txd := rfl
@[simp] theorem State.resetBlock_lineOut : s.resetBlock.lineOut = State.reset.lineOut := rfl
@[simp] theorem State.resetBlock_txCnt : s.resetBlock.txCnt = State.reset.txCnt := rfl
@[simp] theorem State.resetBlock_rxCnt : s.resetBlock.rxCnt = State.reset.rxCnt := rfl
@[simp] theorem State.resetBlock_startPending : s.resetBlock.startPending = State.reset.startPending := rfl
@[simp] theorem State.resetBlock_rxdMeta : s.resetBlock.rxdMeta = State.reset.rxdMeta := rfl
@[simp] theorem State.resetBlock_rxdS : s.resetBlock.rxdS = State.reset.rxdS := rfl
@[simp] theorem State.resetBlock_rxdQ : s.resetBlock.rxdQ = State.reset.rxdQ := rfl
@[simp] theorem State.resetBlock_irqPin : s.resetBlock.irqPin = State.reset.irqPin := rfl
@[simp] theorem State.resetBlock_rstN : s.resetBlock.rstN = false := rfl
@[simp] theorem State.resetBlock_clkEn : s.resetBlock.clkEn = s.clkEn := rfl
@[simp] theorem State.resetBlock_rdata : s.resetBlock.rdata = State.reset.rdata := rfl
@[simp] theorem State.resetBlock_sched : s.resetBlock.sched = s.sched := rfl
@[simp] theorem State.resetBlock_freeCtr : s.resetBlock.freeCtr = s.freeCtr := rfl

end resetBlock

end Sys2Proof.Machine
end

