-- ==== Sys2Proof/Laws/Ops.lean ====
section
/-! SUPPORT. What the shared operations can do, said once: `busOp`, `andThen`, `deliver`, the engine
steps, the environment's steps, and runs. Later proofs cite these instead of unfolding. -/

namespace Sys2Proof.Machine

theorem running_iff (s : State) : s.running = true ↔ s.rstN = true ∧ s.clkEn = true := by
  simp [State.running]

/-! ## Bus operations -/

theorem busOp_running {s : State} (h : s.running = true) (f : State → State) :
    busOp f s = .next (f s) := by
  obtain ⟨h1, h2⟩ := (running_iff s).1 h
  simp [busOp, h1, h2]

theorem busOp_next_iff (f : State → State) (s t : State) :
    busOp f s = .next t ↔ s.running = true ∧ t = f s := by
  unfold busOp State.running
  cases s.rstN <;> cases s.clkEn <;> simp [eq_comm]

theorem busOp_inReset {s : State} (h : s.rstN = false) (f : State → State) :
    busOp f s = .refused .inReset := by simp [busOp, h]

theorem busOp_clockGated {s : State} (h1 : s.rstN = true) (h2 : s.clkEn = false)
    (f : State → State) : busOp f s = .refused .clockGated := by simp [busOp, h1, h2]

/-- Everything a bus operation can answer. -/
theorem busOp_cases (f : State → State) (s : State) :
    (s.running = true ∧ busOp f s = .next (f s)) ∨
    (s.rstN = false ∧ busOp f s = .refused .inReset) ∨
    (s.rstN = true ∧ s.clkEn = false ∧ busOp f s = .refused .clockGated) := by
  unfold busOp State.running
  cases s.rstN <;> cases s.clkEn <;> simp

/-! ## Steps after each other -/

section andThen

variable {α β γ : Type}

@[simp] theorem andThen_next (a : α) (f : α → Host.Outcome β Fault Refusal) :
    andThen (.next a) f = f a := rfl
@[simp] theorem andThen_refused (r : Refusal) (f : α → Host.Outcome β Fault Refusal) :
    andThen (.refused r) f = .refused r := rfl

theorem andThen_next_iff (r : Host.Outcome α Fault Refusal) (f : α → Host.Outcome β Fault Refusal)
    (b : β) : andThen r f = .next b ↔ ∃ a, r = .next a ∧ f a = .next b := by
  cases r <;> simp [andThen]

theorem andThen_refused_iff (r : Host.Outcome α Fault Refusal) (f : α → Host.Outcome β Fault Refusal)
    (e : Refusal) : andThen r f = .refused e ↔ r = .refused e ∨ ∃ a, r = .next a ∧ f a = .refused e := by
  cases r <;> simp [andThen]

theorem andThen_assoc (r : Host.Outcome α Fault Refusal) (f : α → Host.Outcome β Fault Refusal)
    (g : β → Host.Outcome γ Fault Refusal) :
    andThen (andThen r f) g = andThen r fun a => andThen (f a) g := by
  cases r <;> rfl

/-- A property that two steps keep is kept by one after the other. -/
theorem andThen_keeps {P : α → Prop} {Q : β → Prop} {r : Host.Outcome α Fault Refusal}
    {f : α → Host.Outcome β Fault Refusal} {b : β} (h : andThen r f = .next b)
    (h1 : ∀ a, r = .next a → P a) (h2 : ∀ a, P a → f a = .next b → Q b) : Q b := by
  obtain ⟨a, ha, hb⟩ := (andThen_next_iff r f b).1 h
  exact h2 a (h1 a ha) hb

end andThen

theorem runEvents_append (p : Params) (es fs : List Event) (s : State) :
    runEvents p (es ++ fs) s = andThen (runEvents p es s) (runEvents p fs) := by
  induction es generalizing s with
  | nil => rfl
  | cons e es ih =>
    simp only [List.cons_append, runEvents, andThen_assoc]
    congr 1; funext s'; exact ih s'

@[simp] theorem runEvents_nil (p : Params) (s : State) : runEvents p [] s = .next s := rfl

theorem runEvents_cons (p : Params) (e : Event) (es : List Event) (s : State) :
    runEvents p (e :: es) s = andThen (runEvent p e s) (runEvents p es) := rfl

@[simp] theorem runEvents_single (p : Params) (e : Event) (s : State) :
    runEvents p [e] s = runEvent p e s := by
  simp only [runEvents_cons]
  cases runEvent p e s <;> rfl

theorem runEvents_next_cons {p : Params} {e : Event} {es : List Event} {s t : State}
    (h : runEvents p (e :: es) s = .next t) :
    ∃ s', runEvent p e s = .next s' ∧ runEvents p es s' = .next t :=
  (andThen_next_iff _ _ _).1 h

/-! ## Delivering a character -/

theorem deliver_free {s : State} (h : s.rxne = false) (c : RxChar) :
    s.deliver c =
      { s with rdr := c.d, rxne := true, pe := s.pe || c.pBad, fe := s.fe || c.fBad } := by
  simp [State.deliver, h]

theorem deliver_full {s : State} (h : s.rxne = true) (c : RxChar) :
    s.deliver c = { s with ore := true } := by simp [State.deliver, h]

/-- `deliver` writes no field but `RDR`, `RXNE`, `ORE`, `PE`, `FE`. -/
theorem deliver_eq (s : State) (c : RxChar) :
    s.deliver c =
      { s with
        rdr := if s.rxne then s.rdr else c.d
        rxne := true
        ore := s.ore || s.rxne
        pe := s.pe || (!s.rxne && c.pBad)
        fe := s.fe || (!s.rxne && c.fBad) } := by
  cases h : s.rxne
  · simp [deliver_free h]
  · cases s; simp_all [State.deliver]

/-! ## Engine steps: what each can answer -/

theorem txLoad_cases (s : State) :
    (s.txLoadEnabled = false ∧ txLoad s = .next s) ∨
    (s.txLoadEnabled = true ∧ frame s.tdr s.wl s.pce s.ps s.stop2 = none ∧
      txLoad s = .refused .reservedWL) ∨
    (∃ f, s.txLoadEnabled = true ∧ frame s.tdr s.wl s.pce s.ps s.stop2 = some f ∧
      txLoad s = .next { s with tsr := f, txs := .tShift, txe := true, txCnt := s.div }) := by
  unfold txLoad
  cases h : s.txLoadEnabled
  · simp
  · cases hf : frame s.tdr s.wl s.pce s.ps s.stop2 <;> simp

theorem txBit_cases (s : State) :
    ((s.running = false ∨ s.txs = .tIdle ∨ s.tsr = []) ∧ txBit s = .next s) ∨
    (∃ b rest, s.running = true ∧ s.txs = .tShift ∧ s.tsr = b :: rest ∧
      txBit s =
        .next { s with txd := b, lineOut := s.lineOut ++ [b], tsr := rest, txCnt := s.div }) := by
  unfold txBit
  cases h : s.running
  · simp
  · cases hx : s.txs
    · simp
    · cases ht : s.tsr <;> simp

theorem txEnd_cases (s : State) :
    (¬(s.running = true ∧ s.txs = .tShift ∧ s.tsr = []) ∧ txEnd s = .next s) ∨
    (s.running = true ∧ s.txs = .tShift ∧ s.tsr = [] ∧ txEnd s = .next { s with txs := .tIdle }) := by
  unfold txEnd
  cases h : s.running
  · simp
  · cases hx : s.txs
    · simp
    · cases ht : s.tsr <;> simp

theorem txChar_cases (s : State) :
    (¬(s.running = true ∧ s.txs = .tShift) ∧ txChar s = .next s) ∨
    (s.running = true ∧ s.txs = .tShift ∧ txChar s =
      .next { s with lineOut := s.lineOut ++ s.tsr, tsr := [], txd := true, txs := .tIdle }) := by
  unfold txChar
  cases h : s.running
  · simp
  · cases hx : s.txs <;> simp

theorem rxStart_cases (s : State) :
    (s.rxStartEnabled = false ∧ rxStart s = .next s) ∨
    (s.rxStartEnabled = true ∧ nbits s.wl = none ∧ rxStart s = .refused .reservedWL) ∨
    (∃ n, s.rxStartEnabled = true ∧ nbits s.wl = some n ∧ rxStart s =
      .next { s with rxcfg := ⟨s.wl, s.pce, s.ps⟩, rsr := [], rxs := .rRecv, rxCnt := s.div,
                     startPending := false }) := by
  unfold rxStart
  cases h : s.rxStartEnabled
  · simp
  · cases hn : nbits s.wl <;> simp

theorem rxBit_cases (b : Level) (s : State) :
    (rxBit b s = .next s ∧ (s.running = true → s.rxs = .rRecv →
        ∃ n, s.rxcfg.need = some n ∧ n ≤ s.rsr.length)) ∨
    (s.running = true ∧ s.rxs = .rRecv ∧ s.rxcfg.need = none ∧ rxBit b s = .refused .reservedWL) ∨
    (∃ n, s.running = true ∧ s.rxs = .rRecv ∧ s.rxcfg.need = some n ∧ s.rsr.length < n ∧
      rxBit b s = .next { s with rsr := s.rsr ++ [b], rxCnt := s.div }) := by
  unfold rxBit
  cases h : s.running
  · simp
  · cases hx : s.rxs
    · simp
    · cases hn : s.rxcfg.need with
      | none => simp
      | some n =>
        by_cases hl : s.rsr.length < n
        · simp [hl]
        · simp [hl]
          omega

theorem need_eq_none_iff (c : RxCfg) : c.need = none ↔ nbits c.wl = none := by
  unfold RxCfg.need rxlen; cases nbits c.wl <;> simp

theorem rxEnd_cases (s : State) :
    (rxEnd s = .next s ∧ ¬(s.running = true ∧ s.rxs = .rRecv ∧ s.rxcfg.need = some s.rsr.length)) ∨
    (s.running = true ∧ s.rxs = .rRecv ∧ s.rxcfg.need = none ∧ rxEnd s = .refused .reservedWL) ∨
    (∃ n, s.running = true ∧ s.rxs = .rRecv ∧ nbits s.rxcfg.wl = some n ∧
      s.rxcfg.need = some s.rsr.length ∧ rxEnd s =
        .next { s.deliver (rxDecode n s.rxcfg.pce s.rxcfg.ps s.rsr) with
          rsr := [], rxs := .rIdle }) := by
  unfold rxEnd
  cases h : s.running
  · simp
  · cases hx : s.rxs
    · simp
    · cases hn : nbits s.rxcfg.wl with
      | none => simp [need_eq_none_iff, hn]
      | some n => by_cases hl : s.rxcfg.need = some s.rsr.length <;> simp [hl]

theorem rxChar_cases (d : BitVec 9) (p stop : Level) (s : State) :
    (s.rxStartEnabled = false ∧ rxChar d p stop s = .next s) ∨
    (s.rxStartEnabled = true ∧ nbits s.wl = none ∧ rxChar d p stop s = .refused .reservedWL) ∨
    (∃ n, s.rxStartEnabled = true ∧ nbits s.wl = some n ∧ rxChar d p stop s =
      .next (s.deliver ⟨lowBits n d, s.pce && (p != par d n s.ps), !stop⟩)) := by
  unfold rxChar
  cases h : s.rxStartEnabled
  · simp
  · cases hn : nbits s.wl <;> simp

/-! ## The host's access -/

/-- Everything a host access can answer: a refusal of the access, or the operation it performs. -/
theorem hostAccess_cases (p : Params) (a : HostAccess) (s : State) :
    (operation p a = none ∧ ∃ r, hostAccess p a s = .refused r ∧ r ≠ .reservedWL) ∨
    (∃ i, operation p a = some i ∧ hostAccess p a s = execAt p.layout i s) := by
  unfold operation hostAccess
  cases hr : route p a with
  | error r =>
    refine .inl ⟨rfl, r, rfl, ?_⟩
    unfold route at hr
    grind
  | ok t =>
    simp only [transact]
    cases hd : decodeTransactionAt p.offsets t with
    | error e => exact .inl ⟨rfl, _, rfl, by cases e <;> simp [selectorRefusal]⟩
    | ok i => exact .inr ⟨i, rfl, rfl⟩

/-! ## What each operation does -/

section effect

variable (l : Layout) (s : State) (w : Word)

@[simp] theorem effect_rdSr : effect l .rdSr s = s.setRdata (s.srWord l) := rfl
@[simp] theorem effect_rdDr : effect l .rdDr s = { s.setRdata (s.drWord l) with rxne := false } := rfl
@[simp] theorem effect_rdBrr : effect l .rdBrr s = s.setRdata (s.brrWord l) := rfl
@[simp] theorem effect_rdCr1 : effect l .rdCr1 s = s.setRdata (s.cr1Word l) := rfl
@[simp] theorem effect_rdCr2 : effect l .rdCr2 s = s.setRdata (s.cr2Word l) := rfl
@[simp] theorem effect_rdRsv14 : effect l .rdRsv14 s = s.setRdata 0#32 := rfl
@[simp] theorem effect_rdRsv18 : effect l .rdRsv18 s = s.setRdata 0#32 := rfl
@[simp] theorem effect_rdRsv1c : effect l .rdRsv1c s = s.setRdata 0#32 := rfl
@[simp] theorem effect_wrSr : effect l (.wrSr w) s = s.clearErrors l w := rfl
@[simp] theorem effect_wrDr :
    effect l (.wrDr w) s = { s with tdr := wdataDATA l w, txe := false } := rfl
@[simp] theorem effect_wrBrr : effect l (.wrBrr w) s = { s with div := wdataDIV l w } := rfl
@[simp] theorem effect_wrCr1 : effect l (.wrCr1 w) s =
    if s.ue && !wdataUE l w then (s.storeCr1 l w).abortEngines else s.storeCr1 l w := rfl
@[simp] theorem effect_wrCr2 : effect l (.wrCr2 w) s = { s with stop2 := wdataSTOP2 l w } := rfl
@[simp] theorem effect_wrRsv14 : effect l (.wrRsv14 w) s = s := rfl
@[simp] theorem effect_wrRsv18 : effect l (.wrRsv18 w) s = s := rfl
@[simp] theorem effect_wrRsv1c : effect l (.wrRsv1c w) s = s := rfl

end effect

/-- `exec` is the operation at the default layout. -/
theorem exec_eq_execAt (i : Instr) (s : State) : exec i s = execAt Layout.default i s := by
  cases i <;> rfl

/-- Every operation is its effect behind the common pre-condition. -/
theorem exec_eq_busOp (i : Instr) (s : State) : exec i s = busOp (effect Layout.default i) s :=
  exec_eq_execAt i s

theorem execAt_running (l : Layout) (i : Instr) {s : State} (h : s.running = true) :
    execAt l i s = .next (effect l i s) := busOp_running h _

theorem execAt_next_iff (l : Layout) (i : Instr) (s t : State) :
    execAt l i s = .next t ↔ s.running = true ∧ t = effect l i s := busOp_next_iff _ s t

/-- An operation is refused only by the common pre-condition. -/
theorem execAt_refused {l : Layout} {i : Instr} {s : State} {r : Refusal}
    (h : execAt l i s = .refused r) : r = .inReset ∨ r = .clockGated := by
  unfold execAt at h
  rcases busOp_cases (effect l i) s with ⟨-, e⟩ | ⟨-, e⟩ | ⟨-, -, e⟩ <;> rw [e] at h <;>
    simp_all

theorem exec_running (i : Instr) {s : State} (h : s.running = true) :
    exec i s = .next (effect Layout.default i s) := by rw [exec_eq_execAt, execAt_running _ _ h]

theorem exec_next_iff (i : Instr) (s t : State) :
    exec i s = .next t ↔ s.running = true ∧ t = effect Layout.default i s := by
  rw [exec_eq_execAt, execAt_next_iff]

theorem exec_refused {i : Instr} {s : State} {r : Refusal} (h : exec i s = .refused r) :
    r = .inReset ∨ r = .clockGated := execAt_refused (exec_eq_execAt i s ▸ h)

end Sys2Proof.Machine
end

