-- ==== Sys2Proof/Laws/Clock.lean ====
section
/-! SUPPORT. What each engine can do in one clock cycle, said once: a timing-level bookkeeping of the
counters, and then at most the atomic steps listed. -/

namespace Sys2Proof.Machine

/-- An engine step cannot occur in reset or while the clock is gated (R270, R276). -/
theorem engine_not_running {p : Params} {e : Event} {s : State} (he : e.isEngine = true)
    (h : s.running = false) : runEvent p e s = .next s := by
  cases e <;> first
    | (simp [Event.isEngine] at he; done)
    | simp [runEvent, txLoad, txBit, txEnd, txChar, rxStart, rxBit, rxEnd, rxChar,
        State.txLoadEnabled, State.rxStartEnabled, h]

/-- The host access of a cycle is the run of it. -/
theorem accessIn_eq_runEvents (p : Params) (access : Option HostAccess) (s : State) :
    accessIn p access s = runEvents p (access.toList.map .host) s := by
  cases access with
  | none => rfl
  | some a => exact (runEvents_single p (.host a) s).symm

/-- A bus operation touches neither the reset input nor the clock gate. -/
theorem effect_running (l : Layout) (i : Instr) (s : State) :
    (effect l i s).running = s.running := by
  cases i with
  | wrCr1 w => rw [effect_wrCr1]; split <;> rfl
  | _ => rfl

theorem accessIn_running {p : Params} {access : Option HostAccess} {s t : State}
    (h : accessIn p access s = .next t) : t.running = s.running := by
  cases access with
  | none => cases h; rfl
  | some a =>
    rcases hostAccess_cases p a s with ⟨-, r, e, -⟩ | ⟨i, -, e⟩ <;> rw [accessIn, e] at h
    · cases h
    · obtain ⟨-, rfl⟩ := (execAt_next_iff _ _ _ _).1 h
      exact effect_running p.layout i s

/-- The transmitter's timing-level bookkeeping in one cycle. -/
def State.txTimed (s : State) (k : BitVec 16) (f : Nat) : State :=
  { s with txCnt := k, freeCtr := f }

/-- The receiver's timing-level bookkeeping in one cycle. -/
def State.rxTimed (s : State) (k : BitVec 16) (f : Nat) (b : Bool) : State :=
  { s with rxCnt := k, freeCtr := f, startPending := b }

/-- The cycle of a transmitter with a whole bit time counted (R147). -/
theorem txExpire_cases (c : Bool) (s : State) :
    (s.tsr = [] ∧ c = false ∧ txExpire c s = txEnd (s.txTimed 0#16 s.freeCtr)) ∨
    (s.tsr = [] ∧ c = true ∧
      txExpire c s = andThen (txEnd (s.txTimed 0#16 s.freeCtr)) txLoadAndDrive) ∨
    (s.tsr ≠ [] ∧ s.div = 0#16 ∧ txExpire c s = .next (s.txTimed 0#16 s.freeCtr)) ∨
    (s.tsr ≠ [] ∧ s.div ≠ 0#16 ∧ txExpire c s = txBit s) := by
  unfold txExpire
  split
  · rename_i ht
    cases c
    · refine .inl ⟨ht, rfl, ?_⟩
      show andThen (txEnd (s.txTimed 0#16 s.freeCtr)) (fun s' => .next s') = _
      generalize txEnd (s.txTimed 0#16 s.freeCtr) = r
      cases r <;> rfl
    · exact .inr (.inl ⟨ht, rfl, rfl⟩)
  · rename_i ht
    split
    · exact .inr (.inr (.inl ⟨by simp [ht], ‹_›, rfl⟩))
    · exact .inr (.inr (.inr ⟨by simp [ht], ‹_›, rfl⟩))

/-- Everything the transmitter can do in one cycle: counters, then the atomic steps named. -/
theorem txClock_cases (c : Bool) (s : State) :
    txClock c s = .next s ∨ (c = true ∧ s.txs = .tIdle ∧ txClock c s = txLoadAndDrive s) ∨
    ∃ (k : BitVec 16) (f : Nat), s.txs = .tShift ∧
      (txClock c s = .next (s.txTimed k f) ∨
       (s.tsr ≠ [] ∧ txClock c s = txBit (s.txTimed k f)) ∨
       (s.tsr = [] ∧ txClock c s = txEnd (s.txTimed k f)) ∨
       (s.tsr = [] ∧ c = true ∧
        txClock c s = andThen (txEnd (s.txTimed k f)) txLoadAndDrive)) := by
  unfold txClock
  split
  · rename_i hx
    cases c
    · exact .inl rfl
    · exact .inr (.inl ⟨rfl, hx, rfl⟩)
  · rename_i hx
    split
    · split
      · exact .inl rfl
      · rename_i hd
        refine .inr (.inr ?_)
        split
        · rcases txExpire_cases c s.useFree with ⟨a, -, e⟩ | ⟨a, b, e⟩ | ⟨-, b, -⟩ | ⟨a, -, e⟩
          · exact ⟨0#16, s.freeCtr + 1, hx, .inr (.inr (.inl ⟨a, e⟩))⟩
          · exact ⟨0#16, s.freeCtr + 1, hx, .inr (.inr (.inr ⟨a, b, e⟩))⟩
          · exact absurd b hd
          · exact ⟨s.txCnt, s.freeCtr + 1, hx, .inr (.inl ⟨a, e⟩)⟩
        · exact ⟨s.free, s.freeCtr + 1, hx, .inl rfl⟩
    · refine .inr (.inr ?_)
      split
      · rcases txExpire_cases c s with ⟨a, -, e⟩ | ⟨a, b, e⟩ | ⟨-, -, e⟩ | ⟨a, -, e⟩
        · exact ⟨0#16, s.freeCtr, hx, .inr (.inr (.inl ⟨a, e⟩))⟩
        · exact ⟨0#16, s.freeCtr, hx, .inr (.inr (.inr ⟨a, b, e⟩))⟩
        · exact ⟨0#16, s.freeCtr, hx, .inl e⟩
        · exact ⟨s.txCnt, s.freeCtr, hx, .inr (.inl ⟨a, e⟩)⟩
      · exact ⟨s.txCnt - 1#16, s.freeCtr, hx, .inl rfl⟩

/-- Everything the start-bit check and the sampling can do in one cycle: counters and the pending check,
then the atomic steps named. -/
theorem rxClock_cases (level edge : Level) (s : State) :
    ∃ (k : BitVec 16) (f : Nat) (b : Bool), (b = true → s.ue = true ∨ s.startPending = true) ∧
      (rxClock level edge s = .next (s.rxTimed k f b) ∨
       (s.rxs = .rIdle ∧ s.ue = true ∧
        rxClock level edge s = rxStart (s.rxTimed k f b)) ∨
       (s.rxs = .rRecv ∧
        rxClock level edge s = rxEnd (s.rxTimed k f b)) ∨
       (s.rxs = .rRecv ∧ s.div ≠ 0#16 ∧ s.rxcfg.need ≠ some s.rsr.length ∧ rxClock level edge s =
        andThen (rxBit level (s.rxTimed k f b)) rxEnd)) := by
  have check : s.ue = true → ∃ (k : BitVec 16) (f : Nat) (b : Bool),
      (b = true → s.ue = true ∨ s.startPending = true) ∧
      (beginStartCheck s = .next (s.rxTimed k f b) ∨
       beginStartCheck s = rxStart (s.rxTimed k f b)) := by
    intro hu
    unfold beginStartCheck startSample
    by_cases hh : s.div / 2#16 = 0#16
    · exact ⟨s.rxCnt, s.freeCtr, false, by simp, .inr (by simp [hh]; rfl)⟩
    · exact ⟨s.div / 2#16, s.freeCtr, true, fun _ => .inl hu, .inl (by simp [hh]; rfl)⟩
  have expire : ∀ f : Nat, s.rxcfg.need ≠ some s.rsr.length → ∃ (k : BitVec 16),
      rxExpire level (s.rxTimed s.rxCnt f s.startPending) = .next (s.rxTimed k f s.startPending) ∨
      (s.div ≠ 0#16 ∧ rxExpire level (s.rxTimed s.rxCnt f s.startPending) =
        andThen (rxBit level (s.rxTimed k f s.startPending)) rxEnd) := by
    intro f hne
    unfold rxExpire
    by_cases hd : s.div = 0#16
    · exact ⟨0#16, .inl (if_pos hd)⟩
    · exact ⟨s.rxCnt, .inr ⟨hd, if_neg hd⟩⟩
  unfold rxClock
  split
  · rename_i hx
    split
    · exact ⟨s.rxCnt, s.freeCtr, s.startPending, .inr, .inl rfl⟩
    · have hu : s.ue = true := by rename_i h; simpa using h
      split
      · obtain ⟨k, f, b, hb, h | h⟩ := check hu
        · exact ⟨k, f, b, hb, .inl h⟩
        · exact ⟨k, f, b, hb, .inr (.inl ⟨hx, hu, h⟩)⟩
      · split
        · split
          · unfold startSample
            cases level
            · exact ⟨0#16, s.freeCtr, false, by simp, .inr (.inl ⟨hx, hu, rfl⟩)⟩
            · exact ⟨0#16, s.freeCtr, false, by simp, .inl rfl⟩
          · exact ⟨s.rxCnt - 1#16, s.freeCtr, s.startPending, .inr, .inl rfl⟩
        · exact ⟨s.rxCnt, s.freeCtr, s.startPending, .inr, .inl rfl⟩
  · rename_i hx
    split
    · exact ⟨s.rxCnt, s.freeCtr, s.startPending, .inr, .inr (.inr (.inl ⟨hx, rfl⟩))⟩
    · rename_i hne
      split
      · split
        · exact ⟨s.rxCnt, s.freeCtr, s.startPending, .inr, .inl rfl⟩
        · split
          · obtain ⟨k, h | h⟩ := expire (s.freeCtr + 1) hne
            · exact ⟨k, s.freeCtr + 1, s.startPending, .inr, .inl h⟩
            · exact ⟨k, s.freeCtr + 1, s.startPending, .inr, .inr (.inr (.inr ⟨hx, h.1, hne, h.2⟩))⟩
          · exact ⟨s.free, s.freeCtr + 1, s.startPending, .inr, .inl rfl⟩
      · split
        · obtain ⟨k, h | h⟩ := expire s.freeCtr hne
          · exact ⟨k, s.freeCtr, s.startPending, .inr, .inl h⟩
          · exact ⟨k, s.freeCtr, s.startPending, .inr, .inr (.inr (.inr ⟨hx, h.1, hne, h.2⟩))⟩
        · exact ⟨s.rxCnt - 1#16, s.freeCtr, s.startPending, .inr, .inl rfl⟩

end Sys2Proof.Machine
end

