-- ==== Sys2Proof/Laws/Decode.lean ====
section
/-! SUPPORT. What the decoder answers on each selector, the bytes of a word, and the way from an offset
of the window to the port. -/

namespace Sys2Proof

/-- The operation of the same selector with another data word. -/
def Instr.withData (w : Word) : Instr → Instr
  | .rdSr => .rdSr
  | .rdDr => .rdDr
  | .rdBrr => .rdBrr
  | .rdCr1 => .rdCr1
  | .rdCr2 => .rdCr2
  | .rdRsv14 => .rdRsv14
  | .rdRsv18 => .rdRsv18
  | .rdRsv1c => .rdRsv1c
  | .wrSr _ => .wrSr w
  | .wrDr _ => .wrDr w
  | .wrBrr _ => .wrBrr w
  | .wrCr1 _ => .wrCr1 w
  | .wrCr2 _ => .wrCr2 w
  | .wrRsv14 _ => .wrRsv14 w
  | .wrRsv18 _ => .wrRsv18 w
  | .wrRsv1c _ => .wrRsv1c w

/-- The decoder reads the selector of the opcode map as its operation (R93, R94). -/
theorem decodeSelector_selectorOf (i : Instr) (w : Word) :
    decodeSelector (selectorOf i) w = .ok (i.withData w) := by
  cases i <;> simp only [selectorOf] <;> rfl

/-- Bit 7 of the selector says whether it is a write (R90, R91). -/
@[simp] theorem selW_selectorOf (i : Instr) : selW (selectorOf i) = i.isWrite := by
  cases i <;> simp only [selectorOf] <;> rfl

/-- Everything a selector can decode to (R94). -/
theorem decodeSelector_cases (sel : BitVec 8) (w : Word) :
    (sel.extractLsb' 5 2 ≠ 0b10#2 ∧ decodeSelector sel w = .error .badSize) ∨
    (sel.extractLsb' 5 2 = 0b10#2 ∧ sel.extractLsb' 0 2 ≠ 0b00#2 ∧
      decodeSelector sel w = .error .misaligned) ∨
    (sel.extractLsb' 5 2 = 0b10#2 ∧ sel.extractLsb' 0 2 = 0b00#2 ∧
      decodeSelector sel w = .ok (if selW sel then writeOf (slotReg (sel.extractLsb' 2 3)) w
        else readOf (slotReg (sel.extractLsb' 2 3)))) := by
  have h1 : (selOff sel).extractLsb' 0 2 = sel.extractLsb' 0 2 := by revert sel; decide
  have h2 : (selOff sel).extractLsb' 2 3 = sel.extractLsb' 2 3 := by revert sel; decide
  unfold decodeSelector decodeWith selSize sizeWord
  rw [h1, h2]
  by_cases ha : sel.extractLsb' 5 2 = 0b10#2
  · by_cases hb : sel.extractLsb' 0 2 = 0b00#2 <;> simp [ha, hb]
  · simp [ha]

/-- The opcode map read backwards (R93, R94). -/
theorem selectorOf_slotReg (sel : BitVec 8) (w : Word) (h1 : sel.extractLsb' 5 2 = 0b10#2)
    (h2 : sel.extractLsb' 0 2 = 0b00#2) :
    selectorOf (if selW sel then writeOf (slotReg (sel.extractLsb' 2 3)) w
      else readOf (slotReg (sel.extractLsb' 2 3))) = sel := by
  have h : ∀ r, selectorOf (writeOf r w) = selectorOf (writeOf r 0#32) := by intro r; cases r <;> rfl
  rw [apply_ite selectorOf, h]
  revert sel; decide

@[simp] theorem data_writeOf (r : Reg) (w : Word) : (writeOf r w).data = some w := by cases r <;> rfl
@[simp] theorem data_readOf (r : Reg) : (readOf r).data = none := by cases r <;> rfl

/-- The three fields of a selector put together again (R90). -/
theorem selector_fields (sel : BitVec 8) : BitVec.ofBool (selW sel) ++ selSize sel ++ selOff sel = sel := by
  revert sel; decide

/-- The transaction of an operation carries the selector of the opcode map (R61, R93). -/
@[simp] theorem transactionOf_selector (i : Instr) : (transactionOf i).selector = selectorOf i :=
  selector_fields _

/-- The word access at the offset of a slot is the operation on that slot (R70, R106). -/
theorem decodeTransaction_slot (r : Reg) (write : Bool) (w : Word) :
    decodeTransaction ⟨write, 0b10#2, r.offset, w⟩ =
      .ok (if write then writeOf r w else readOf r) := by
  have h0 : BitVec.ofBool write ++ 0b10#2 ++ r.offset =
      selectorOf (if write then writeOf r 0#32 else readOf r) := by
    cases r <;> cases write <;> decide
  have h : (⟨write, 0b10#2, r.offset, w⟩ : Transaction).selector =
      selectorOf (if write then writeOf r w else readOf r) := by
    unfold Transaction.selector; rw [h0]; cases r <;> cases write <;> rfl
  unfold decodeTransaction
  rw [h, decodeSelector_selectorOf]
  cases r <;> cases write <;> rfl

/-! ## Parameterized offsets (R94) -/

@[simp] theorem Params.default_offsets : Params.default.offsets = Offsets.default := rfl

/-- At the default offsets the table lookup is the fixed list of R94. -/
@[simp] theorem slotRegAt_default (slot : BitVec 3) : slotRegAt Offsets.default slot = slotReg slot := by
  revert slot; decide

@[simp] theorem offsetAt_default (r : Reg) : r.offsetAt Offsets.default = r.offset := by
  cases r <;> decide

@[simp] theorem decodeTransactionAt_default (t : Transaction) :
    decodeTransactionAt Offsets.default t = decodeTransaction t := by
  simp only [decodeTransactionAt, decodeSelectorAt, decodeTransaction, decodeSelector,
    funext slotRegAt_default]

@[simp] theorem transactionAt_default (i : Instr) :
    transactionAt Offsets.default i = transactionOf i := by
  cases i <;> simp only [transactionAt, transactionOf, selectorOf, offsetAt_default] <;> rfl

/-- What `Offsets.wf` says, read off. -/
theorem Offsets.wf_iff (o : Offsets) :
    o.wf = true ↔ (∀ off ∈ o.table, off.extractLsb' 0 2 = 0#2) ∧ o.table.Nodup := by
  simp [Offsets.wf]

theorem slotOffset_extract (off : BitVec 5) (h : off.extractLsb' 0 2 = 0#2) :
    slotOffset (off.extractLsb' 2 3) = off := by
  revert off; decide

@[simp] theorem slotOffset_aligned (slot : BitVec 3) : (slotOffset slot).extractLsb' 0 2 = 0#2 := by
  revert slot; decide

@[simp] theorem slotOffset_slot (slot : BitVec 3) : (slotOffset slot).extractLsb' 2 3 = slot := by
  revert slot; decide

theorem Offsets.mem_freeSlots (o : Offsets) (slot : BitVec 3) :
    slot ∈ o.freeSlots ↔ slotOffset slot ∉ o.table := by
  have : slot ∈ (List.range 8).map (BitVec.ofNat 3) := by revert slot; decide
  simp [Offsets.freeSlots, this]

theorem Offsets.freeSlots_nodup (o : Offsets) : o.freeSlots.Nodup :=
  List.Nodup.filter _ (by decide)

/-- Five registers at five aligned offsets leave three of the eight slots. -/
theorem Offsets.freeSlots_length (o : Offsets) (h : o.wf = true) : o.freeSlots.length = 3 := by
  obtain ⟨ha, hn⟩ := (o.wf_iff).1 h
  have hf : o.freeSlots.toFinset = (o.table.map (BitVec.extractLsb' 2 3)).toFinsetᶜ := by
    ext slot
    rw [List.mem_toFinset, Offsets.mem_freeSlots, Finset.mem_compl, List.mem_toFinset, not_iff_not,
      List.mem_map]
    constructor
    · exact fun hm => ⟨_, hm, slotOffset_slot slot⟩
    · rintro ⟨off, hm, rfl⟩
      rwa [slotOffset_extract off (ha off hm)]
  have hm : (o.table.map (BitVec.extractLsb' 2 3)).Nodup := by
    refine hn.map_on fun a hma b hmb hab => ?_
    rw [← slotOffset_extract a (ha a hma), hab, slotOffset_extract b (ha b hmb)]
  have hc := congrArg Finset.card hf
  have h8 : Fintype.card (BitVec 3) = 8 := by decide
  rw [List.toFinset_card_of_nodup o.freeSlots_nodup, Finset.card_compl,
    List.toFinset_card_of_nodup hm, List.length_map, h8] at hc
  exact hc

/-- Under every legal table of offsets each of the eight slots lies at its own aligned offset (R94). -/
theorem slotRegAt_offsetAt (o : Offsets) (h : o.wf = true) (r : Reg) :
    (r.offsetAt o).extractLsb' 0 2 = 0#2 ∧ slotRegAt o ((r.offsetAt o).extractLsb' 2 3) = r := by
  obtain ⟨ha, hn⟩ := (o.wf_iff).1 h
  have free : ∀ k, k < 3 → o.freeSlots.idxOf (o.freeSlots.getD k 0#3) = k ∧
      slotOffset (o.freeSlots.getD k 0#3) ∉ o.table := by
    intro k hk
    have hl := o.freeSlots_length h
    rw [List.getD_eq_getElem _ _ (by omega)]
    exact ⟨o.freeSlots_nodup.idxOf_getElem k (by omega),
      (o.mem_freeSlots _).1 (List.getElem_mem _)⟩
  have reserved : ∀ k, k < 3 → slotRegAt o (o.freeSlots.getD k 0#3) = reservedReg k := by
    intro k hk
    obtain ⟨hi, hm⟩ := free k hk
    simp only [Offsets.table, List.mem_cons, List.not_mem_nil, or_false, not_or] at hm
    unfold slotRegAt
    rw [if_neg hm.1, if_neg hm.2.1, if_neg hm.2.2.1, if_neg hm.2.2.2.1, if_neg hm.2.2.2.2, hi]
  have mapped : ∀ off ∈ o.table, off.extractLsb' 0 2 = 0#2 ∧
      slotOffset (off.extractLsb' 2 3) = off :=
    fun off hm => ⟨ha off hm, slotOffset_extract off (ha off hm)⟩
  simp only [Offsets.table, List.nodup_cons, List.mem_cons, List.not_mem_nil, or_false, not_or,
    forall_eq_or_imp, forall_eq] at hn mapped
  cases r <;> simp only [Reg.offsetAt, slotOffset_aligned, slotOffset_slot, true_and]
  case rsv14 => exact reserved 0 (by omega)
  case rsv18 => exact reserved 1 (by omega)
  case rsv1c => exact reserved 2 (by omega)
  all_goals exact ⟨by simp [mapped], by unfold slotRegAt; grind⟩

/-- The selector's fields, from its parts (R90). -/
theorem selector_parts (w : Bool) (z : BitVec 2) (off : BitVec 5) :
    selW (BitVec.ofBool w ++ z ++ off) = w ∧ selSize (BitVec.ofBool w ++ z ++ off) = z ∧
      selOff (BitVec.ofBool w ++ z ++ off) = off := by
  revert w z off; decide

/-- The word access at the offset of a slot is the operation on that slot, under every legal table of
offsets (R94). -/
theorem decodeTransactionAt_slot (o : Offsets) (h : o.wf = true) (r : Reg) (write : Bool) (w : Word) :
    decodeTransactionAt o ⟨write, 0b10#2, r.offsetAt o, w⟩ =
      .ok (if write then writeOf r w else readOf r) := by
  obtain ⟨h1, h2⟩ := slotRegAt_offsetAt o h r
  obtain ⟨e1, e2, e3⟩ := selector_parts write 0b10#2 (r.offsetAt o)
  simp [decodeTransactionAt, decodeSelectorAt, decodeWith, Transaction.selector, e1, e2, e3, h1, h2,
    sizeWord]

/-- An operation from its slot, direction and data word. -/
theorem instr_of_reg (i : Instr) :
    (if i.isWrite then writeOf i.reg (i.data.getD 0#32) else readOf i.reg) = i := by
  cases i <;> rfl

@[simp] theorem selSize_selectorOf (i : Instr) : selSize (selectorOf i) = 0b10#2 := by
  cases i <;> simp only [selectorOf] <;> rfl

@[simp] theorem selOff_selectorOf_aligned (i : Instr) :
    (selOff (selectorOf i)).extractLsb' 0 2 = 0#2 := by
  cases i <;> simp only [selectorOf] <;> rfl

/-- A word is put together again from its bytes. -/
theorem bytesToWord_wordToBytes (w : Word) :
    bytesToWord (w.extractLsb' 0 8) (w.extractLsb' 8 8) (w.extractLsb' 16 8) (w.extractLsb' 24 8) =
      w := by
  apply BitVec.eq_of_getLsbD_eq
  intro k hk
  unfold bytesToWord
  simp only [BitVec.getLsbD_append, BitVec.getLsbD_extractLsb']
  interval_cases k <;> simp

/-- The bytes of a word are the ones it was put together from. -/
theorem wordToBytes_bytesToWord (a b c d : Byte) :
    wordToBytes (bytesToWord a b c d) = [a, b, c, d] := by
  unfold wordToBytes bytesToWord
  simp only [List.cons.injEq, and_true]
  refine ⟨?_, ?_, ?_, ?_⟩ <;>
  · apply BitVec.eq_of_getLsbD_eq
    intro k hk
    simp only [BitVec.getLsbD_append, BitVec.getLsbD_extractLsb']
    interval_cases k <;> simp

namespace Machine

/-- An aligned word access at an offset of a legally placed window reaches the port with that offset. -/
theorem route_offset (p : Params) (w : Bool) (o : BitVec 5) (d : Word) (hp : p.wf = true)
    (ho : o.extractLsb' 0 2 = 0#2) :
    route p ⟨w, 0b10#2, p.uartBase + o.setWidth 32, d⟩ = .ok ⟨w, 0b10#2, o, d⟩ := by
  simp only [Params.wf, Bool.and_eq_true, decide_eq_true_eq] at hp
  replace hp := hp.1.1
  have hlt : o.toNat < 32 := o.isLt
  have ha : (p.uartBase + o.setWidth 32).toNat = p.uartBase.toNat + o.toNat := by
    have := hp.2
    simp [BitVec.toNat_add, Config.window] at *
    omega
  have h2 : (o.setWidth 32).extractLsb' 0 2 = 0#2 := by rw [← ho]; clear ho ha hlt; revert o; decide
  have h3 : (o.setWidth 32).extractLsb' 0 5 = o := by clear ho h2 ha hlt; revert o; decide
  have h1 : p.uartBase + o.setWidth 32 - p.uartBase = o.setWidth 32 := by
    rw [BitVec.add_comm, BitVec.add_sub_cancel]
  simp only [route, h1, h2, h3, ha]
  simp [sizeWord, Config.window, hlt]

end Machine

end Sys2Proof
end

