-- ==== Sys2Proof/Laws/Operands.lean ====
section
/-! SUPPORT. Fields in their places, the read values bit by bit, the write fields bit by bit, what a legal
layout gives, lengths of frames, parity as a
count of ones, and the character read out of received levels. -/

namespace Sys2Proof.Machine

/-! ## Fields in their places -/

theorem placeField_getLsbD {n : Nat} (pos : Nat) (v : BitVec n) (k : Nat) :
    (placeField pos v).getLsbD k = (decide (k < 32) && decide (pos ≤ k) && v.getLsbD (k - pos)) := by
  unfold placeField
  rw [BitVec.getLsbD_shiftLeft, BitVec.getLsbD_setWidth]
  by_cases h1 : k < 32
  · have h3 : k - pos < 32 := Nat.lt_of_le_of_lt (Nat.sub_le _ _) h1
    by_cases h2 : pos ≤ k
    · simp [h1, h2, h3, Nat.not_lt.2 h2]
    · simp [h2, Nat.not_le.1 h2]
  · simp [h1]

theorem placeBit_getLsbD (pos : Nat) (b : Bool) (k : Nat) :
    (placeBit pos b).getLsbD k = (decide (k < 32) && decide (k = pos) && b) := by
  unfold placeBit
  rw [placeField_getLsbD]
  by_cases h1 : k < 32 <;> by_cases h2 : k = pos <;> simp [h1, h2, BitVec.getLsbD_ofBool]
  omega

theorem maskOf_getLsbD (bits : List Nat) (k : Nat) :
    (maskOf bits).getLsbD k = (decide (k < 32) && decide (k ∈ bits)) := by
  induction bits with
  | nil => simp [maskOf]
  | cons b bs ih =>
    show (placeBit b true ||| maskOf bs).getLsbD k = _
    rw [BitVec.getLsbD_or, ih, placeBit_getLsbD]
    by_cases h1 : k < 32 <;> simp [h1]

/-- What `bitsFit` says, read off. -/
theorem bitsFit_iff (bits : List Nat) : bitsFit bits = true ↔ (∀ k ∈ bits, k < 32) ∧ bits.Nodup := by
  simp [bitsFit]

theorem layout_wf_iff (l : Layout) :
    l.wf = true ↔ bitsFit l.srBits = true ∧ bitsFit l.drBits = true ∧ bitsFit l.brrBits = true ∧
      bitsFit l.cr1Bits = true ∧ bitsFit l.cr2Bits = true := by
  simp [Layout.wf, and_assoc]

@[simp] theorem layout_default_wf : Layout.default.wf = true := by decide

@[simp] theorem Params.default_layout : Params.default.layout = Layout.default := rfl

/-! ## Read values, at any layout -/

/-- `SR` bit by bit (R25). -/
theorem srWord_getLsbD (s : State) (l : Layout) (k : Nat) :
    (s.srWord l).getLsbD k = (decide (k < 32) &&
      ((decide (k = l.txe) && s.txe) || (decide (k = l.tc) && s.tc) || (decide (k = l.rxne) && s.rxne) ||
       (decide (k = l.ore) && s.ore) || (decide (k = l.fe) && s.fe) || (decide (k = l.pe) && s.pe))) := by
  simp only [State.srWord, BitVec.getLsbD_or, placeBit_getLsbD, Bool.and_assoc, Bool.and_or_distrib_left]

/-- `CR1` bit by bit (R28). -/
theorem cr1Word_getLsbD (s : State) (l : Layout) (k : Nat) :
    (s.cr1Word l).getLsbD k = (decide (k < 32) &&
      ((decide (k = l.ue) && s.ue) || (decide (l.wl ≤ k) && s.wl.getLsbD (k - l.wl)) ||
       (decide (k = l.pce) && s.pce) || (decide (k = l.ps) && s.ps) ||
       (decide (k = l.txeie) && s.txeie) || (decide (k = l.rxneie) && s.rxneie))) := by
  simp only [State.cr1Word, BitVec.getLsbD_or, placeBit_getLsbD, placeField_getLsbD, Bool.and_assoc,
    Bool.and_or_distrib_left]

/-- `CR2` bit by bit (R29). -/
theorem cr2Word_getLsbD (s : State) (l : Layout) (k : Nat) :
    (s.cr2Word l).getLsbD k = (decide (k < 32) && decide (k = l.stop2) && s.stop2) :=
  placeBit_getLsbD _ _ _

/-- `BRR` bit by bit (R27). -/
theorem brrWord_getLsbD (s : State) (l : Layout) (k : Nat) :
    (s.brrWord l).getLsbD k = (decide (k < 32) && decide (l.div ≤ k) && s.div.getLsbD (k - l.div)) :=
  placeField_getLsbD _ _ _

/-- `DR` bit by bit (R26). -/
theorem drWord_getLsbD (s : State) (l : Layout) (k : Nat) :
    (s.drWord l).getLsbD k = (decide (k < 32) && decide (l.data ≤ k) && s.rdr.getLsbD (k - l.data)) :=
  placeField_getLsbD _ _ _

/-! ## Read values at the default layout: the concatenations of R100 -/

theorem srWord_default (s : State) : s.srWord Layout.default =
    (BitVec.ofBool s.txe ++ BitVec.ofBool s.tc ++ BitVec.ofBool s.rxne ++ 0#1 ++ BitVec.ofBool s.ore ++
      0#1 ++ BitVec.ofBool s.fe ++ BitVec.ofBool s.pe).setWidth 32 := by
  unfold State.srWord
  generalize s.txe = a, s.tc = b, s.rxne = c, s.ore = d, s.fe = e, s.pe = f
  revert a b c d e f; decide

theorem cr1Word_default (s : State) : s.cr1Word Layout.default =
    (BitVec.ofBool s.ue ++ s.wl ++ BitVec.ofBool s.pce ++ BitVec.ofBool s.ps ++ 0#1 ++
      BitVec.ofBool s.txeie ++ 0#1 ++ BitVec.ofBool s.rxneie ++ 0#5).setWidth 32 := by
  unfold State.cr1Word
  generalize s.ue = a, s.wl = b, s.pce = c, s.ps = d, s.txeie = e, s.rxneie = f
  revert a b c d e f; decide

theorem cr2Word_default (s : State) :
    s.cr2Word Layout.default = (BitVec.ofBool s.stop2 ++ 0#13).setWidth 32 := by
  unfold State.cr2Word
  generalize s.stop2 = a
  revert a; decide

theorem brrWord_default (s : State) : s.brrWord Layout.default = s.div.setWidth 32 := by
  simp [State.brrWord, placeField, Layout.default]

theorem drWord_default (s : State) : s.drWord Layout.default = s.rdr.setWidth 32 := by
  simp [State.drWord, placeField, Layout.default]

/-! ## Write fields, at any layout -/

theorem wdataDATA_getLsbD (l : Layout) (w : Word) (k : Nat) :
    (wdataDATA l w).getLsbD k = (decide (k < 9) && w.getLsbD (l.data + k)) := by
  simp [wdataDATA]

theorem wdataDIV_getLsbD (l : Layout) (w : Word) (k : Nat) :
    (wdataDIV l w).getLsbD k = (decide (k < 16) && w.getLsbD (l.div + k)) := by
  simp [wdataDIV]

theorem wdataWL_getLsbD (l : Layout) (w : Word) (k : Nat) :
    (wdataWL l w).getLsbD k = (decide (k < 2) && w.getLsbD (l.wl + k)) := by
  simp [wdataWL]

/-- Writing back what `CR1` reads stores what was there (R104, R157 (a)). -/
theorem wdataWL_of_bits (l : Layout) (w : Word) (wl : BitVec 2) (h0 : w.getLsbD l.wl = wl.getLsbD 0)
    (h1 : w.getLsbD (l.wl + 1) = wl.getLsbD 1) : wdataWL l w = wl := by
  apply BitVec.eq_of_getLsbD_eq
  intro k hk
  rw [wdataWL_getLsbD]
  interval_cases k
  · simpa using h0
  · simpa using h1

/-! ## Legal layouts: no field hides another -/

/-- A field in its place is 0 at every bit that is not its own. -/
theorem placeField_elsewhere {n : Nat} (pos : Nat) (v : BitVec n) {k : Nat} (hk : k ∉ List.range' pos n) :
    (placeField pos v).getLsbD k = false := by
  rw [placeField_getLsbD]
  by_cases h : pos ≤ k
  · rw [BitVec.getLsbD_of_ge _ _ (by simp [List.mem_range'_1] at hk; omega)]; simp
  · simp [h]

/-- A field in its place, read at its own bits. -/
theorem placeField_at {n : Nat} (pos : Nat) (v : BitVec n) {k : Nat} (h : pos + n ≤ 32) (hk : k < n) :
    (placeField pos v).getLsbD (pos + k) = v.getLsbD k := by
  rw [placeField_getLsbD]; simp [show pos + k < 32 by omega]

/-- A field put in its place and cut out again. -/
theorem extract_placeField {n : Nat} (pos : Nat) (v : BitVec n) (h : pos + n ≤ 32) :
    (placeField pos v).extractLsb' pos n = v := by
  apply BitVec.eq_of_getLsbD_eq
  intro k hk
  rw [BitVec.getLsbD_extractLsb', placeField_at pos v h hk]
  simp [hk]

@[simp] theorem placeField_zero {n : Nat} (pos : Nat) : placeField pos (0#n) = 0#32 := by
  simp [placeField]

@[simp] theorem placeBit_false (pos : Nat) : placeBit pos false = 0#32 := placeField_zero pos

/-- A field cut out of a word and put back is the word masked to it. -/
theorem placeField_extract {n : Nat} (pos : Nat) (w : Word) (h : pos + n ≤ 32) :
    placeField pos (w.extractLsb' pos n) = w &&& maskOf (List.range' pos n) := by
  apply BitVec.eq_of_getLsbD_eq
  intro k hk
  rw [BitVec.getLsbD_and, maskOf_getLsbD]
  by_cases hm : k ∈ List.range' pos n
  · have hm' := List.mem_range'_1.1 hm
    obtain ⟨j, rfl⟩ := Nat.exists_eq_add_of_le hm'.1
    rw [placeField_at pos _ h (by omega)]
    simp [hk, hm]; omega
  · rw [placeField_elsewhere pos _ hm]; simp [hm]

/-- A bit taken out of a word and put back is the word masked to it. -/
theorem placeBit_getLsbD_eq_and (pos : Nat) (w : Word) : placeBit pos (w.getLsbD pos) = w &&& maskOf [pos] := by
  apply BitVec.eq_of_getLsbD_eq
  intro k hk
  rw [BitVec.getLsbD_and, maskOf_getLsbD, placeBit_getLsbD]
  by_cases h : k = pos <;> simp [h, Bool.and_comm]
/-- A byte put in the place of `DATA` is stored by `WR_DR` with a 0 above it. -/
theorem wdataDATA_placeField {l : Layout} (h : l.data + 9 ≤ 32) (b : Byte) :
    wdataDATA l (placeField l.data b) = b.setWidth 9 := by
  apply BitVec.eq_of_getLsbD_eq
  intro k hk
  rw [wdataDATA_getLsbD, placeField_getLsbD, BitVec.getLsbD_setWidth]
  simp [hk, show l.data + k < 32 by omega]

/-- The low byte of the character that `DR` reads. -/
theorem drWord_byte (s : State) {l : Layout} (h : l.data + 9 ≤ 32) :
    (s.drWord l).extractLsb' l.data 8 = s.rdr.setWidth 8 := by
  apply BitVec.eq_of_getLsbD_eq
  intro k hk
  rw [BitVec.getLsbD_extractLsb', drWord_getLsbD, BitVec.getLsbD_setWidth]
  simp [hk, show l.data + k < 32 by omega]

/-- The positions of `SR` in a legal layout. -/
theorem srBits_iff (l : Layout) (h : l.wf = true) :
    (l.txe < 32 ∧ l.tc < 32 ∧ l.rxne < 32 ∧ l.ore < 32 ∧ l.fe < 32 ∧ l.pe < 32) ∧
      (l.txe ≠ l.tc ∧ l.txe ≠ l.rxne ∧ l.txe ≠ l.ore ∧ l.txe ≠ l.fe ∧ l.txe ≠ l.pe) ∧
      (l.tc ≠ l.rxne ∧ l.tc ≠ l.ore ∧ l.tc ≠ l.fe ∧ l.tc ≠ l.pe) ∧
      (l.rxne ≠ l.ore ∧ l.rxne ≠ l.fe ∧ l.rxne ≠ l.pe) ∧ (l.ore ≠ l.fe ∧ l.ore ≠ l.pe) ∧
      l.fe ≠ l.pe := by
  have := ((bitsFit_iff _).1 ((layout_wf_iff l).1 h).1)
  simpa [Layout.srBits, and_assoc] using this

/-- The positions of `CR1` in a legal layout. -/
theorem cr1Bits_iff (l : Layout) (h : l.wf = true) :
    (l.ue < 32 ∧ l.wl + 1 < 32 ∧ l.pce < 32 ∧ l.ps < 32 ∧ l.txeie < 32 ∧ l.rxneie < 32) ∧
      (l.ue ≠ l.wl ∧ l.ue ≠ l.wl + 1 ∧ l.ue ≠ l.pce ∧ l.ue ≠ l.ps ∧ l.ue ≠ l.txeie ∧ l.ue ≠ l.rxneie) ∧
      (l.wl ≠ l.pce ∧ l.wl ≠ l.ps ∧ l.wl ≠ l.txeie ∧ l.wl ≠ l.rxneie) ∧
      (l.wl + 1 ≠ l.pce ∧ l.wl + 1 ≠ l.ps ∧ l.wl + 1 ≠ l.txeie ∧ l.wl + 1 ≠ l.rxneie) ∧
      (l.pce ≠ l.ps ∧ l.pce ≠ l.txeie ∧ l.pce ≠ l.rxneie) ∧ (l.ps ≠ l.txeie ∧ l.ps ≠ l.rxneie) ∧
      l.txeie ≠ l.rxneie := by
  have := ((bitsFit_iff _).1 ((layout_wf_iff l).1 h).2.2.2.1)
  simp [Layout.cr1Bits, List.range'_succ] at this
  grind

/-- `DATA` lies within `DR`. -/
theorem data_fits {l : Layout} (h : l.wf = true) : l.data + 9 ≤ 32 := by
  have := ((bitsFit_iff _).1 ((layout_wf_iff l).1 h).2.1).1 (l.data + 8) (by simp [Layout.drBits])
  omega

/-- `DIV` lies within `BRR`. -/
theorem div_fits {l : Layout} (h : l.wf = true) : l.div + 16 ≤ 32 := by
  have := ((bitsFit_iff _).1 ((layout_wf_iff l).1 h).2.2.1).1 (l.div + 15) (by simp [Layout.brrBits])
  omega

/-- `STOP2` lies within `CR2`. -/
theorem stop2_fits {l : Layout} (h : l.wf = true) : l.stop2 < 32 :=
  ((bitsFit_iff _).1 ((layout_wf_iff l).1 h).2.2.2.2).1 _ (by simp [Layout.cr2Bits])

/-- In a legal layout each flag reads back at its own position, and 0 elsewhere (R25). -/
theorem srWord_fields (s : State) {l : Layout} (h : l.wf = true) :
    (s.srWord l).getLsbD l.txe = s.txe ∧ (s.srWord l).getLsbD l.tc = s.tc ∧
      (s.srWord l).getLsbD l.rxne = s.rxne ∧ (s.srWord l).getLsbD l.ore = s.ore ∧
      (s.srWord l).getLsbD l.fe = s.fe ∧ (s.srWord l).getLsbD l.pe = s.pe := by
  have := srBits_iff l h
  simp only [srWord_getLsbD]
  refine ⟨?_, ?_, ?_, ?_, ?_, ?_⟩ <;> grind

/-- Every bit of `SR` that no flag takes reads 0 (R25). -/
theorem srWord_elsewhere (s : State) (l : Layout) {k : Nat} (hk : k ∉ l.srBits) :
    (s.srWord l).getLsbD k = false := by
  simp [Layout.srBits] at hk
  rw [srWord_getLsbD]; simp [hk]

/-- A field of two bits. -/
theorem range'_two (n : Nat) : List.range' n 2 = [n, n + 1] := by simp [List.range'_succ]

/-- In a legal layout each field of `CR1` reads back at its own position: writing back what `CR1` reads stores
what was there (R28, R104, R157 (a)). -/
theorem cr1Word_fields (s : State) {l : Layout} (h : l.wf = true) :
    wdataUE l (s.cr1Word l) = s.ue ∧ wdataWL l (s.cr1Word l) = s.wl ∧ wdataPCE l (s.cr1Word l) = s.pce ∧
      wdataPS l (s.cr1Word l) = s.ps ∧ wdataTXEIE l (s.cr1Word l) = s.txeie ∧
      wdataRXNEIE l (s.cr1Word l) = s.rxneie := by
  have := cr1Bits_iff l h
  have hw : ∀ k, k ≠ l.wl → k ≠ l.wl + 1 → (decide (l.wl ≤ k) && s.wl.getLsbD (k - l.wl)) = false := by
    intro k h0 h1
    by_cases hk : l.wl ≤ k
    · rw [BitVec.getLsbD_of_ge _ _ (by omega)]; simp
    · simp [hk]
  simp only [wdataUE, wdataPCE, wdataPS, wdataTXEIE, wdataRXNEIE]
  refine ⟨?_, wdataWL_of_bits _ _ _ ?_ ?_, ?_, ?_, ?_, ?_⟩ <;> rw [cr1Word_getLsbD] <;> grind

/-- Every bit of `CR1` that no field takes reads 0 (R28). -/
theorem cr1Word_elsewhere (s : State) (l : Layout) {k : Nat} (hk : k ∉ l.cr1Bits) :
    (s.cr1Word l).getLsbD k = false := by
  simp [Layout.cr1Bits, range'_two] at hk
  rw [cr1Word_getLsbD]
  have : (decide (l.wl ≤ k) && s.wl.getLsbD (k - l.wl)) = false := by
    by_cases h : l.wl ≤ k
    · rw [BitVec.getLsbD_of_ge _ _ (by omega)]; simp
    · simp [h]
  simp [hk, this]

/-- `CR1` after a write reads as written, masked to the implemented bits (R155, R156). -/
theorem cr1Word_storeCr1 (s : State) {l : Layout} (h : l.wf = true) (w : Word) :
    (s.storeCr1 l w).cr1Word l = w &&& maskOf l.cr1Bits := by
  have hb := cr1Bits_iff l h
  apply BitVec.eq_of_getLsbD_eq
  intro k hk
  rw [BitVec.getLsbD_and, maskOf_getLsbD, cr1Word_getLsbD]
  simp only [State.storeCr1_ue, State.storeCr1_wl, State.storeCr1_pce, State.storeCr1_ps,
    State.storeCr1_txeie, State.storeCr1_rxneie, wdataUE, wdataPCE, wdataPS, wdataTXEIE, wdataRXNEIE,
    wdataWL_getLsbD, Layout.cr1Bits, range'_two, List.cons_append, List.nil_append, List.mem_cons,
    List.not_mem_nil, or_false]
  by_cases hw : k = l.wl ∨ k = l.wl + 1
  · rcases hw with rfl | rfl <;> simp <;> grind
  · have : (decide (l.wl ≤ k) && (decide (k - l.wl < 2) && w.getLsbD (l.wl + (k - l.wl)))) = false := by
      by_cases h1 : l.wl ≤ k <;> simp [h1]
      omega
    have e : ∀ i, (decide (k = i) && w.getLsbD i) = (decide (k = i) && w.getLsbD k) := by
      intro i; by_cases hi : k = i <;> simp [hi]
    rw [this]
    simp only [e]
    cases w.getLsbD k <;> simp [hk, not_or.1 hw, Bool.or_assoc]

/-- `SETBITS CR1` with the mask of one field's bit sets that bit and leaves every other field (R222, R163). -/
theorem storeCr1_setBit (s : State) {l : Layout} (hl : l.wf = true) (v : Word) (pos : Nat) :
    (s.setRdata v).storeCr1 l (s.cr1Word l ||| placeBit pos true) =
      { s with
        rdata := v
        ue := s.ue || decide (l.ue = pos)
        wl := s.wl ||| (BitVec.ofBool (decide (l.wl + 1 = pos)) ++ BitVec.ofBool (decide (l.wl = pos)))
        pce := s.pce || decide (l.pce = pos)
        ps := s.ps || decide (l.ps = pos)
        txeie := s.txeie || decide (l.txeie = pos)
        rxneie := s.rxneie || decide (l.rxneie = pos) } := by
  obtain ⟨a1, a2, a3, a4, a5, a6⟩ := cr1Word_fields s hl
  have hp := cr1Bits_iff l hl
  simp only [wdataUE, wdataPCE, wdataPS, wdataTXEIE, wdataRXNEIE] at a1 a3 a4 a5 a6
  have ewl : wdataWL l (s.cr1Word l ||| placeBit pos true) =
      s.wl ||| (BitVec.ofBool (decide (l.wl + 1 = pos)) ++ BitVec.ofBool (decide (l.wl = pos))) := by
    have h2' := fun i => congrArg (BitVec.getLsbD · i) a2
    simp only [wdataWL_getLsbD] at h2'
    apply BitVec.eq_of_getLsbD_eq
    intro k hk
    rw [wdataWL_getLsbD, BitVec.getLsbD_or, BitVec.getLsbD_or, placeBit_getLsbD, BitVec.getLsbD_append]
    interval_cases k
    · have := h2' 0
      simp at this
      simp only [Nat.add_zero]
      rw [this]; simp [show l.wl < 32 by omega]
    · have := h2' 1
      simp at this
      rw [this]; simp [hp]
  simp only [State.storeCr1, ewl, wdataUE, wdataPCE, wdataPS, wdataTXEIE, wdataRXNEIE,
    BitVec.getLsbD_or, placeBit_getLsbD, a1, a3, a4, a5, a6]
  simp [hp]

/-! ## Word lengths -/

theorem nbits_eq_none_iff (wl : BitVec 2) : nbits wl = none ↔ wl = 0b11#2 := by
  revert wl; decide

/-- The four codes of `WL` (R28). -/
theorem nbits_cases (wl : BitVec 2) :
    (wl = 0b00#2 ∧ nbits wl = some 8) ∨ (wl = 0b01#2 ∧ nbits wl = some 7) ∨
    (wl = 0b10#2 ∧ nbits wl = some 9) ∨ (wl = 0b11#2 ∧ nbits wl = none) := by
  revert wl; decide

theorem nbits_bounds {wl : BitVec 2} {n : Nat} (h : nbits wl = some n) : 7 ≤ n ∧ n ≤ 9 := by
  rcases nbits_cases wl with ⟨-, e⟩ | ⟨-, e⟩ | ⟨-, e⟩ | ⟨-, e⟩ <;> rw [e] at h <;> cases h <;> omega

theorem need_eq {c : RxCfg} {n : Nat} (h : nbits c.wl = some n) :
    c.need = some (n + c.pce.toNat + 1) := by simp [RxCfg.need, rxlen, h]

theorem need_bounds {c : RxCfg} {m : Nat} (h : c.need = some m) : 8 ≤ m ∧ m ≤ 11 := by
  unfold RxCfg.need rxlen at h
  cases hn : nbits c.wl with
  | none => simp [hn] at h
  | some n =>
    have := nbits_bounds hn
    simp [hn] at h
    cases hp : c.pce <;> simp [hp] at h <;> omega

/-! ## Frames -/

@[simp] theorem dataLevels_length (c : BitVec 9) (n : Nat) : (dataLevels c n).length = n := by
  simp [dataLevels]

theorem dataLevels_getElem? (c : BitVec 9) (n k : Nat) (h : k < n) :
    (dataLevels c n)[k]? = some (c.getLsbD k) := by
  simp [dataLevels, h]

theorem frame_eq_none_iff (v : BitVec 9) (wl : BitVec 2) (pce ps stop2 : Bool) :
    frame v wl pce ps stop2 = none ↔ wl = 0b11#2 := by
  rw [← nbits_eq_none_iff]; unfold frame; cases nbits wl <;> simp

theorem frame_eq {wl : BitVec 2} {n : Nat} (h : nbits wl = some n) (v : BitVec 9)
    (pce ps stop2 : Bool) :
    frame v wl pce ps stop2 = some ([false] ++ dataLevels v n ++
      (if pce then [par v n ps] else []) ++ [true] ++ (if stop2 then [true] else [])) := by
  simp [frame, h]

theorem frame_length {v : BitVec 9} {wl : BitVec 2} {n : Nat} {pce ps stop2 : Bool}
    {f : List Level} (h : nbits wl = some n) (hf : frame v wl pce ps stop2 = some f) :
    f.length = 1 + n + pce.toNat + 1 + stop2.toNat := by
  rw [frame_eq h] at hf
  cases hf
  cases pce <;> cases stop2 <;> simp <;> omega

/-- Every frame has 9 to 13 levels (R43, R96). -/
theorem frame_bounds {v : BitVec 9} {wl : BitVec 2} {pce ps stop2 : Bool} {f : List Level}
    (hf : frame v wl pce ps stop2 = some f) : 9 ≤ f.length ∧ f.length ≤ 13 := by
  cases hn : nbits wl with
  | none => simp [frame, hn] at hf
  | some n =>
    have hl := frame_length hn hf
    have := nbits_bounds hn
    have h1 : pce.toNat ≤ 1 := Bool.toNat_le pce
    have h2 : stop2.toNat ≤ 1 := Bool.toNat_le stop2
    omega

/-- Every frame ends in a stop bit (R95). -/
theorem frame_getLast? {v : BitVec 9} {wl : BitVec 2} {pce ps stop2 : Bool} {f : List Level}
    (hf : frame v wl pce ps stop2 = some f) : f.getLast? = some true := by
  cases hn : nbits wl with
  | none => simp [frame, hn] at hf
  | some n => rw [frame_eq hn] at hf; cases hf; cases stop2 <;> simp [List.getLast?_append, List.getLast?_cons]

/-! ## Parity as a count of ones -/

/-- An exclusive-or over levels is the oddness of the number of 1s (R97). -/
theorem foldr_xor_eq (ls : List Level) (b : Bool) :
    ls.foldr Bool.xor b = Bool.xor (decide (ls.count true % 2 = 1)) b := by
  induction ls with
  | nil => simp
  | cons x xs ih =>
    rw [List.foldr_cons, ih]
    cases x
    · simp
    · have : (xs.count true + 1) % 2 = 1 ↔ ¬ xs.count true % 2 = 1 := by omega
      simp only [List.count_cons_self, this]
      by_cases h : xs.count true % 2 = 1 <;> cases b <;> simp [h]

theorem par_eq (c : BitVec 9) (n : Nat) (ps : Bool) :
    par c n ps = Bool.xor (decide ((dataLevels c n).count true % 2 = 1)) ps := foldr_xor_eq _ _

/-! ## The character read out of received levels -/

theorem charOf_getLsbD (n : Nat) (ls : List Level) (hn : n ≤ 9) (k : Nat) :
    (charOf n ls).getLsbD k = if k < n then ls.getD k false else false := by
  unfold charOf
  rw [BitVec.getLsbD_setWidth, BitVec.getLsbD_ofBoolListLE]
  by_cases hk : k < n
  · simp [hk, show k < 9 by omega]
  · simp [hk]

/-- The data levels of the character read out are the levels received (R101). -/
theorem dataLevels_charOf (n : Nat) (ls : List Level) (hn : n ≤ 9) (hl : n ≤ ls.length) :
    dataLevels (charOf n ls) n = ls.take n := by
  apply List.ext_getElem?
  intro k
  by_cases hk : k < n
  · rw [dataLevels_getElem? _ _ _ hk, charOf_getLsbD n ls hn, if_pos hk, List.getElem?_take,
      if_pos hk]
    have : k < ls.length := by omega
    simp [this]
  · rw [List.getElem?_eq_none (by simp; omega), List.getElem?_eq_none (by simp; omega)]

end Sys2Proof.Machine
end

