-- ==== Sys2Proof/Laws/PerInstr.lean ====
section
/-! SUPPORT. One family of facts about every operation as syntax: the shape of its selector, the length
of its byte form and its well-formedness (spec/30_encoding.md R90, R91, R93). -/

namespace Sys2Proof.Laws.SelectorShape

/-- The selector has `SIZE` = 0b10 and an aligned offset, bit 7 says whether a data word follows, the byte
form is one byte or five, and the operation is well formed, whatever its data word. -/
def Statement (i : Instr) : Prop :=
  selSize (selectorOf i) = sizeWord ∧ (selOff (selectorOf i)).extractLsb' 0 2 = 0#2 ∧
    selW (selectorOf i) = i.data.isSome ∧
    (encode i).length = (if i.isWrite then 5 else 1) ∧ i.wf = true

/-- Everything in the statement but the selector's shape, which `Laws/Decode.lean` gives, is read off. -/
theorem of_fields {i : Instr} (h1 : i.data.isSome = i.isWrite)
    (h2 : (encode i).length = if i.isWrite then 5 else 1) : Statement i :=
  ⟨selSize_selectorOf i, selOff_selectorOf_aligned i, by rw [selW_selectorOf, h1], h2,
    by simp [Instr.wf, h1]⟩

theorem rdSr : Statement .rdSr := of_fields rfl rfl
theorem rdDr : Statement .rdDr := of_fields rfl rfl
theorem rdBrr : Statement .rdBrr := of_fields rfl rfl
theorem rdCr1 : Statement .rdCr1 := of_fields rfl rfl
theorem rdCr2 : Statement .rdCr2 := of_fields rfl rfl
theorem rdRsv14 : Statement .rdRsv14 := of_fields rfl rfl
theorem rdRsv18 : Statement .rdRsv18 := of_fields rfl rfl
theorem rdRsv1c : Statement .rdRsv1c := of_fields rfl rfl
theorem wrSr (w : Word) : Statement (.wrSr w) := of_fields rfl rfl
theorem wrDr (w : Word) : Statement (.wrDr w) := of_fields rfl rfl
theorem wrBrr (w : Word) : Statement (.wrBrr w) := of_fields rfl rfl
theorem wrCr1 (w : Word) : Statement (.wrCr1 w) := of_fields rfl rfl
theorem wrCr2 (w : Word) : Statement (.wrCr2 w) := of_fields rfl rfl
theorem wrRsv14 (w : Word) : Statement (.wrRsv14 w) := of_fields rfl rfl
theorem wrRsv18 (w : Word) : Statement (.wrRsv18 w) := of_fields rfl rfl
theorem wrRsv1c (w : Word) : Statement (.wrRsv1c w) := of_fields rfl rfl

end Sys2Proof.Laws.SelectorShape
end

