-- ==== Sys2Proof/Laws/System.lean ====
section
/-! SUPPORT. What the steps of a sequence do, said once: sequences after each other, a run without
interludes, the line, and the firmware's buffers. -/

namespace Sys2Proof.Machine

/-! ## Sequences after each other -/

section bind

variable {α β γ : Type}

@[simp] theorem Script.bind_done (a : α) (f : α → Script β) : (Script.done a).bind f = f a := rfl
@[simp] theorem rdReg_bind (r : Reg) (f : Word → Script β) : (rdReg r).bind f = .bus (readOf r) f := rfl
@[simp] theorem wrReg_bind (r : Reg) (v : Word) (f : Unit → Script β) :
    (wrReg r v).bind f = .bus (writeOf r v) fun _ => f () := rfl
@[simp] theorem getCount_bind (c : Count) (f : Nat → Script β) :
    (getCount c).bind f = .readCount c f := rfl
@[simp] theorem getCell_bind (buf : Buffer) (i : Nat) (f : Byte → Script β) :
    (getCell buf i).bind f = .readCell buf i f := rfl
@[simp] theorem put_bind (w : Store) (f : Unit → Script β) : (put w).bind f = .store w (f ()) := rfl
@[simp] theorem call_bind (c : Service) (f : Unit → Script β) :
    (call c).bind f = .service c (f ()) := rfl

@[simp] theorem bus_bind (i : Instr) (k : Word → Script α) (f : α → Script β) :
    (Script.bus i k).bind f = .bus i fun w => (k w).bind f := rfl
@[simp] theorem readCount_bind (c : Count) (k : Nat → Script α) (f : α → Script β) :
    (Script.readCount c k).bind f = .readCount c fun n => (k n).bind f := rfl
@[simp] theorem readCell_bind (buf : Buffer) (i : Nat) (k : Byte → Script α) (f : α → Script β) :
    (Script.readCell buf i k).bind f = .readCell buf i fun b => (k b).bind f := rfl
@[simp] theorem store_bind (w : Store) (k : Script α) (f : α → Script β) :
    (Script.store w k).bind f = .store w (k.bind f) := rfl
@[simp] theorem service_bind (c : Service) (k : Script α) (f : α → Script β) :
    (Script.service c k).bind f = .service c (k.bind f) := rfl

theorem ite_bind {c : Prop} [Decidable c] (s t : Script α) (f : α → Script β) :
    (if c then s else t).bind f = if c then s.bind f else t.bind f := by split <;> rfl

theorem Script.bind_assoc (s : Script α) (f : α → Script β) (g : β → Script γ) :
    (s.bind f).bind g = s.bind fun a => (f a).bind g := by
  induction s with
  | done => rfl
  | bus _ _ ih => simp only [Script.bind, ih]
  | readCount _ _ ih => simp only [Script.bind, ih]
  | readCell _ _ _ ih => simp only [Script.bind, ih]
  | store _ _ ih => simp only [Script.bind, ih]
  | service _ _ ih => simp only [Script.bind, ih]

/-! ## What a sequence may store -/

theorem writesOnly_ite {allowed : Store → Bool} {c : Prop} [Decidable c] {s t : Script α} :
    (if c then s else t).writesOnly allowed ↔
      (c → s.writesOnly allowed) ∧ (¬c → t.writesOnly allowed) := by
  split <;> simp_all

theorem armsAfterAppend_ite {l : Layout} {x : Bool} {c : Prop} [Decidable c] {s t : Script α} :
    (if c then s else t).armsAfterAppend l x ↔
      (c → s.armsAfterAppend l x) ∧ (¬c → t.armsAfterAppend l x) := by
  split <;> simp_all

theorem writesOnly_bind {allowed : Store → Bool} {s : Script α} {f : α → Script β}
    (hs : s.writesOnly allowed) (hf : ∀ a, (f a).writesOnly allowed) :
    (s.bind f).writesOnly allowed := by
  induction s with
  | done a => exact hf a
  | bus _ _ ih => exact fun w => ih w (hs w)
  | readCount _ _ ih => exact fun n => ih n (hs n)
  | readCell _ _ _ ih => exact fun b => ih b (hs b)
  | store _ _ ih => exact ⟨hs.1, ih hs.2⟩
  | service _ _ ih => exact ih hs

end bind

/-! ## A run without interludes -/

section run

variable {α γ : Type} (p : Params) (f : γ → System → Host.Outcome System Fault Refusal) (y : System)

@[simp] theorem gap_nil : System.gap f [] y = .next y := rfl

@[simp] theorem runWith_done (a : α) (gaps : List (List γ)) :
    (Script.done a).runWith p f gaps y = .next (a, y) := rfl

theorem runWith_bus (i : Instr) (k : Word → Script α) (h : y.block.running = true) :
    (Script.bus i k).runWith p f [] y =
      (k (effect p.layout i y.block).rdata).runWith p f [] (y.withBlock (effect p.layout i y.block)) := by
  simp [Script.runWith, execAt_running _ i h]

@[simp] theorem runWith_readCount (c : Count) (k : Nat → Script α) :
    (Script.readCount c k).runWith p f [] y = (k (y.fw.count c)).runWith p f [] y := rfl
@[simp] theorem runWith_readCell (buf : Buffer) (i : Nat) (k : Byte → Script α) :
    (Script.readCell buf i k).runWith p f [] y = (k (y.fw.cell buf i)).runWith p f [] y := rfl
@[simp] theorem runWith_store (w : Store) (k : Script α) :
    (Script.store w k).runWith p f [] y = k.runWith p f [] { y with fw := y.fw.store w } := rfl
@[simp] theorem runWith_service (c : Service) (k : Script α) :
    (Script.service c k).runWith p f [] y = k.runWith p f [] (y.service c) := rfl

/-- Two sequences after each other, without interludes. -/
theorem runWith_bind {β : Type} (s : Script α) (g : α → Script β) :
    (s.bind g).runWith p f [] y = andThen (s.runWith p f [] y) fun r => (g r.1).runWith p f [] r.2 := by
  induction s generalizing y with
  | done => rfl
  | bus i k ih =>
    simp only [Script.bind, Script.runWith, List.headD_nil, gap_nil, andThen_next, List.tail_nil,
      andThen_assoc, ih]
  | readCount _ _ ih => simpa only [Script.bind, runWith_readCount] using ih _ _
  | readCell _ _ _ ih => simpa only [Script.bind, runWith_readCell] using ih _ _
  | store _ _ ih => simpa only [Script.bind, runWith_store] using ih _
  | service _ _ ih => simpa only [Script.bind, runWith_service] using ih _

end run

/-! ## The line and the updates of System -/

variable (y : System) (s : State)

@[simp] theorem observe_block : y.observe.block = y.block := rfl
@[simp] theorem observe_fw : y.observe.fw = y.fw := rfl
@[simp] theorem observe_serving : y.observe.serving = y.serving := rfl
@[simp] theorem observe_line : y.observe.line = y.line.observe y.block.irq y.serving := rfl
@[simp] theorem withBlock_block : (y.withBlock s).block = s := rfl
@[simp] theorem withBlock_fw : (y.withBlock s).fw = y.fw := rfl
@[simp] theorem withBlock_serving : (y.withBlock s).serving = y.serving := rfl
@[simp] theorem withBlock_line : (y.withBlock s).line = y.line.observe s.irq y.serving := rfl
@[simp] theorem service_block (c : Service) : (y.service c).block = y.block := rfl
@[simp] theorem service_fw (c : Service) : (y.service c).fw = y.fw := rfl
@[simp] theorem service_serving (c : Service) : (y.service c).serving = y.serving := rfl
@[simp] theorem service_line (c : Service) :
    (y.service c).line = (y.line.apply c).observe y.block.irq y.serving := rfl
@[simp] theorem enter_block : y.enter.block = y.block := rfl
@[simp] theorem enter_fw : y.enter.fw = y.fw := rfl
@[simp] theorem enter_serving : y.enter.serving = true := rfl
@[simp] theorem leave_block : y.leave.block = y.block := rfl
@[simp] theorem leave_fw : y.leave.fw = y.fw := rfl
@[simp] theorem leave_serving : y.leave.serving = false := rfl

@[simp] theorem lineObserve_enabled (l : IrqLine) (a b : Bool) : (l.observe a b).enabled = l.enabled := rfl
@[simp] theorem lineObserve_priority (l : IrqLine) (a b : Bool) : (l.observe a b).priority = l.priority := rfl
@[simp] theorem lineObserve_pending (l : IrqLine) (a b : Bool) :
    (l.observe a b).pending = (l.pending || (a && !b)) := rfl

/-- Looking twice, the request having been there once, is looking once. -/
theorem lineObserve_twice (l : IrqLine) (a b c : Bool) :
    (l.observe a c).observe b c = l.observe (a || b) c := by
  cases l; cases a <;> cases b <;> cases c <;> simp [IrqLine.observe]

/-- A second step that drops no request the first one made: the line as after the second alone. -/
theorem withBlock_twice_of_le (s t : State) (h : s.irq = true → t.irq = true) :
    (y.withBlock s).withBlock t = y.withBlock t := by
  have : (s.irq || t.irq) = t.irq := by cases h1 : s.irq <;> simp_all
  simp [System.withBlock, System.observe, lineObserve_twice, this]

/-- A first step that leaves the request as it was: the line as after a look and the second step. -/
theorem withBlock_twice_of_eq (s t : State) (h : s.irq = y.block.irq) :
    (y.withBlock s).withBlock t = y.observe.withBlock t := by
  simp [System.withBlock, System.observe, h]

/-- While the block requests nothing the line stays as it is. -/
theorem withBlock_of_quiet (s : State) (h : s.irq = false) : y.withBlock s = { y with block := s } := by
  simp [System.withBlock, System.observe, IrqLine.observe, h]

theorem service_of_quiet (c : Service) (h : y.block.irq = false) :
    y.service c = { y with line := y.line.apply c } := by
  simp [System.service, System.observe, IrqLine.observe, h]

/-- A write of `CR1` to a disabled block only stores. -/
theorem effect_wrCr1_of_disabled (l : Layout) (s : State) (w : Word) (h : s.ue = false) :
    effect l (.wrCr1 w) s = s.storeCr1 l w := by
  simp [h]

/-! ## The firmware's buffers -/

/-- A cell written next to the ones already written, or over one of them. -/
theorem setCell_of_le (buf : Buffer) (l : List Byte) (i : Nat) (v : Byte) (h : i ≤ l.length) :
    setCell buf l i v = l.take i ++ [v] ++ l.drop (i + 1) := by
  simp [setCell, Nat.sub_eq_zero_of_le h]

/-- What an append at the count holds up to the new count. -/
theorem setCell_take (buf : Buffer) (l : List Byte) (i : Nat) (v : Byte) (h : i ≤ l.length) :
    (setCell buf l i v).take (i + 1) = l.take i ++ [v] := by
  rw [setCell_of_le buf l i v h, List.take_append_of_le_length (by simp [h])]
  simp [h]

theorem setCell_length (buf : Buffer) (l : List Byte) (i : Nat) (v : Byte) (h : i ≤ l.length) :
    (setCell buf l i v).length = max l.length (i + 1) := by
  rw [setCell_of_le buf l i v h]
  simp
  omega

/-- A cell that was written holds what was written. -/
theorem cell_of_lt (fw : Firmware) (buf : Buffer) (i : Nat) (h : i < (fw.cells buf).length) :
    fw.cell buf i = (fw.cells buf)[i] := by
  simp [Firmware.cell, h]

/-- What `Firmware.wf` says, read off. -/
theorem Firmware.wf_iff (p : Params) (fw : Firmware) :
    fw.wf p = true ↔ fw.rxCount ≤ fw.rxBuf.length ∧ fw.rxBuf.length ≤ p.cRx ∧
      fw.sentCount ≤ fw.pendingCount ∧ fw.pendingCount ≤ fw.txBuf.length ∧
      fw.txBuf.length ≤ p.cTx := by
  simp [Firmware.wf, and_assoc]

/-- The backlog is empty exactly if `sent_count = pending_count` (R220). -/
theorem backlog_eq_nil_iff {p : Params} {fw : Firmware} (h : fw.wf p = true) :
    fw.backlog = [] ↔ fw.sentCount = fw.pendingCount := by
  have := (fw.wf_iff p).1 h
  simp only [Firmware.backlog, List.drop_eq_nil_iff, List.length_take]
  omega

/-- A backlog that is not empty begins at `sent_count`. -/
theorem backlog_eq_cons {p : Params} {fw : Firmware} (h : fw.wf p = true)
    (hlt : fw.sentCount < fw.pendingCount) :
    fw.backlog = fw.cell .tx fw.sentCount :: { fw with sentCount := fw.sentCount + 1 }.backlog := by
  have hw := (fw.wf_iff p).1 h
  have hl : fw.sentCount < fw.txBuf.length := by omega
  rw [cell_of_lt fw .tx fw.sentCount hl]
  simp only [Firmware.backlog]
  rw [List.drop_eq_getElem_cons (by simp; omega)]
  simp [Firmware.cells]

/-- An append at `pending_count` (R227): the backlog grows at its end, nothing else of the firmware moves. -/
theorem append_tx {p : Params} {fw : Firmware} (h : fw.wf p = true) (hroom : fw.pendingCount < p.cTx)
    (b : Byte) :
    let fw' := (fw.store (.cell .tx fw.pendingCount b)).store (.count .pending (fw.pendingCount + 1))
    fw'.wf p = true ∧ fw'.backlog = fw.backlog ++ [b] ∧ fw'.held = fw.held := by
  have hw := (fw.wf_iff p).1 h
  refine ⟨?_, ?_, rfl⟩
  · have := setCell_length .tx fw.txBuf fw.pendingCount b hw.2.2.2.1
    simp only [Firmware.wf_iff, Firmware.store, this]
    omega
  · simp only [Firmware.backlog, Firmware.store, setCell_take .tx fw.txBuf _ b hw.2.2.2.1]
    exact List.drop_append_of_le_length (by simp; omega)

/-- An append at `rx_count` (R225). -/
theorem append_rx {p : Params} {fw : Firmware} (h : fw.wf p = true) (hroom : fw.rxCount < p.cRx)
    (b : Byte) :
    let fw' := (fw.store (.cell .rx fw.rxCount b)).store (.count .rx (fw.rxCount + 1))
    fw'.wf p = true ∧ fw'.held = fw.held ++ [b] ∧ fw'.backlog = fw.backlog := by
  have hw := (fw.wf_iff p).1 h
  refine ⟨?_, ?_, rfl⟩
  · have := setCell_length .rx fw.rxBuf fw.rxCount b hw.1
    simp only [Firmware.wf_iff, Firmware.store, this]
    omega
  · simp only [Firmware.held, Firmware.store, setCell_take .rx fw.rxBuf _ b hw.1]

end Sys2Proof.Machine
end

