-- ==== Sys2Proof/Tests/Slice0.lean ====
section
/-! SUPPORT. The model's own tests. Expected values are from spec/95_test_vectors.md (the section stands in
each docstring) or worked out by hand from the rule named. After them, for every statement that has
hypotheses, a witness: concrete states and operands that meet them all together. -/

namespace Sys2Proof.Tests

open Sys2Proof Sys2Proof.Machine

/-! ## Helpers -/

/-- Something read off the next state; `none` if there is none. -/
def after {α : Type} (f : State → α) : Result → Option α
  | .next s => some (f s)
  | .fault _ => none
  | .refused _ => none

/-- The refusal, if the outcome is one. -/
def refusalOf : Result → Option Refusal
  | .next _ => none
  | .fault _ => none
  | .refused r => some r

/-- Whether an outcome is a next state. -/
def completes (r : Result) : Bool := (after (fun _ => ()) r).isSome

/-- "Configured 8N1" of 95_test_vectors.md: the end state of its program P1. -/
def configured : State := { State.reset with div := 0x682#16, ue := true, rxneie := true }

/-- Configured 8N1 in mid-frame: the state after line 3 of program P5. -/
def sending : State :=
  { configured with
    tdr := 0x055#9
    txs := .tShift
    tsr := [true, false, true, false, true, false, true]
    txd := false
    lineOut := [false, true, false] }

/-- Configured 8N1 with a frame of 0x41 sampled and the previous character 0x7F still waiting (2.8). -/
def receiving : State :=
  { configured with
    rxs := .rRecv
    rsr := [true, false, false, false, false, false, true, false, true]
    rxne := true
    rdr := 0x07F#9 }

/-- As `receiving`, with the data register free. -/
def receivingFree : State := { receiving with rxne := false }

/-- Parity and framing error in an 8E1 frame: `11000010 0 0` (2.8). -/
def receivingBad : State :=
  { receivingFree with
    rxcfg := ⟨0b00#2, true, false⟩
    rsr := [true, true, false, false, false, false, true, false, false, false] }

/-- The three error flags set. -/
def errors : State := { configured with ore := true, fe := true, pe := true }

def p0 : Params := Params.default

/-- A legal table of other offsets: `SR` last, `DR` first, slot 2 left free. -/
def moved : Offsets := { sr := 0x1C#5, dr := 0x00#5, brr := 0x04#5, cr1 := 0x0C#5, cr2 := 0x10#5 }

/-- A legal layout with every field at another position than by default. -/
def shifted : Layout :=
  { txe := 0, tc := 1, rxne := 2, ore := 31, fe := 30, pe := 29
    data := 23, div := 16
    ue := 0, wl := 1, pce := 3, ps := 4, txeie := 30, rxneie := 31
    stop2 := 0 }

/-- The host access of an operation. -/
def host (i : Instr) : Event := .host (accessOf p0 i)

/-! ## Well-formedness: an ill-formed term for each check -/

/-- 2.1, the row `0x04`: a byte read of `DR`. -/
theorem test_wf_refuses_byte_transaction :
    (⟨false, 0b00#2, 0x04#5, 0#32⟩ : Transaction).wf = false := by decide
/-- R65: a word access at an offset that is no multiple of 4. -/
theorem test_wf_refuses_misaligned_transaction :
    (⟨false, 0b10#2, 0x06#5, 0#32⟩ : Transaction).wf = false := by decide
theorem test_wf_refuses_halfword_access :
    (⟨true, 0b01#2, 0x40004800#32, 0#32⟩ : HostAccess).wf p0 = false := by decide
theorem test_wf_refuses_misaligned_access :
    (⟨true, 0b10#2, 0x40004802#32, 0#32⟩ : HostAccess).wf p0 = false := by decide
theorem test_wf_refuses_access_below_window :
    (⟨false, 0b10#2, 0x400047FC#32, 0#32⟩ : HostAccess).wf p0 = false := by decide
theorem test_wf_refuses_access_above_window :
    (⟨false, 0b10#2, 0x40004820#32, 0#32⟩ : HostAccess).wf p0 = false := by decide
theorem test_wf_refuses_misaligned_base : { p0 with uartBase := 0x40004801#32 }.wf = false := by decide
theorem test_wf_refuses_window_past_the_end : { p0 with uartBase := 0xFFFFFFE4#32 }.wf = false := by
  decide
/-- R94: two registers may not share an offset. -/
theorem test_wf_refuses_shared_offset : { Offsets.default with cr2 := 0x04#5 }.wf = false := by decide
/-- R94: every offset is a multiple of 4. -/
theorem test_wf_refuses_misaligned_offset : { Offsets.default with brr := 0x0A#5 }.wf = false := by decide
/-- D6, the open parameters: two fields of one register may not overlap. -/
theorem test_wf_refuses_overlapping_flags : { Layout.default with fe := 5 }.wf = false := by decide
theorem test_wf_refuses_overlapping_controls : { Layout.default with pce := 12 }.wf = false := by decide
/-- R7: a field lies in its 32-bit register. -/
theorem test_wf_refuses_fields_past_the_register :
    { Layout.default with data := 24 }.wf = false ∧ { Layout.default with div := 17 }.wf = false ∧
      { Layout.default with stop2 := 32 }.wf = false := by decide
/-- The layout and the offsets are checked with the other parameters. -/
theorem test_wf_refuses_illegal_parts :
    { p0 with layout := { Layout.default with ue := 7 } }.wf = false ∧
      { p0 with offsets := { Offsets.default with sr := 0x04#5 } }.wf = false := by decide
/-- Every operation carries a data word exactly if it is a write, so the check on operations refuses no
term of the type: what it would refuse is shown on its two halves. -/
theorem test_wf_separates_reads_and_writes :
    (Instr.rdSr.data.isSome, Instr.rdSr.isWrite, (Instr.wrSr 0#32).data.isSome,
      (Instr.wrSr 0#32).isWrite) = (false, false, true, true) := by decide

/-! ## Decoding: every row of R93, its selector written out bit by bit as `W SIZE OFF` (R90) -/

theorem test_decode_status :
    decodeTableWord 8 0b0_10_00000 = some .rdSr ∧ decodeTableWord 8 0b1_10_00000 = some (.wrSr 0#32) := by
  decide
theorem test_decode_data :
    decodeTableWord 8 0b0_10_00100 = some .rdDr ∧ decodeTableWord 8 0b1_10_00100 = some (.wrDr 0#32) := by
  decide
theorem test_decode_baud :
    decodeTableWord 8 0b0_10_01000 = some .rdBrr ∧
      decodeTableWord 8 0b1_10_01000 = some (.wrBrr 0#32) := by decide
theorem test_decode_control :
    decodeTableWord 8 0b0_10_01100 = some .rdCr1 ∧
      decodeTableWord 8 0b1_10_01100 = some (.wrCr1 0#32) ∧
      decodeTableWord 8 0b0_10_10000 = some .rdCr2 ∧
      decodeTableWord 8 0b1_10_10000 = some (.wrCr2 0#32) := by decide
theorem test_decode_reserved_reads :
    decodeTableWord 8 0b0_10_10100 = some .rdRsv14 ∧ decodeTableWord 8 0b0_10_11000 = some .rdRsv18 ∧
      decodeTableWord 8 0b0_10_11100 = some .rdRsv1c := by decide
theorem test_decode_reserved_writes :
    decodeTableWord 8 0b1_10_10100 = some (.wrRsv14 0#32) ∧
      decodeTableWord 8 0b1_10_11000 = some (.wrRsv18 0#32) ∧
      decodeTableWord 8 0b1_10_11100 = some (.wrRsv1c 0#32) := by decide
/-- 2.1: the rows that are refused, and the order of the two tests (`0x05` has both defects). -/
theorem test_decode_rejects :
    decodeSelector 0x04#8 0#32 = .error .badSize ∧ decodeSelector 0xA0#8 0#32 = .error .badSize ∧
      decodeSelector 0x05#8 0#32 = .error .badSize ∧
      decodeSelector 0x45#8 0#32 = .error .misaligned := by decide
/-- 2.4: `C8 00010682`, the data word in the bytes after the selector. -/
theorem test_decode_data_word :
    decodeBytes [0xC8#8, 0x82#8, 0x06#8, 0x01#8, 0x00#8] = .ok (.wrBrr 0x10682#32, []) := by decide
/-- R94, parameterized offsets: slot 7 is `SR`, slot 0 is `DR`, and the free slot 2 is reserved. -/
theorem test_decode_moved_offsets :
    moved.wf = true ∧ decodeSelectorAt moved 0x5C#8 0#32 = .ok .rdSr ∧
      decodeSelectorAt moved 0xC0#8 0x41#32 = .ok (.wrDr 0x41#32) ∧
      decodeSelectorAt moved 0x48#8 0#32 = .ok .rdRsv14 := by decide
theorem test_decode_truncated :
    decodeBytes [0xC8#8, 0x82#8] = .error .truncated ∧ decodeBytes [] = .error .truncated := by decide

/-! ## The step -/

/-- R45, R120 (c): the first `RD_SR` after reset, fetched from its table word. -/
theorem test_step_runs_fetched_word :
    after (fun s => (s.rdata, s.sched)) (step (State.reset.withFetchWord 8 0x40)) =
      some (0xC0#32, []) := by decide
/-- 2.5: `CC 00002020` from reset. -/
theorem test_step_runs_fetched_write :
    after (fun s => (s.ue, s.rxneie, s.irq)) (step (State.reset.withFetchWord 40 0x00002020CC)) =
      some (true, true, false) := by decide
/-- R65. -/
theorem test_step_refuses_bad_size :
    refusalOf (step (State.reset.withFetchWord 8 0x04)) = some .badSize := by decide
theorem test_step_refuses_misaligned :
    refusalOf (step (State.reset.withFetchWord 8 0x45)) = some .misaligned := by decide
/-- R65: below the window. -/
theorem test_access_below_window :
    refusalOf (hostAccess p0 ⟨false, 0b10#2, 0x400047FC#32, 0#32⟩ State.reset) =
      some .outOfWindow := by decide
/-- 2.10. -/
theorem test_refused_in_reset :
    refusalOf (exec .rdSr { State.reset with rstN := false }) = some .inReset := by decide
theorem test_refused_while_gated :
    refusalOf (exec .rdSr { State.reset with clkEn := false }) = some .clockGated := by decide

/-! ## Bus operations, one step each -/

/-- The example of R120. -/
theorem test_rd_sr :
    after State.rdata (exec .rdSr { sending with rxne := true, pe := true }) = some 0xA1#32 := by decide
/-- The example of R122. -/
theorem test_wr_sr :
    after (fun s => (s.ore, s.fe, s.pe)) (exec (.wrSr 0x8#32) { errors with fe := false }) =
      some (false, false, true) := by decide
/-- R122 (b): `RXNE` and `TXE` are not cleared. -/
theorem test_wr_sr_all_ones :
    after (State.srWord · Layout.default) (exec (.wrSr 0xFFFFFFFF#32) { errors with rxne := true }) = some 0xE0#32 := by
  decide
/-- The example of R130. -/
theorem test_rd_dr :
    after (fun s => (s.rdata, s.rxne, s.rdr))
      (exec .rdDr { configured with rdr := 0x041#9, rxne := true }) =
      some (0x41#32, false, 0x041#9) := by decide
/-- 2.3, the 9-bit character. -/
theorem test_rd_dr_nine_bits :
    after State.rdata (exec .rdDr { configured with rdr := 0x155#9, rxne := true }) =
      some 0x155#32 := by decide
/-- 2.3: `C4 FFFFFFFF`. -/
theorem test_wr_dr :
    after (fun s => (s.tdr, s.txe, s.tc)) (exec (.wrDr 0xFFFFFFFF#32) configured) =
      some (0x1FF#9, false, false) := by decide
/-- 2.4. -/
theorem test_wr_brr_truncates :
    after State.div (exec (.wrBrr 0x10682#32) State.reset) = some 0x0682#16 := by decide
theorem test_rd_brr : after State.rdata (exec .rdBrr configured) = some 0x682#32 := by decide
/-- 2.5: `CC FFFFFFFF` from reset. -/
theorem test_wr_cr1_mask :
    after (State.cr1Word · Layout.default) (exec (.wrCr1 0xFFFFFFFF#32) State.reset) = some 0x3EA0#32 := by decide
/-- Program P5, line 4: the disable in mid-frame. -/
theorem test_wr_cr1_disable :
    after (fun s => (s.txs, s.tsr, s.txd, s.lineOut, s.srWord Layout.default)) (exec (.wrCr1 0x20#32) sending) =
      some (.tIdle, [], true, [false, true, false], 0xC0#32) := by decide
/-- The example of R155. -/
theorem test_rd_cr1 :
    after State.rdata (exec .rdCr1 { configured with txeie := true }) = some 0x20A0#32 := by decide
/-- 2.5: `D0 FFFFFFFF`. -/
theorem test_wr_cr2 : after (State.cr2Word · Layout.default) (exec (.wrCr2 0xFFFFFFFF#32) State.reset) = some 0x2000#32 := by
  decide
theorem test_rd_cr2 :
    after State.rdata (exec .rdCr2 { configured with stop2 := true }) = some 0x2000#32 := by decide
/-- 2.5: reserved slots, from a port that shows another word. -/
theorem test_rd_reserved :
    [Instr.rdRsv14, .rdRsv18, .rdRsv1c].map
      (fun i => after State.rdata (exec i { configured with rdata := 0xA5A5A5A5#32 })) =
      [some 0#32, some 0#32, some 0#32] := by decide
theorem test_wr_reserved :
    [Instr.wrRsv14 0xFFFFFFFF#32, .wrRsv18 0xFFFFFFFF#32, .wrRsv1c 0xFFFFFFFF#32].map
      (fun i => after id (exec i errors)) = [some errors, some errors, some errors] := by decide

/-! ## Other positions of the fields (D6) -/

/-- Every word of R25 to R29 from its fields at the positions of `shifted`, by hand. -/
theorem test_layout_reads :
    ({ errors with rxne := true, pe := false } : State).srWord shifted = 0xC0000007#32 ∧
      ({ configured with rdr := 0x141#9 } : State).drWord shifted = 0xA0800000#32 ∧
      configured.brrWord shifted = 0x06820000#32 ∧
      ({ configured with wl := 0b10#2, ps := true } : State).cr1Word shifted = 0x80000015#32 ∧
      ({ configured with stop2 := true } : State).cr2Word shifted = 1#32 := by decide
/-- The fields stored and cleared are the ones at the positions of `shifted`. -/
theorem test_layout_writes :
    after (fun s => (s.ore, s.fe, s.pe)) (execAt shifted (.wrSr 0x4000000B#32) errors) =
        some (true, false, true) ∧
      after State.tdr (execAt shifted (.wrDr 0xA0800000#32) configured) = some 0x141#9 ∧
      after State.div (execAt shifted (.wrBrr 0x0682FFFF#32) State.reset) = some 0x682#16 ∧
      after (fun s => (s.ue, s.wl, s.pce, s.ps, s.txeie, s.rxneie))
        (execAt shifted (.wrCr1 0x8000000B#32) State.reset) =
        some (true, 0b01#2, true, false, false, true) ∧
      after State.stop2 (execAt shifted (.wrCr2 0x1#32) configured) = some true := by decide
/-- The masks of the driver's sequences at the default layout (R221, R226), and 7O2 under `shifted`. -/
theorem test_layout_masks :
    framingMask Layout.default = 0x1E00#32 ∧ maskOf Layout.default.cr1Bits = 0x3EA0#32 ∧
      placeBit Layout.default.txeie true = 0x80#32 ∧ placeBit Layout.default.rxneie true = 0x20#32 ∧
      placeBit Layout.default.ue true = 0x2000#32 ∧
      WordLength.w9.bits Layout.default = 0x1000#32 ∧ Parity.odd.bits Layout.default = 0x0600#32 ∧
      WordLength.w7.bits shifted ||| Parity.odd.bits shifted = 0x1A#32 := by decide

/-! ## Frames, parity, the engines -/

/-- 2.6: 7E2 of 0x041, 9O2 of 0x1FF, 9E1 of 0x100. -/
theorem test_frames :
    frame 0x041#9 0b01#2 true false true =
        some [false, true, false, false, false, false, false, true, false, true, true] ∧
      frame 0x1FF#9 0b10#2 true true true =
        some [false, true, true, true, true, true, true, true, true, true, false, true, true] ∧
      frame 0x100#9 0b10#2 true false false =
        some [false, false, false, false, false, false, false, false, false, true, true, true] ∧
      frame 0x041#9 0b11#2 false false false = none := by decide
/-- 2.6, the parity function. -/
theorem test_par :
    (par 0x41#9 8 false, par 0x43#9 8 false, par 0x00#9 8 true, par 0x1FF#9 9 true,
      par 0x41#9 7 false) = (false, true, true, false, false) := by decide
/-- 2.7: `TX_LOAD` after `C4 00000055`. -/
theorem test_tx_load :
    after (fun s => (s.tsr, s.txs, s.srWord Layout.default)) (txLoad { configured with tdr := 0x055#9, txe := false }) =
      some ([false, true, false, true, false, true, false, true, false, true], .tShift, 0x80#32) := by
  decide
/-- 2.7: the fourth `TX_BIT`. -/
theorem test_tx_bit :
    after (fun s => (s.lineOut, s.txd, s.tsr)) (txBit sending) =
      some ([false, true, false, true], true, [false, true, false, true, false, true]) := by decide
/-- 2.7: `TX_END`. -/
theorem test_tx_end :
    after (State.srWord · Layout.default) (txEnd { sending with tsr := [], txd := true }) = some 0xC0#32 := by decide
/-- R183. -/
theorem test_tx_char :
    after (fun s => (s.lineOut, s.txd, s.txs)) (txChar sending) =
      some ([false, true, false, true, false, true, false, true, false, true], true, .tIdle) := by decide
/-- The example of R200. -/
theorem test_rx_start :
    after (fun s => (s.rxcfg, s.rxcfg.need)) (rxStart { configured with pce := true }) =
      some (⟨0b00#2, true, false⟩, some 10) := by decide
theorem test_rx_start_reserved :
    refusalOf (rxStart { configured with wl := 0b11#2 }) = some .reservedWL := by decide
/-- The example of R201. -/
theorem test_rx_bit :
    after State.rsr (rxBit false { receiving with rsr := [true, false] }) =
      some [true, false, false] := by decide
/-- 2.8: a store, a drop, and both errors. -/
theorem test_rx_end_store :
    after (fun s => (s.rdr, s.rxne, s.pe, s.fe, s.ore)) (rxEnd receivingFree) =
      some (0x041#9, true, false, false, false) := by decide
theorem test_rx_end_drop :
    after (fun s => (s.rdr, s.rxne, s.ore)) (rxEnd receiving) = some (0x07F#9, true, true) := by decide
theorem test_rx_end_errors :
    after (fun s => (s.rdr, s.rxne, s.pe, s.fe)) (rxEnd receivingBad) =
      some (0x043#9, true, true, true) := by decide
/-- R207: the break of 2.8 under odd parity, as one step; `SR` reads 0xE3. -/
theorem test_rx_char_break :
    after (fun s => (s.rdr, s.srWord Layout.default))
      (rxChar 0#9 false false { configured with pce := true, ps := true }) =
      some (0#9, 0xE3#32) := by decide
/-- 2.10: reset in the middle of everything. -/
theorem test_reset_from_busy :
    after (fun s => (s.srWord Layout.default, s.txd, s.irq, s.lineOut, s.cr1Word Layout.default))
      (rstAssert { sending with rxne := true, ore := true, rxcfg := ⟨0b10#2, true, true⟩ }) =
      some (0xC0#32, true, false, [], 0#32) := by decide
/-- 2.9: `CR1` = 0x0080 with `TXE` = 1, and `SR` = 0xCB with `CR1` = 0x2000. -/
theorem test_irq :
    ({ State.reset with txeie := true } : State).irq = true ∧
      ({ errors with rxneie := false } : State).irq = false := by decide

/-! ## The timing level -/

/-- R290: a character written to an idle transmitter is not loaded in the cycle of the write. -/
theorem test_cycle_write_waits :
    after (fun s => (s.txe, s.txs))
      (runEvent p0 (.cycle (some (accessOf p0 (.wrDr 0x41#32))) true) configured) =
      some (false, .tIdle) := by decide
/-- R290: in the next cycle it is, and the start bit is on the pin. -/
theorem test_cycle_loads_next :
    after (fun s => (s.txe, s.txs, s.txd, s.txCnt))
      (runEvent p0 (.cycle none true) { configured with tdr := 0x41#9, txe := false }) =
      some (true, .tShift, false, 0x682#16) := by decide
/-- R147: a falling edge loads the counter with `floor(DIV / 2)`. -/
theorem test_cycle_falling_edge :
    after (fun s => (s.startPending, s.rxCnt, s.rxs))
      (runEvent p0 (.cycle none false) { configured with rxdS := false }) =
      some (true, 0x341#16, .rIdle) := by decide
/-- R147: a further fall while the check is pending loads the counter again. -/
theorem test_cycle_second_falling_edge :
    after (fun s => (s.startPending, s.rxCnt))
      (runEvent p0 (.cycle none false)
        { configured with rxdS := false, startPending := true, rxCnt := 0x100#16 }) =
      some (true, 0x341#16) := by decide
/-- R292: a `WR_CR1` that arms the free transmitter raises the request at once and the pin a cycle later. -/
theorem test_cycle_irq_pin :
    after (fun s => (s.irq, s.irqPin))
        (runEvent p0 (.cycle (some (accessOf p0 (.wrCr1 0x2080#32))) true) configured) =
        some (true, false) ∧
      after State.irqPin (runEvent p0 (.cycle none true) { configured with txeie := true }) =
        some true := by decide
/-- R288, third row: a `WR_SR` in the cycle in which a bad character is stored: the flags end 1. -/
theorem test_cycle_error_set_after_clear :
    after (fun s => (s.pe, s.fe))
      (runEvent p0 (.cycle (some (accessOf p0 (.wrSr 0x3#32))) false)
        { receivingBad with pe := true, fe := true, rxCnt := 1#16 }) = some (true, true) := by decide
/-- R288, sixth row: the disable wins over the engine step that falls due. -/
theorem test_cycle_disable_wins :
    after (fun s => (s.lineOut, s.txs))
      (runEvent p0 (.cycle (some (accessOf p0 (.wrCr1 0#32))) true) { sending with txCnt := 1#16 }) =
      some ([false, true, false], .tIdle) := by decide

/-! ## The driver -/

/-- A block with its driver at startup, in the given state, the line enabled as `CONFIGURE` leaves it. -/
def withDriver (s : State) (fw : Firmware) : System :=
  { block := s, fw := fw, line := { enabled := true, priority := 5, pending := false }, serving := false }

/-- Something read off the result and the end state of a sequence; `none` if there is none. -/
def afterScript {α β : Type} (f : α → System → β) :
    Host.Outcome (α × System) Fault Refusal → Option β
  | .next (a, y) => some (f a y)
  | .fault _ => none
  | .refused _ => none

/-- Two bytes enqueued, the first already handed over. -/
def lastByte : Firmware := { txBuf := [0x42#8, 0x43#8], pendingCount := 2, sentCount := 1 }

/-- Program P1 and its variant 7E2. -/
theorem test_configure_7e2 :
    afterScript (fun _ y => (y.block.cr1Word Layout.default, y.block.cr2Word Layout.default, y.block.brrWord Layout.default, y.line))
      ((configure p0 16000000 ⟨9600, .w7, .even, .two⟩ 5).run p0 [] System.initial) =
      some (0x2C20#32, 0x2000#32, 0x682#32, ⟨true, 5, false⟩) := by decide
/-- Program P1 in its variant 7E2 and the handler of P2, at the positions of `shifted`: the same fields. -/
theorem test_driver_at_other_layout :
    afterScript (fun _ y => (y.block.wl, y.block.pce, y.block.ps, y.block.stop2, y.block.ue, y.block.rxneie))
        ((configure { p0 with layout := shifted } 16000000 ⟨9600, .w7, .even, .two⟩ 5).run
          { p0 with layout := shifted } [] System.initial) =
        some (0b01#2, true, false, true, true, true) ∧
      afterScript (fun _ y => (y.block.tdr, y.fw.rxBuf, y.block.txeie, y.block.rxneie))
        ((onInterrupt { p0 with layout := shifted }).runHandler { p0 with layout := shifted } []
          (withDriver { receiving with txeie := true } lastByte)) =
        some (0x43#9, [0x7F#8], false, true) := by decide
/-- 2.4: the lowest rate that fits, the first that does not, and the rate above the clock. -/
theorem test_divisor :
    divisor 16000000 245 = some 65306 ∧ divisor 16000000 244 = none ∧ divisor 16000000 16000000 = some 1 ∧
      divisor 16000000 16000001 = none ∧ divisor 0 9600 = none := by decide
/-- S2, program P2 schedule A: the first byte goes to `DR`, the others to the backlog. -/
theorem test_send :
    afterScript (fun _ y => (y.block.tdr, y.fw.backlog, y.block.txeie))
      ((send p0 [0x41#8, 0x42#8, 0x43#8]).run p0 [] (withDriver configured {})) =
      some (0x41#9, [0x42#8, 0x43#8], true) := by decide
/-- R227: with room for one byte the rest of the text is dropped. -/
theorem test_send_drops :
    afterScript (fun _ y => y.fw.backlog)
      ((send { p0 with cTx := 3 } [0x44#8, 0x45#8]).run p0 [] (withDriver sending lastByte)) =
      some [0x43#8, 0x44#8] := by decide
/-- Program P2, lines 13 to 15: the last byte of the backlog, and the one disarm. -/
theorem test_on_interrupt_last_byte :
    afterScript (fun _ y => (y.block.tdr, y.fw.pendingCount, y.fw.sentCount, y.block.cr1Word Layout.default))
      ((onInterrupt p0).runHandler p0 [] (withDriver { configured with txeie := true } lastByte)) =
      some (0x43#9, 0, 0, 0x2020#32) := by decide
/-- S4: `RECEIVE(0)` changes nothing; bytes beyond `max_len` are discarded. -/
theorem test_receive :
    afterScript (fun out y => (out, y.fw.rxCount))
        ((receive 0).run p0 [] (withDriver configured { rxBuf := [1#8, 2#8], rxCount := 2 })) =
        some ([], 2) ∧
      afterScript (fun out y => (out, y.fw.rxCount))
        ((receive 1).run p0 [] (withDriver configured { rxBuf := [1#8, 2#8], rxCount := 2 })) =
        some ([1#8], 0) := by decide
/-- R248: the line is requested only while it is enabled at the controller. -/
theorem test_interrupt_requested :
    (withDriver receiving {}).requested p0 = some 39 ∧
      { withDriver receiving {} with line := IrqLine.initial }.requested p0 = none := by decide
/-- R258: `clear-pending` has no lasting effect while `irq` = 1. -/
theorem test_clear_pending :
    ((withDriver receiving {}).service .clearPending).line.pending = true ∧
      ((withDriver configured {}).service .clearPending).line.pending = false := by decide
/-- R282: the handler runs between the read and the write of the `SETBITS` of `SEND`. -/
theorem test_stale_arm :
    afterScript (fun _ y => (y.block.tdr, y.block.cr1Word Layout.default, y.fw.pendingCount, y.fw.sentCount))
      ((setBits .cr1 0x80#32).run p0 [[], [.interrupt []]]
        (withDriver { configured with txeie := true } lastByte)) =
      some (0x43#9, 0x20A0#32, 0, 0) := by decide

/-! ## Witnesses: every statement's hypotheses can be met -/

theorem configured_inv : configured.Inv where
  txIdle := by decide
  txDriven := by decide
  txStop := by decide
  tsrBound := by decide
  rxIdle := by decide
  rxNeed := by intro h; cases h
  disabled := by intro h; cases h
  inReset := by intro h; cases h

theorem sending_inv : sending.Inv where
  txIdle := by intro h; cases h
  txDriven := by intro _ h; cases h
  txStop := by decide
  tsrBound := by decide
  rxIdle := by decide
  rxNeed := by intro h; cases h
  disabled := by intro h; cases h
  inReset := by intro h; cases h

theorem witness_RdSrReturnsFlags : sending.running = true := by decide
theorem witness_WrSrClearsErrorFlags : errors.running = true := by decide
theorem witness_RdDrReturnsCharacter : receiving.running = true ∧ completes (exec .rdDr receiving) = true := by
  decide
theorem witness_SecondRdDrChangesNothing : completes (exec .rdDr receiving) = true := by decide
theorem witness_WrDrLoadsTdr : sending.running = true ∧ completes (exec (.wrDr 0x41#32) sending) = true := by
  decide
theorem witness_BrrStoresDivisor : configured.running = true := by decide
theorem witness_RdCr1ReturnsFields : configured.running = true := by decide
/-- Both clauses: a write that disables, and one that does not. -/
theorem witness_WrCr1StoresFieldsAndMayAbort :
    sending.running = true ∧ (sending.ue = true ∧ (0x20#32 : Word).getLsbD 13 = false) ∧
      ¬(sending.ue = true ∧ (0x2020#32 : Word).getLsbD 13 = false) := by decide
/-- Both layouts, and words that agree on the fields of one and on the fields of the other. -/
theorem witness_ControlReadsBackMasked :
    (Layout.default.wf = true ∧ shifted.wf = true ∧ sending.running = true) ∧
      ((0x80000000#32 : Word).getLsbD shifted.ore = (0x8#32 : Word).getLsbD 3 ∧
        (0x80000000#32 : Word).getLsbD shifted.fe = (0x8#32 : Word).getLsbD 1 ∧
        (0x80000000#32 : Word).getLsbD shifted.pe = (0x8#32 : Word).getLsbD 0) ∧
      (∀ k, k < 9 → (0xA0800000#32 : Word).getLsbD (shifted.data + k) = (0x141#32 : Word).getLsbD k) ∧
      (∀ k, k < 16 → (0x06820000#32 : Word).getLsbD (shifted.div + k) = (0x682#32 : Word).getLsbD k) ∧
      ((0x80000013#32 : Word).getLsbD shifted.ue = (0x2A20#32 : Word).getLsbD 13 ∧
        (0x80000013#32 : Word).getLsbD (shifted.wl + 1) = (0x2A20#32 : Word).getLsbD 12 ∧
        (0x80000013#32 : Word).getLsbD shifted.wl = (0x2A20#32 : Word).getLsbD 11 ∧
        (0x80000013#32 : Word).getLsbD shifted.pce = (0x2A20#32 : Word).getLsbD 10 ∧
        (0x80000013#32 : Word).getLsbD shifted.ps = (0x2A20#32 : Word).getLsbD 9 ∧
        (0x80000013#32 : Word).getLsbD shifted.txeie = (0x2A20#32 : Word).getLsbD 7 ∧
        (0x80000013#32 : Word).getLsbD shifted.rxneie = (0x2A20#32 : Word).getLsbD 5) ∧
      (1#32 : Word).getLsbD shifted.stop2 = (0x2000#32 : Word).getLsbD 13 ∧
      completes (andThen (execAt shifted (.wrCr1 0x13#32) sending) (execAt shifted .rdCr1)) = true ∧
      completes (andThen (execAt shifted (.wrCr2 0x1#32) sending) (execAt shifted .rdCr2)) = true ∧
      completes (andThen (execAt shifted (.wrBrr 0x10000#32) sending) (execAt shifted .rdBrr)) = true ∧
      completes (andThen (exec (.wrCr1 0xFFFFFFFF#32) sending) (exec .rdCr1)) = true ∧
      completes (andThen (exec (.wrCr2 0xFFFFFFFF#32) sending) (exec .rdCr2)) = true ∧
      completes (andThen (exec (.wrBrr 0xFFFFFFFF#32) sending) (exec .rdBrr)) = true := by decide
theorem witness_Cr2StoresStop2 : sending.running = true := by decide
theorem witness_ReservedSlotsReadZeroIgnoreWrites : errors.running = true := by decide
/-- The three clauses: in reset (with the clock running, and gated as well), gated alone, neither. -/
theorem witness_OperationCompletesUnlessResetOrGated :
    ({ sending with rstN := false } : State).rstN = false ∧
      ({ sending with rstN := false, clkEn := false } : State).rstN = false ∧
      (({ sending with clkEn := false } : State).rstN = true ∧
        ({ sending with clkEn := false } : State).clkEn = false) ∧
      (sending.rstN = true ∧ sending.clkEn = true) := by decide
theorem witness_BusNeitherWritesRdrNorShowsTdr :
    completes (exec .rdDr receiving) = true ∧
      completes (exec .rdDr { receiving with tdr := 0x1FF#9 }) = true := by decide
theorem witness_OnlyDisableTouchesEngines :
    completes (exec (.wrCr1 0x2420#32) sending) = true ∧
      ¬(sending.ue = true ∧ (0x2420#32 : Word).getLsbD 13 = false) := by decide
/-- One selector for each of the three clauses. -/
theorem witness_ExactlySixteenSelectorsDecode :
    (0xA0#8).extractLsb' 5 2 ≠ 0b10#2 ∧
      ((0x45#8).extractLsb' 5 2 = 0b10#2 ∧ (0x45#8).extractLsb' 0 2 ≠ 0b00#2) ∧
      ((0xDC#8).extractLsb' 5 2 = 0b10#2 ∧ (0xDC#8).extractLsb' 0 2 = 0b00#2) := by decide
theorem witness_EncodeOfDecodeIsBytes :
    decodeBytes [0xC4#8, 0x41#8, 0#8, 0#8, 0#8, 0x40#8] = .ok (.wrDr 0x41#32, [0x40#8]) := by decide
theorem witness_StepRunsDecodedOperation :
    (configured.setSched [host (.wrDr 0x41#32), .txLoad]).sched =
        .host (accessOf Params.default (.wrDr 0x41#32)) :: [.txLoad] ∧
      (accessOf Params.default (.wrDr 0x41#32)).wf Params.default = true ∧
      decodeTransaction ⟨true, 0b10#2,
        ((accessOf Params.default (.wrDr 0x41#32)).addr - Params.default.uartBase).extractLsb' 0 5,
        0x41#32⟩ = .ok (.wrDr 0x41#32) := by decide
/-- The default table of offsets, and another. -/
theorem witness_DecodeOfEncodeIsInstr : Offsets.default.wf = true ∧ moved.wf = true := by decide
/-- The default placing, the lowest and the highest, and another table of offsets with another layout. -/
theorem witness_WindowAccessReachesItsRegister :
    p0.wf = true ∧ { p0 with uartBase := 0#32 }.wf = true ∧
      { p0 with uartBase := 0xFFFFFFE0#32 }.wf = true ∧
      { p0 with offsets := moved, layout := shifted }.wf = true := by
  decide
theorem witness_WindowIsLittleEndian : Offsets.default.wf = true ∧ moved.wf = true := by decide
/-- The three clauses, the last at both ends of the window. -/
theorem witness_MalformedAccessIsRefused :
    (0b11#2 : BitVec 2) ≠ 0b10#2 ∧
      (0x4000481E#32 - p0.uartBase : Word).extractLsb' 0 2 ≠ 0#2 ∧
      ((0x400047FC#32 - p0.uartBase : Word).extractLsb' 0 2 = 0#2 ∧
        (0x400047FC#32 : Word).toNat < p0.uartBase.toNat) ∧
      ((0x40004820#32 - p0.uartBase : Word).extractLsb' 0 2 = 0#2 ∧
        p0.uartBase.toNat + 32 ≤ (0x40004820#32 : Word).toNat) := by decide
theorem witness_StepsRunTheSchedule : sending.sched = [] := by decide
theorem witness_ResetFromAnyState : Event.txBit.isEngine = true := by decide
theorem witness_ClockGateFreezesBlock :
    sending.clkEn = true ∧ ({ sending with clkEn := false } : State).rstN = true ∧
      Event.txBit.isEngine = true := by decide
/-- One step for each way a flag is said to move. -/
theorem witness_FlagsHaveNoOtherWriters :
    after State.txe (runEvent p0 .txLoad { configured with txe := false }) = some true ∧
      after State.txe (runEvent p0 (host (.wrDr 0#32)) configured) = some false ∧
      after State.rxne (runEvent p0 .rxEnd receivingFree) = some true ∧
      after State.rxne (runEvent p0 (host .rdDr) receiving) = some false ∧
      after State.ore (runEvent p0 .rxEnd receiving) = some true ∧
      after (fun s => (s.ore, s.fe, s.pe)) (runEvent p0 (host (.wrSr 0xB#32)) errors) =
        some (false, false, false) ∧
      after (fun s => (s.fe, s.pe)) (runEvent p0 .rxEnd receivingBad) = some (true, true) := by decide
/-- A step that writes none of the three registers, and one for each that writes only its own. -/
theorem witness_ControlRegistersChangeOnlyByHostWrite :
    completes (runEvent p0 (.cycle none true) { sending with txCnt := 5#16 }) = true ∧
      (Event.cycle none true).operation p0 = none ∧
      completes (runEvent p0 (host (.wrBrr 1#32)) sending) = true ∧
      (host (.wrBrr 1#32)).operation p0 = some (.wrBrr 1#32) := by decide
theorem witness_HardwareKeepsWhatHostWasTold :
    (Event.rxEnd.isEngine = true ∧ completes (runEvent p0 .rxEnd { receiving with ore := true }) = true) ∧
      completes (runEvent p0 (.cycle none true) receiving) = true ∧ receiving.rxne = true ∧
      receiving.txe = true := by decide
/-- The three clauses of `TX_LOAD`: not enabled, reserved, legal. -/
theorem witness_TxLoadTakesCharacter :
    (configured.running = true ∧ ¬(configured.txe = false)) ∧
      ({ configured with txe := false, wl := 0b11#2 } : State).txLoadEnabled = true ∧
      ({ configured with txe := false, wl := 0b10#2 } : State).txLoadEnabled = true := by decide
theorem witness_TxBitAndTxEnd :
    (sending.running = true ∧ sending.txs = .tShift ∧ sending.tsr ≠ []) ∧
      (({ sending with tsr := [] } : State).txs = .tShift ∧ ({ sending with tsr := [] } : State).tsr = []) ∧
      configured.txs = .tIdle := by decide
theorem witness_FrameLayout : (0b11#2 : BitVec 2) = 0b11#2 ∧ (0b10#2 : BitVec 2) ≠ 0b11#2 := by decide
theorem witness_WholeFrameOnTheLine :
    ({ configured with txe := false } : State).txLoadEnabled = true ∧
      (frame 0#9 0b00#2 false false false).isSome = true := by decide
theorem witness_TxCharMergesBitSteps : sending.Inv := sending_inv
/-- Two characters written, with the first on its way before the second. -/
theorem witness_CharactersGoOutInOrder : configured.Inv ∧
    orderly p0 [host (.wrDr 0x41#32), .txLoad, host (.wrDr 0x42#32), .txChar] configured = true ∧
    completes (runEvents p0 [host (.wrDr 0x41#32), .txLoad, host (.wrDr 0x42#32), .txChar] configured) =
      true := ⟨configured_inv, by decide, by decide⟩
/-- The three clauses of `RX_START`: not enabled, reserved, legal. -/
theorem witness_RxStartLatchesFraming :
    ¬(receiving.rxs = .rIdle) ∧ ({ configured with wl := 0b11#2 } : State).rxStartEnabled = true ∧
      ({ configured with wl := 0b01#2, rxne := true } : State).rxStartEnabled = true := by decide
/-- Both clauses at the boundary: one sample short, and all taken. -/
theorem witness_RxBitTakesOneSample :
    receiving.running = true ∧ receiving.rxs = .rRecv ∧ nbits receiving.rxcfg.wl = some 8 ∧
      (receiving.rsr.drop 1).length < 8 + 0 + 1 ∧ 8 + 0 + 1 ≤ receiving.rsr.length := by decide
/-- The receiver idle; one sample short; a full data register; a free one under parity. -/
theorem witness_RxEndStoresOrDrops :
    (configured.running = true ∧ configured.rxs = .rIdle) ∧
      (nbits receiving.rxcfg.wl = some 8 ∧ (receiving.rsr.drop 1).length ≠ 8 + 0 + 1) ∧
      (receiving.running = true ∧ receiving.rxs = .rRecv ∧ nbits receiving.rxcfg.wl = some 8 ∧
        receiving.rsr.length = 8 + 0 + 1 ∧ receiving.rxne = true) ∧
      (receivingBad.running = true ∧ nbits receivingBad.rxcfg.wl = some 8 ∧
        receivingBad.rsr.length = 8 + 1 + 1 ∧ receivingBad.rxne = false) := by decide
/-- A legal frame; the reserved word length; disabled, without a divisor, and receiving. -/
theorem witness_RxCharMergesBitSteps :
    (configured.rxStartEnabled = true ∧ nbits configured.wl = some 8 ∧ configured.Inv) ∧
      ({ configured with wl := 0b11#2 } : State).rxStartEnabled = true ∧
      (State.reset.running = true ∧ State.reset.ue = false ∧ State.reset.div = 0#16) ∧
      (receiving.running = true ∧ receiving.rxs = .rRecv) :=
  ⟨⟨by decide, by decide, configured_inv⟩, by decide⟩
theorem witness_ReceiverReadsBackFrame :
    configured.rxStartEnabled = true ∧ configured.rxne = false ∧ nbits configured.wl = some 8 ∧
      (frame 0x55#9 configured.wl configured.pce configured.ps true).isSome = true := by decide
theorem witness_ParityDetectsOneWrongLevel : 9 ≤ 9 ∧ 9 ≤ 9 := by decide
theorem witness_CharactersDeliveredInOrder :
    ([Event.rxEnd, host .rdDr].all fun e => e.isAtomic && e != .rstAssert) = true ∧
      completes (runEvents p0 [.rxEnd, host .rdDr] receivingFree) = true := by decide
theorem witness_EveryStepKeepsInvariant :
    sending.Inv ∧ completes (step (sending.setSched [.txBit])) = true := ⟨sending_inv, by decide⟩
theorem witness_SafeDriverNeverMeetsReservedWordLength :
    configured.legalWordLength ∧ safeStep p0 configured (host (.wrCr1 0x20A0#32)) = true ∧
      completes (runEvent p0 (host (.wrCr1 0x20A0#32)) configured) = true :=
  ⟨⟨by decide, by decide⟩, by decide, by decide⟩
theorem witness_UntimedStepsDoNotReadTimingState :
    Event.txBit.isAtomic = true ∧ sending.untimed = ({ sending with txCnt := 5#16 } : State).untimed := by
  decide
theorem witness_SynchroniserFollowsThePin :
    ({ sending with txCnt := 5#16 } : State).running = true ∧
      completes (runEvent p0 (.cycle none false) { sending with txCnt := 5#16 }) = true := by decide
/-- The last sample of a frame falls due in the cycle of the read. -/
def receivingLast : State := { receiving with rsr := receiving.rsr.drop 1, rxCnt := 1#16 }

theorem witness_ReadInCycleOfFrameEndLosesNothing :
    receivingLast.running = true ∧ operation p0 (accessOf p0 .rdDr) = some .rdDr ∧
      receivingLast.rxs = .rRecv ∧ receivingLast.rxne = true ∧
      after State.rxs (runEvent p0 (.cycle (some (accessOf p0 .rdDr)) true) receivingLast) =
        some .rIdle := by decide
/-- Both clauses at the ends of the range of the divisor, and a rate of 0. -/
theorem witness_ConfigureFromReset :
    ((16000000 : Int).toNat / 16000001 = 0 ∧ 65535 < (16000000 : Int).toNat / 244 ∧
        (16000000 : Int).toNat / 0 = 0) ∧
      (0 < (16000000 : Int).toNat / 16000000 ∧ (16000000 : Int).toNat / 245 ≤ 65535) ∧
      System.initial.block = State.reset ∧ Layout.default.wf = true ∧ shifted.wf = true := by decide
theorem witness_ArmAndDisarmTransmitSource :
    (withDriver configured {}).block.running = true ∧ p0.layout.wf = true ∧
      { p0 with layout := shifted }.layout.wf = true := by decide
theorem witness_ReadModifyWriteOfSrLosesErrorFlags :
    (withDriver errors {}).block.running = true ∧ p0.layout.wf = true ∧
      { p0 with layout := shifted }.layout.wf = true := by decide
theorem witness_ReadModifyWriteOfCr1LosesInterveningWrite :
    (withDriver configured {}).block.running = true ∧ p0.wf = true ∧
      { p0 with layout := shifted }.wf = true := by decide
/-- With room for one more, and full. -/
theorem witness_OnRxReadyAlwaysReads :
    receiving.running = true ∧ p0.layout.wf = true ∧
      (({ rxBuf := [1#8], rxCount := 1 } : Firmware).wf { p0 with cRx := 2 } = true) ∧
      (({ rxBuf := [1#8, 2#8], rxCount := 2 } : Firmware).wf { p0 with cRx := 2 } = true) := by decide
theorem witness_FirmwareContextsKeepTheirSplit : p0.layout.wf = true ∧ shifted.wf = true := by decide
/-- A cycle of a running block, one of a gated block, and the reset. -/
theorem witness_IrqPinFollowsOneCycleLater :
    (configured.running = true ∧ completes (runEvent p0 (.cycle none true) configured) = true) ∧
      (({ configured with clkEn := false } : State).running = false ∧
        completes (runEvent p0 (.cycle none true) { configured with clkEn := false }) = true) ∧
      completes (runEvent p0 .rstAssert configured) = true := by decide
/-- A full data register, bytes that wait before a free one, a free one with nothing waiting. -/
theorem witness_SendEnqueuesInOrderAndReceiveDrainsOldestFirst :
    p0.layout.wf = true ∧ lastByte.wf p0 = true ∧ sending.running = true ∧
      ({ sending with txe := false } : State).txe = false ∧ lastByte.sentCount ≠ lastByte.pendingCount ∧
      (configured.running = true ∧ configured.txe = true ∧ ({} : Firmware).wf p0 = true) := by decide
/-- A free data register with the last byte waiting, and with nothing waiting. -/
theorem witness_HandlerServesBothConditions :
    p0.layout.wf = true ∧ receiving.running = true ∧ receiving.txe = true ∧ lastByte.wf p0 = true ∧
      lastByte.backlog = [0x43#8] ∧ ({} : Firmware).backlog = [] := by decide
/-- Both parts: before the stale write, and in the storm after it. -/
theorem witness_StaleArmLeavesArmedEmptyBacklog :
    let y := withDriver { configured with txeie := true } lastByte
    let z := withDriver { configured with txeie := true } {}
    p0.layout.wf = true ∧ (y.block.running = true ∧ y.fw.wf p0 = true ∧ y.block.irq = true ∧ y.block.txe = true ∧
        y.fw.backlog = [0x43#8] ∧ y.line.enabled = true ∧ y.serving = false) ∧
      (z.block.running = true ∧ z.block.txe = true ∧ z.block.txeie = true ∧ z.block.rxne = false ∧
        z.fw.sentCount = z.fw.pendingCount ∧ z.line.enabled = true ∧ z.serving = false) := by decide

end Sys2Proof.Tests
end

/-! The schedule stands beside the block: no step of any agent reads it or writes it (R74, log 1). So a
step answers the same whatever is scheduled behind it, and steps taken one by one are the run of the schedule. -/

namespace Sys2Proof.Machine

/-- An outcome with another schedule left in the state it answers. -/
def withSched (es : List Event) (r : Result) : Result := andThen r fun t => .next (t.setSched es)

@[simp] theorem withSched_next (es : List Event) (s : State) :
    withSched es (.next s) = .next (s.setSched es) := rfl

theorem withSched_andThen (es : List Event) (r : Result) (f : State → Result) :
    withSched es (andThen r f) = andThen r fun t => withSched es (f t) := andThen_assoc r f _

theorem andThen_withSched (es : List Event) (r : Result) (f : State → Result) :
    andThen (withSched es r) f = andThen r fun t => f (t.setSched es) := andThen_assoc r _ f

/-- A step that neither reads nor writes the schedule. -/
def IgnoresSched (f : State → Result) : Prop :=
  ∀ (s : State) (es : List Event), f (s.setSched es) = withSched es (f s)

theorem IgnoresSched.andThen {f g : State → Result} (hf : IgnoresSched f) (hg : IgnoresSched g) :
    IgnoresSched fun s => andThen (f s) g := by
  intro s es
  simp only [hf s es, andThen_withSched, withSched_andThen, hg _ es]

/-- A choice whose condition does not read the schedule, branch by branch. Applied to a step on `s.setSched es`
and on `s`, whose two conditions are the same field of the state. -/
theorem withSched_ite {c : Prop} [Decidable c] {es : List Event} {q₁ q₂ r₁ r₂ : Result}
    (h₁ : q₁ = withSched es r₁) (h₂ : q₂ = withSched es r₂) :
    (if c then q₁ else q₂) = withSched es (if c then r₁ else r₂) := by
  subst h₁ h₂
  exact (apply_ite _ _ _ _).symm

theorem ignoresSched_next : IgnoresSched .next := fun _ _ => rfl

theorem ignoresSched_refused (r : Refusal) : IgnoresSched fun _ => .refused r := fun _ _ => rfl

/-! ## The host's access -/

theorem effect_setSched (l : Layout) (i : Instr) (s : State) (es : List Event) :
    effect l i (s.setSched es) = (effect l i s).setSched es := by
  cases i with
  | wrCr1 w =>
    simp only [effect_wrCr1, State.setSched_ue, apply_ite (State.setSched · es)]
    rfl
  | _ => rfl

theorem busOp_ignoresSched {f : State → State} (hf : ∀ s es, f (s.setSched es) = (f s).setSched es) :
    IgnoresSched (busOp f) := by
  intro s es
  unfold busOp
  rw [hf]
  exact withSched_ite rfl (withSched_ite rfl rfl)

theorem execAt_ignoresSched (l : Layout) (i : Instr) : IgnoresSched (execAt l i) :=
  busOp_ignoresSched (effect_setSched l i)

theorem hostAccess_ignoresSched (p : Params) (a : HostAccess) : IgnoresSched (hostAccess p a) := by
  unfold hostAccess
  cases route p a with
  | error r => exact ignoresSched_refused r
  | ok t =>
    simp only [transact]
    cases decodeTransactionAt p.offsets t with
    | error r => exact ignoresSched_refused _
    | ok i => exact execAt_ignoresSched p.layout i

theorem accessIn_ignoresSched (p : Params) (access : Option HostAccess) :
    IgnoresSched (accessIn p access) := by
  cases access with
  | none => exact ignoresSched_next
  | some a => exact hostAccess_ignoresSched p a

/-! ## The engines -/

theorem txLoad_ignoresSched : IgnoresSched txLoad := by
  intro s es
  unfold txLoad
  refine withSched_ite ?_ rfl
  simp only [State.setSched_tdr, State.setSched_wl, State.setSched_pce, State.setSched_ps,
    State.setSched_stop2]
  cases frame s.tdr s.wl s.pce s.ps s.stop2 <;> rfl

theorem txBit_ignoresSched : IgnoresSched txBit := by
  intro s es
  unfold txBit
  refine withSched_ite ?_ rfl
  simp only [State.setSched_tsr]
  cases s.tsr <;> rfl

theorem txEnd_ignoresSched : IgnoresSched txEnd := fun _ _ => withSched_ite rfl rfl

theorem txChar_ignoresSched : IgnoresSched txChar := fun _ _ => withSched_ite rfl rfl

theorem deliver_setSched (s : State) (c : RxChar) (es : List Event) :
    (s.setSched es).deliver c = (s.deliver c).setSched es := by
  rw [deliver_eq, deliver_eq]
  rfl

theorem rxStart_ignoresSched : IgnoresSched rxStart := by
  intro s es
  unfold rxStart
  refine withSched_ite ?_ rfl
  simp only [State.setSched_wl]
  cases nbits s.wl <;> rfl

theorem rxBit_ignoresSched (b : Level) : IgnoresSched (rxBit b) := by
  intro s es
  unfold rxBit
  refine withSched_ite ?_ rfl
  simp only [State.setSched_rxcfg]
  cases s.rxcfg.need with
  | none => rfl
  | some n => exact withSched_ite rfl rfl

theorem rxEnd_ignoresSched : IgnoresSched rxEnd := by
  intro s es
  unfold rxEnd
  refine withSched_ite ?_ rfl
  simp only [State.setSched_rxcfg, deliver_setSched]
  cases nbits s.rxcfg.wl with
  | none => rfl
  | some n => exact withSched_ite rfl rfl

theorem rxChar_ignoresSched (d : BitVec 9) (p stop : Level) : IgnoresSched (rxChar d p stop) := by
  intro s es
  unfold rxChar
  refine withSched_ite ?_ rfl
  simp only [State.setSched_wl, deliver_setSched]
  cases nbits s.wl <;> rfl

/-! ## The clock cycle -/

theorem txLoadAndDrive_ignoresSched : IgnoresSched txLoadAndDrive :=
  txLoad_ignoresSched.andThen txBit_ignoresSched

theorem txExpire_ignoresSched (c : Bool) : IgnoresSched (txExpire c) := by
  have load : IgnoresSched fun t => if c then txLoadAndDrive t else .next t :=
    fun t es => withSched_ite (txLoadAndDrive_ignoresSched t es) rfl
  intro s es
  simp only [txExpire, State.setSched_tsr]
  cases s.tsr with
  | nil => exact txEnd_ignoresSched.andThen load { s with tsr := [], txCnt := 0#16 } es
  | cons b rest => exact withSched_ite rfl (txBit_ignoresSched s es)

theorem txClock_ignoresSched (c : Bool) : IgnoresSched (txClock c) := by
  intro s es
  simp only [txClock, State.setSched_txs]
  cases s.txs with
  | tIdle => exact withSched_ite (txLoadAndDrive_ignoresSched s es) rfl
  | tShift =>
    have stalled := withSched_ite (c := s.free = 0#16) (txExpire_ignoresSched c s.useFree es)
      (withSched_next es { s.useFree with txCnt := s.free }).symm
    exact withSched_ite (withSched_ite rfl stalled) (withSched_ite (txExpire_ignoresSched c s es) rfl)

theorem startSample_ignoresSched (level : Level) : IgnoresSched (startSample level) :=
  fun s es => withSched_ite rfl (rxStart_ignoresSched { s with startPending := false } es)

theorem beginStartCheck_ignoresSched : IgnoresSched beginStartCheck :=
  fun s es => withSched_ite (startSample_ignoresSched false s es) rfl

theorem rxExpire_ignoresSched (level : Level) : IgnoresSched (rxExpire level) :=
  fun s es => withSched_ite rfl ((rxBit_ignoresSched level).andThen rxEnd_ignoresSched s es)

theorem rxClock_ignoresSched (level edge : Level) : IgnoresSched (rxClock level edge) := by
  intro s es
  simp only [rxClock, State.setSched_rxs]
  cases s.rxs with
  | rIdle =>
    have check := startSample_ignoresSched level { s with rxs := .rIdle, rxCnt := 0#16 } es
    exact withSched_ite rfl (withSched_ite (beginStartCheck_ignoresSched s es)
      (withSched_ite (withSched_ite check rfl) rfl))
  | rRecv =>
    refine withSched_ite (rxEnd_ignoresSched s es) (withSched_ite (withSched_ite rfl ?_) ?_)
    · exact withSched_ite (rxExpire_ignoresSched level s.useFree es) rfl
    · exact withSched_ite (rxExpire_ignoresSched level s es) rfl

/-- A cycle is its access, the two engines and the registers at its end, none of which knows the schedule. -/
theorem clockCycle_ignoresSched (p : Params) (access : Option HostAccess) (rxd : Level) :
    IgnoresSched (clockCycle p access rxd) := by
  intro s es
  have pins : IgnoresSched fun t => .next (t.registerPins s rxd) := fun _ _ => rfl
  exact withSched_ite ((accessIn_ignoresSched p access).andThen ((txClock_ignoresSched (!s.txe)).andThen
      ((rxClock_ignoresSched s.rxdS (s.rxdQ && !s.rxdS)).andThen pins)) s es)
    (accessIn_ignoresSched p access s es)

/-! ## Every step, and runs of steps -/

/-- No step of any agent reads the schedule or writes it (R12, R74, log 1). -/
theorem runEvent_ignoresSched (p : Params) (e : Event) : IgnoresSched (runEvent p e) := by
  cases e with
  | host a => exact hostAccess_ignoresSched p a
  | txLoad => exact txLoad_ignoresSched
  | txBit => exact txBit_ignoresSched
  | txEnd => exact txEnd_ignoresSched
  | txChar => exact txChar_ignoresSched
  | rxStart => exact rxStart_ignoresSched
  | rxBit b => exact rxBit_ignoresSched b
  | rxEnd => exact rxEnd_ignoresSched
  | rxChar d q stop => exact rxChar_ignoresSched d q stop
  | cycle access rxd => exact clockCycle_ignoresSched p access rxd
  | rstAssert | rstRelease | clkGate | clkUngate => exact fun _ _ => rfl

theorem step_of_sched_nil {s : State} (h : s.sched = []) : step s = .next s := by
  simp only [step, stepWith, fetch, h]

/-- A step is the first event of the schedule, on the state without it. -/
theorem step_of_sched_cons {s : State} {e : Event} {es : List Event} (h : s.sched = e :: es) :
    step s = runEvent Params.default e (s.setSched es) := by
  simp only [step, stepWith, fetch, h]

/-- One step more of any machine of the host. -/
theorem core_run_succ (M : Host.Core) (n : Nat) (s : M.State) :
    M.run (n + 1) s = match M.step s with
      | .next t => M.run n t
      | .fault e => .fault e
      | .refused e => .refused e := rfl

/-- `n` steps of the machine. -/
def steps (n : Nat) : State → Result := Host.Core.run Sys2Proof.core n

theorem steps_succ (n : Nat) (s : State) : steps (n + 1) s = andThen (step s) (steps n) := by
  refine (core_run_succ Sys2Proof.core n s).trans ?_
  show _ = andThen (Sys2Proof.core.step s) _
  cases Sys2Proof.core.step s <;> rfl

/-- As many steps as `es` is long, with `rest` behind it on the schedule, are the run of `es`. -/
theorem steps_length_eq_runEvents (es rest : List Event) (s : State) :
    steps es.length (s.setSched (es ++ rest)) = runEvents Params.default es (s.setSched rest) := by
  induction es generalizing s with
  | nil => rfl
  | cons e es ih =>
    have first : step (s.setSched (e :: (es ++ rest))) =
        withSched (es ++ rest) (runEvent Params.default e s) :=
      (step_of_sched_cons rfl).trans (runEvent_ignoresSched _ e s _)
    calc steps (es.length + 1) (s.setSched (e :: (es ++ rest)))
      _ = andThen (runEvent Params.default e s) fun t => steps es.length (t.setSched (es ++ rest)) := by
        rw [steps_succ, first, andThen_withSched]
      _ = andThen (runEvent Params.default e s) fun t => runEvents Params.default es (t.setSched rest) :=
        congrArg _ (funext ih)
      _ = runEvents Params.default (e :: es) (s.setSched rest) := by
        rw [runEvents_cons, runEvent_ignoresSched, andThen_withSched]

/-- Settles O23, by induction on the schedule: each step leaves the events behind it alone. -/
theorem stepsRunTheSchedule : Obligations.StepsRunTheSchedule :=
  ⟨fun _ => step_of_sched_nil, steps_length_eq_runEvents⟩

end Sys2Proof.Machine

/-! From the host's load or store to the operation it stands for: which access reaches which operation, under
every legal placing of the window, and what a step with such an access next on the schedule does. -/

namespace Sys2Proof.Machine

theorem params_wf_offsets {p : Params} (h : p.wf = true) : p.offsets.wf = true := by
  simp only [Params.wf, Bool.and_eq_true] at h
  obtain ⟨⟨-, offsets⟩, -⟩ := h
  exact offsets

/-- A word access at the offset of a slot is the operation on that slot (R10, R70, R106). -/
theorem hostAccess_slot {p : Params} (hp : p.wf = true) (r : Reg) (write : Bool) (w : Word) (s : State) :
    hostAccess p ⟨write, 0b10#2, p.uartBase + (r.offsetAt p.offsets).setWidth 32, w⟩ s =
      execAt p.layout (if write then writeOf r w else readOf r) s := by
  have ho := params_wf_offsets hp
  have aligned := (slotRegAt_offsetAt p.offsets ho r).1
  simp only [hostAccess, route_offset p write _ w hp aligned, transact,
    decodeTransactionAt_slot p.offsets ho r write w]

/-- The access made for an operation performs it (R10). -/
theorem hostAccess_accessOf {p : Params} (hp : p.wf = true) (i : Instr) (s : State) :
    hostAccess p (accessOf p i) s = execAt p.layout i s := by
  have h := hostAccess_slot hp i.reg i.isWrite (i.data.getD 0#32) s
  rw [instr_of_reg] at h
  exact h

/-- A well-formed access reaches the port with its offset in the window (R65). -/
theorem route_of_wf {p : Params} {a : HostAccess} (h : a.wf p = true) :
    route p a = .ok ⟨a.write, a.size, (a.addr - p.uartBase).extractLsb' 0 5, a.wdata⟩ := by
  simp only [HostAccess.wf, Bool.and_eq_true, beq_iff_eq, decide_eq_true_eq] at h
  obtain ⟨⟨⟨hsize, haligned⟩, hlow⟩, hhigh⟩ := h
  simp [route, hsize, haligned, hlow, hhigh]

theorem params_default_wf : Params.default.wf = true := by decide

/-- A well-formed access performs the operation its transaction decodes to, under the default parameters. -/
theorem hostAccess_of_decode {a : HostAccess} {i : Instr} (hw : a.wf Params.default = true)
    (hd : decodeTransaction
      ⟨a.write, a.size, (a.addr - Params.default.uartBase).extractLsb' 0 5, a.wdata⟩ = .ok i)
    (s : State) : hostAccess Params.default a s = exec i s := by
  simp only [hostAccess, route_of_wf hw, transact, Params.default_offsets, decodeTransactionAt_default, hd,
    exec_eq_execAt, Params.default_layout]

/-- Settles O19: the access at the head of the schedule is the operation, and a step performs it. -/
theorem stepRunsDecodedOperation : Obligations.StepRunsDecodedOperation := by
  refine ⟨fun s i es hs => ?_, fun s a es i hs hw hd => ?_⟩
  · rw [step_of_sched_cons hs, exec_eq_execAt]
    exact hostAccess_accessOf params_default_wf i _
  · rw [step_of_sched_cons hs]
    exact hostAccess_of_decode hw hd _

/-- Settles O20: the read and the write of `hostAccess_slot`; the offsets of the five registers are the table's
by definition. -/
theorem windowAccessReachesItsRegister : Obligations.WindowAccessReachesItsRegister :=
  fun _ r w s hp => ⟨hostAccess_slot hp r false w s, hostAccess_slot hp r true w s, rfl, rfl, rfl, rfl, rfl⟩

end Sys2Proof.Machine

/-! The state right after reset (R45). -/

namespace Sys2Proof.Machine

/-- Settles O24: every value is a field of the reset state, or a word computed from its fields. -/
theorem resetValues : Obligations.ResetValues := by
  unfold Obligations.ResetValues
  decide

theorem reset_inv : State.reset.Inv where
  txIdle _ := ⟨rfl, rfl⟩
  txDriven _ _ := rfl
  txStop := .inl rfl
  tsrBound := Nat.zero_le 13
  rxIdle _ := rfl
  rxNeed h := nomatch h
  disabled _ := ⟨rfl, rfl, rfl⟩
  inReset h := nomatch h

/-- Settles O45: both engines are idle with empty shift registers, and the block is out of reset. -/
theorem resetMeetsInvariant : Obligations.ResetMeetsInvariant := reset_inv

end Sys2Proof.Machine

/-! Who writes the flags (R36) and the control registers (R23). Most steps leave them alone because of the
fields they write; a value that reads none of these fields is kept. -/

namespace Sys2Proof.Machine

section Keeps

variable {α : Type} {g : State → α}

/-- Whenever the step completes, the value `g` reads from the state is what it was. -/
def Keeps (g : State → α) (f : State → Result) : Prop := ∀ ⦃s t : State⦄, f s = .next t → g t = g s

theorem keeps_next : Keeps g .next := by
  intro s t h
  cases h
  rfl

theorem Keeps.andThen {f k : State → Result} (hf : Keeps g f) (hk : Keeps g k) :
    Keeps g fun s => andThen (f s) k := by
  intro s t h
  obtain ⟨u, hu, ht⟩ := (andThen_next_iff _ _ _).1 h
  exact (hk ht).trans (hf hu)

theorem txLoad_keeps
    (hg : ∀ (s : State) f k, g { s with tsr := f, txs := .tShift, txe := true, txCnt := k } = g s) :
    Keeps g txLoad := by
  intro s t h
  rcases txLoad_cases s with ⟨-, e⟩ | ⟨-, -, e⟩ | ⟨f, -, -, e⟩ <;> cases e.symm.trans h
  · rfl
  · exact hg s f s.div

theorem txBit_keeps
    (hg : ∀ (s : State) b out f k, g { s with txd := b, lineOut := out, tsr := f, txCnt := k } = g s) :
    Keeps g txBit := by
  intro s t h
  rcases txBit_cases s with ⟨-, e⟩ | ⟨b, rest, -, -, -, e⟩ <;> cases e.symm.trans h
  · rfl
  · exact hg s b _ rest s.div

theorem txEnd_keeps (hg : ∀ s : State, g { s with txs := .tIdle } = g s) : Keeps g txEnd := by
  intro s t h
  rcases txEnd_cases s with ⟨-, e⟩ | ⟨-, -, -, e⟩ <;> cases e.symm.trans h
  · rfl
  · exact hg s

theorem txChar_keeps
    (hg : ∀ (s : State) out, g { s with lineOut := out, tsr := [], txd := true, txs := .tIdle } = g s) :
    Keeps g txChar := by
  intro s t h
  rcases txChar_cases s with ⟨-, e⟩ | ⟨-, -, e⟩ <;> cases e.symm.trans h
  · rfl
  · exact hg s _

theorem rxStart_keeps
    (hg : ∀ (s : State) c k,
      g { s with rxcfg := c, rsr := [], rxs := .rRecv, rxCnt := k, startPending := false } = g s) :
    Keeps g rxStart := by
  intro s t h
  rcases rxStart_cases s with ⟨-, e⟩ | ⟨-, -, e⟩ | ⟨n, -, -, e⟩ <;> cases e.symm.trans h
  · rfl
  · exact hg s _ s.div

theorem rxBit_keeps (hg : ∀ (s : State) ls k, g { s with rsr := ls, rxCnt := k } = g s) (b : Level) :
    Keeps g (rxBit b) := by
  intro s t h
  rcases rxBit_cases b s with ⟨e, -⟩ | ⟨-, -, -, e⟩ | ⟨n, -, -, -, -, e⟩ <;> cases e.symm.trans h
  · rfl
  · exact hg s _ s.div

end Keeps

/-- A host access that completes performed an operation. -/
theorem hostAccess_next {p : Params} {a : HostAccess} {s t : State} (h : hostAccess p a s = .next t) :
    ∃ i, operation p a = some i ∧ t = effect p.layout i s := by
  rcases hostAccess_cases p a s with ⟨-, r, e, -⟩ | ⟨i, hi, e⟩
  · cases e.symm.trans h
  · obtain ⟨-, ht⟩ := (execAt_next_iff _ _ _ _).1 (e.symm.trans h)
    exact ⟨i, hi, ht⟩

/-- `RX_END` leaves the state, or delivers a character and goes idle (R203). -/
theorem rxEnd_next {s t : State} (h : rxEnd s = .next t) :
    t = s ∨ ∃ c, t = { s.deliver c with rsr := [], rxs := .rIdle } := by
  rcases rxEnd_cases s with ⟨e, -⟩ | ⟨-, -, -, e⟩ | ⟨n, -, -, -, -, e⟩ <;> cases e.symm.trans h
  · exact .inl rfl
  · exact .inr ⟨_, rfl⟩

theorem rxChar_next {d : BitVec 9} {q stop : Level} {s t : State} (h : rxChar d q stop s = .next t) :
    t = s ∨ ∃ c, t = s.deliver c := by
  rcases rxChar_cases d q stop s with ⟨-, e⟩ | ⟨-, -, e⟩ | ⟨n, -, -, e⟩ <;> cases e.symm.trans h
  · exact .inl rfl
  · exact .inr ⟨_, rfl⟩

/-! ## The flags -/

/-- The stored flags; `TC` is a function of the state (R31). -/
structure Flags where
  txe : Bool
  rxne : Bool
  ore : Bool
  fe : Bool
  pe : Bool

def State.flags (s : State) : Flags := ⟨s.txe, s.rxne, s.ore, s.fe, s.pe⟩

theorem flags_eq_iff {s t : State} : s.flags = t.flags ↔
    s.txe = t.txe ∧ s.rxne = t.rxne ∧ s.ore = t.ore ∧ s.fe = t.fe ∧ s.pe = t.pe := by
  simp only [State.flags, Flags.mk.injEq]

/-- The writers of the flags (R30 to R36), with the state each leaves but for fields that are no flags. -/
inductive FlagWrite (p : Params) (e : Event) (s : State) : State → Prop
  | none : FlagWrite p e s s
  | txLoad (h : e = .txLoad) : FlagWrite p e s { s with txe := true }
  | deliver (c : RxChar) (h : e = .rxEnd ∨ ∃ d q st, e = .rxChar d q st) : FlagWrite p e s (s.deliver c)
  | wrDr (w : Word) (h : e.operation p = some (.wrDr w)) : FlagWrite p e s { s with txe := false }
  | rdDr (h : e.operation p = some .rdDr) : FlagWrite p e s { s with rxne := false }
  | wrSr (w : Word) (h : e.operation p = some (.wrSr w)) : FlagWrite p e s (s.clearErrors p.layout w)

theorem effect_flagWrite {p : Params} {e : Event} {i : Instr} (h : e.operation p = some i) (s : State) :
    ∃ u, FlagWrite p e s u ∧ (effect p.layout i s).flags = u.flags := by
  cases i with
  | wrDr w => exact ⟨_, .wrDr w h, rfl⟩
  | rdDr => exact ⟨_, .rdDr h, rfl⟩
  | wrSr w => exact ⟨_, .wrSr w h, rfl⟩
  | wrCr1 w =>
    refine ⟨s, .none, ?_⟩
    rw [effect_wrCr1]
    split <;> rfl
  | _ => exact ⟨s, .none, rfl⟩

/-- An atomic step but reset moves the flags as one of their writers, or not at all. -/
theorem runEvent_flagWrite {p : Params} {e : Event} {s t : State} (ha : e.isAtomic = true)
    (hr : e ≠ .rstAssert) (h : runEvent p e s = .next t) :
    ∃ u, FlagWrite p e s u ∧ t.flags = u.flags := by
  cases e with
  | host a =>
    obtain ⟨i, hi, rfl⟩ := hostAccess_next h
    exact effect_flagWrite (e := .host a) hi s
  | txLoad =>
    rcases txLoad_cases s with ⟨-, e⟩ | ⟨-, -, e⟩ | ⟨f, -, -, e⟩ <;> cases e.symm.trans h
    · exact ⟨s, .none, rfl⟩
    · exact ⟨_, .txLoad rfl, rfl⟩
  | txBit => exact ⟨s, .none, txBit_keeps (fun _ _ _ _ _ => rfl) h⟩
  | txEnd => exact ⟨s, .none, txEnd_keeps (fun _ => rfl) h⟩
  | txChar => exact ⟨s, .none, txChar_keeps (fun _ _ => rfl) h⟩
  | rxStart => exact ⟨s, .none, rxStart_keeps (fun _ _ _ => rfl) h⟩
  | rxBit b => exact ⟨s, .none, rxBit_keeps (fun _ _ _ => rfl) b h⟩
  | rxEnd =>
    obtain rfl | ⟨c, rfl⟩ := rxEnd_next h
    · exact ⟨_, .none, rfl⟩
    · exact ⟨_, .deliver c (.inl rfl), rfl⟩
  | rxChar d q st =>
    obtain rfl | ⟨c, rfl⟩ := rxChar_next h
    · exact ⟨_, .none, rfl⟩
    · exact ⟨_, .deliver c (.inr ⟨d, q, st, rfl⟩), rfl⟩
  | rstAssert => exact absurd rfl hr
  | rstRelease | clkGate | clkUngate =>
    cases h
    exact ⟨s, .none, rfl⟩
  | cycle access rxd => cases ha

/-- Settles O28, writer by writer. A delivery sets `ORE` when `RXNE` = 1 and `FE`, `PE` when `RXNE` = 0. -/
theorem flagsHaveNoOtherWriters : Obligations.FlagsHaveNoOtherWriters := by
  intro p e s t ha hr h
  obtain ⟨u, write, same⟩ := runEvent_flagWrite ha hr h
  obtain ⟨txe, rxne, ore, fe, pe⟩ := flags_eq_iff.1 same
  rw [txe, rxne, ore, fe, pe]
  cases write with
  | none => simp +contextual
  | txLoad he => simp +contextual [he]
  | deliver c he =>
    simp only [he]
    cases full : s.rxne <;> simp +contextual [deliver_free, deliver_full, full]
  | wrDr w he | rdDr he | wrSr w he => simp +contextual [he]

/-! ## The control registers -/

/-- The fields of `BRR`, `CR1` and `CR2`. -/
structure Control where
  div : BitVec 16
  ue : Bool
  wl : BitVec 2
  pce : Bool
  ps : Bool
  txeie : Bool
  rxneie : Bool
  stop2 : Bool

def State.control (s : State) : Control :=
  ⟨s.div, s.ue, s.wl, s.pce, s.ps, s.txeie, s.rxneie, s.stop2⟩

theorem control_eq_iff {s t : State} : s.control = t.control ↔
    s.div = t.div ∧ s.ue = t.ue ∧ s.wl = t.wl ∧ s.pce = t.pce ∧ s.ps = t.ps ∧ s.txeie = t.txeie ∧
      s.rxneie = t.rxneie ∧ s.stop2 = t.stop2 := by
  simp only [State.control, Control.mk.injEq]

@[simp] theorem deliver_control (s : State) (c : RxChar) : (s.deliver c).control = s.control := by
  rw [deliver_eq]
  rfl

theorem txLoad_keepsControl : Keeps State.control txLoad := txLoad_keeps fun _ _ _ => rfl
theorem txBit_keepsControl : Keeps State.control txBit := txBit_keeps fun _ _ _ _ _ => rfl
theorem txEnd_keepsControl : Keeps State.control txEnd := txEnd_keeps fun _ => rfl
theorem txChar_keepsControl : Keeps State.control txChar := txChar_keeps fun _ _ => rfl
theorem rxStart_keepsControl : Keeps State.control rxStart := rxStart_keeps fun _ _ _ => rfl
theorem rxBit_keepsControl (b : Level) : Keeps State.control (rxBit b) := rxBit_keeps (fun _ _ _ => rfl) b

theorem rxEnd_keepsControl : Keeps State.control rxEnd := by
  intro s t h
  obtain rfl | ⟨c, rfl⟩ := rxEnd_next h
  · rfl
  · exact deliver_control s c

theorem rxChar_keepsControl (d : BitVec 9) (q stop : Level) : Keeps State.control (rxChar d q stop) := by
  intro s t h
  obtain rfl | ⟨c, rfl⟩ := rxChar_next h
  · rfl
  · exact deliver_control s c

theorem txLoadAndDrive_keepsControl : Keeps State.control txLoadAndDrive :=
  txLoad_keepsControl.andThen txBit_keepsControl

/-- The counters a cycle moves before its steps are no control fields, so the steps decide. -/
theorem txClock_keepsControl (c : Bool) : Keeps State.control (txClock c) := by
  intro s t h
  rcases txClock_cases c s with e | ⟨-, -, e⟩ | ⟨k, f, -, e | ⟨-, e⟩ | ⟨-, e⟩ | ⟨-, -, e⟩⟩
  · exact (keeps_next (e.symm.trans h) :)
  · exact (txLoadAndDrive_keepsControl (e.symm.trans h) :)
  · exact (keeps_next (e.symm.trans h) :)
  · exact (txBit_keepsControl (e.symm.trans h) :)
  · exact (txEnd_keepsControl (e.symm.trans h) :)
  · exact (txEnd_keepsControl.andThen txLoadAndDrive_keepsControl (e.symm.trans h) :)

theorem rxClock_keepsControl (level edge : Level) : Keeps State.control (rxClock level edge) := by
  intro s t h
  obtain ⟨k, f, b, -, e | ⟨-, -, e⟩ | ⟨-, e⟩ | ⟨-, -, -, e⟩⟩ := rxClock_cases level edge s
  · exact (keeps_next (e.symm.trans h) :)
  · exact (rxStart_keepsControl (e.symm.trans h) :)
  · exact (rxEnd_keepsControl (e.symm.trans h) :)
  · exact ((rxBit_keepsControl level).andThen rxEnd_keepsControl (e.symm.trans h) :)

/-- The writers of the control registers (R23), with the state each leaves but for other fields. -/
inductive ControlWrite (p : Params) (e : Event) (s : State) : State → Prop
  | none : ControlWrite p e s s
  | wrBrr (w : Word) (h : e.operation p = some (.wrBrr w)) :
    ControlWrite p e s { s with div := wdataDIV p.layout w }
  | wrCr1 (w : Word) (h : e.operation p = some (.wrCr1 w)) : ControlWrite p e s (s.storeCr1 p.layout w)
  | wrCr2 (w : Word) (h : e.operation p = some (.wrCr2 w)) :
    ControlWrite p e s { s with stop2 := wdataSTOP2 p.layout w }

theorem effect_controlWrite {p : Params} {e : Event} {i : Instr} (h : e.operation p = some i) (s : State) :
    ∃ u, ControlWrite p e s u ∧ (effect p.layout i s).control = u.control := by
  cases i with
  | wrBrr w => exact ⟨_, .wrBrr w h, rfl⟩
  | wrCr2 w => exact ⟨_, .wrCr2 w h, rfl⟩
  | wrCr1 w =>
    refine ⟨_, .wrCr1 w h, ?_⟩
    rw [effect_wrCr1]
    split <;> rfl
  | _ => exact ⟨s, .none, rfl⟩

/-- The access a step makes writes the control registers as its operation says, or not at all. -/
theorem accessIn_controlWrite {p : Params} {e : Event} {s t : State}
    (h : accessIn p e.access s = .next t) : ∃ u, ControlWrite p e s u ∧ t.control = u.control := by
  cases ha : e.access with
  | none =>
    rw [ha] at h
    exact ⟨s, .none, keeps_next h⟩
  | some a =>
    rw [ha] at h
    obtain ⟨i, hi, rfl⟩ := hostAccess_next h
    have operation : e.operation p = some i := by
      rw [Event.operation, ha]
      exact hi
    exact effect_controlWrite operation s

/-- A cycle is its access followed by steps of the engines, which keep the control registers. -/
theorem clockCycle_controlWrite {p : Params} {access : Option HostAccess} {rxd : Level} {s t : State}
    (h : clockCycle p access rxd s = .next t) :
    ∃ u, ControlWrite p (.cycle access rxd) s u ∧ t.control = u.control := by
  have pins : Keeps State.control fun u => .next (u.registerPins s rxd) := fun _ _ h => by cases h; rfl
  unfold clockCycle at h
  split at h
  · obtain ⟨s₁, host, engines⟩ := (andThen_next_iff _ _ _).1 h
    obtain ⟨u, write, same⟩ := accessIn_controlWrite (e := .cycle access rxd) host
    have kept : t.control = s₁.control :=
      (txClock_keepsControl _).andThen ((rxClock_keepsControl _ _).andThen pins) engines
    exact ⟨u, write, kept.trans same⟩
  · exact accessIn_controlWrite (e := .cycle access rxd) h

/-- Every step but reset moves the control registers as one of their writers, or not at all. -/
theorem runEvent_controlWrite {p : Params} {e : Event} {s t : State} (hr : e ≠ .rstAssert)
    (h : runEvent p e s = .next t) : ∃ u, ControlWrite p e s u ∧ t.control = u.control := by
  cases e with
  | host a => exact accessIn_controlWrite (e := .host a) h
  | txLoad => exact ⟨s, .none, txLoad_keepsControl h⟩
  | txBit => exact ⟨s, .none, txBit_keepsControl h⟩
  | txEnd => exact ⟨s, .none, txEnd_keepsControl h⟩
  | txChar => exact ⟨s, .none, txChar_keepsControl h⟩
  | rxStart => exact ⟨s, .none, rxStart_keepsControl h⟩
  | rxBit b => exact ⟨s, .none, rxBit_keepsControl b h⟩
  | rxEnd => exact ⟨s, .none, rxEnd_keepsControl h⟩
  | rxChar d q st => exact ⟨s, .none, rxChar_keepsControl d q st h⟩
  | rstAssert => exact absurd rfl hr
  | rstRelease | clkGate | clkUngate =>
    cases h
    exact ⟨s, .none, rfl⟩
  | cycle access rxd => exact clockCycle_controlWrite h

/-- Settles O29, writer by writer: each leaves the fields of the other two registers. -/
theorem controlRegistersChangeOnlyByHostWrite : Obligations.ControlRegistersChangeOnlyByHostWrite := by
  intro p e s t hr h
  obtain ⟨u, write, same⟩ := runEvent_controlWrite hr h
  obtain ⟨div, ue, wl, pce, ps, txeie, rxneie, stop2⟩ := control_eq_iff.1 same
  rw [div, ue, wl, pce, ps, txeie, rxneie, stop2]
  cases write with
  | none => simp
  | wrBrr w he | wrCr1 w he | wrCr2 w he => simp [he]

end Sys2Proof.Machine

/-! No engine step reads the timing level (R147, R289). So a clock cycle, which is its host access and then
steps of the engines between which only the timing level moves, is a run of the untimed model. -/

namespace Sys2Proof.Machine

/-! ## Engine steps and the timing level -/

/-- A step whose outcome, timing level aside, does not depend on the timing level. -/
def IgnoresTiming (f : State → Result) : Prop :=
  ∀ s : State, untimedOutcome (f s.untimed) = untimedOutcome (f s)

theorem IgnoresTiming.congr {f : State → Result} (hf : IgnoresTiming f) {s u : State}
    (h : s.untimed = u.untimed) : untimedOutcome (f s) = untimedOutcome (f u) := by
  rw [← hf s, h, hf u]

theorem andThen_untimedOutcome {f : State → Result} (hf : IgnoresTiming f) (r : Result) :
    untimedOutcome (andThen (untimedOutcome r) f) = untimedOutcome (andThen r f) := by
  cases r with
  | next s => exact hf s
  | fault e | refused e => rfl

/-- Outcomes that agree, timing level aside, still agree after a step that does not depend on it. -/
theorem untimedOutcome_andThen {q r : Result} (h : untimedOutcome q = untimedOutcome r)
    {f : State → Result} (hf : IgnoresTiming f) :
    untimedOutcome (andThen q f) = untimedOutcome (andThen r f) := by
  rw [← andThen_untimedOutcome hf q, h, andThen_untimedOutcome hf r]

theorem ignoresTiming_next : IgnoresTiming .next := fun _ => rfl

theorem IgnoresTiming.andThen {f g : State → Result} (hf : IgnoresTiming f) (hg : IgnoresTiming g) :
    IgnoresTiming fun s => andThen (f s) g :=
  fun s => untimedOutcome_andThen (hf s) hg

/-- A choice whose condition does not read the timing level, branch by branch. -/
theorem untimedOutcome_ite {c : Prop} [Decidable c] {q₁ q₂ r₁ r₂ : Result}
    (h₁ : untimedOutcome q₁ = untimedOutcome r₁) (h₂ : untimedOutcome q₂ = untimedOutcome r₂) :
    untimedOutcome (if c then q₁ else q₂) = untimedOutcome (if c then r₁ else r₂) := by
  split
  · exact h₁
  · exact h₂

theorem txLoad_ignoresTiming : IgnoresTiming txLoad := by
  intro s
  unfold txLoad
  refine untimedOutcome_ite ?_ rfl
  simp only [State.untimed_tdr, State.untimed_wl, State.untimed_pce, State.untimed_ps, State.untimed_stop2]
  cases frame s.tdr s.wl s.pce s.ps s.stop2 <;> rfl

theorem txBit_ignoresTiming : IgnoresTiming txBit := by
  intro s
  unfold txBit
  refine untimedOutcome_ite ?_ rfl
  simp only [State.untimed_tsr]
  cases s.tsr <;> rfl

theorem txEnd_ignoresTiming : IgnoresTiming txEnd := fun _ => untimedOutcome_ite rfl rfl

theorem txChar_ignoresTiming : IgnoresTiming txChar := fun _ => untimedOutcome_ite rfl rfl

theorem deliver_untimed (s : State) (c : RxChar) : s.untimed.deliver c = (s.deliver c).untimed := by
  rw [deliver_eq, deliver_eq]
  rfl

theorem rxStart_ignoresTiming : IgnoresTiming rxStart := by
  intro s
  unfold rxStart
  refine untimedOutcome_ite ?_ rfl
  simp only [State.untimed_wl]
  cases nbits s.wl <;> rfl

theorem rxBit_ignoresTiming (b : Level) : IgnoresTiming (rxBit b) := by
  intro s
  unfold rxBit
  refine untimedOutcome_ite ?_ rfl
  simp only [State.untimed_rxcfg]
  cases s.rxcfg.need with
  | none => rfl
  | some n => exact untimedOutcome_ite rfl rfl

theorem rxEnd_ignoresTiming : IgnoresTiming rxEnd := by
  intro s
  unfold rxEnd
  refine untimedOutcome_ite ?_ rfl
  simp only [State.untimed_rxcfg, deliver_untimed]
  cases nbits s.rxcfg.wl with
  | none => rfl
  | some n => exact untimedOutcome_ite rfl rfl

theorem rxChar_ignoresTiming (d : BitVec 9) (q stop : Level) : IgnoresTiming (rxChar d q stop) := by
  intro s
  unfold rxChar
  refine untimedOutcome_ite ?_ rfl
  simp only [State.untimed_wl, deliver_untimed]
  cases nbits s.wl <;> rfl

theorem engine_ignoresTiming (p : Params) {e : Event} (he : e.isEngine = true) :
    IgnoresTiming (runEvent p e) := by
  cases e with
  | txLoad => exact txLoad_ignoresTiming
  | txBit => exact txBit_ignoresTiming
  | txEnd => exact txEnd_ignoresTiming
  | txChar => exact txChar_ignoresTiming
  | rxStart => exact rxStart_ignoresTiming
  | rxBit b => exact rxBit_ignoresTiming b
  | rxEnd => exact rxEnd_ignoresTiming
  | rxChar d q stop => exact rxChar_ignoresTiming d q stop
  | host _ | rstAssert | rstRelease | clkGate | clkUngate | cycle _ _ => cases he

theorem engines_ignoreTiming (p : Params) {es : List Event} (h : ∀ e ∈ es, e.isEngine = true) :
    IgnoresTiming (runEvents p es) := by
  induction es with
  | nil => exact ignoresTiming_next
  | cons e es ih =>
    obtain ⟨he, hes⟩ := List.forall_mem_cons.1 h
    exact (engine_ignoresTiming p he).andThen (ih hes)

/-! ## Outcomes of engine steps -/

/-- The outcome is, timing level aside, the one of a run of engine steps from `s`. -/
def EnginesReach (p : Params) (s : State) (r : Result) : Prop :=
  ∃ es : List Event, (∀ e ∈ es, e.isEngine = true) ∧ untimedOutcome r = untimedOutcome (runEvents p es s)

section EnginesReach

variable {p : Params} {s u : State} {r : Result}

/-- Moving the timing level alone takes no step. -/
theorem enginesReach_next (h : u.untimed = s.untimed) : EnginesReach p s (.next u) :=
  ⟨[], by simp, congrArg Host.Outcome.next h⟩

theorem enginesReach_event {e : Event} (he : e.isEngine = true) (s : State) :
    EnginesReach p s (runEvent p e s) :=
  ⟨[e], by simpa using he, by rw [runEvents_single]⟩

/-- Where the timing level stands before the steps makes no difference. -/
theorem EnginesReach.of_untimed (hr : EnginesReach p u r) (h : u.untimed = s.untimed) :
    EnginesReach p s r := by
  obtain ⟨es, engines, same⟩ := hr
  exact ⟨es, engines, same.trans ((engines_ignoreTiming p engines).congr h)⟩

/-- One run of engine steps after another is a run of engine steps; a refusal ends the first. -/
theorem EnginesReach.andThen {f : State → Result} (hr : EnginesReach p s r)
    (hf : ∀ t, EnginesReach p t (f t)) : EnginesReach p s (andThen r f) := by
  obtain ⟨es, engines, same⟩ := hr
  cases r with
  | next t =>
    obtain ⟨fs, engines', same'⟩ := hf t
    refine ⟨es ++ fs, List.forall_mem_append.2 ⟨engines, engines'⟩, ?_⟩
    rw [runEvents_append]
    exact same'.trans (untimedOutcome_andThen same (engines_ignoreTiming p engines'))
  | fault e => nomatch e
  | refused e => exact ⟨es, engines, same⟩

end EnginesReach

/-! ## The clock cycle -/

theorem txLoadAndDrive_reach (p : Params) (s : State) : EnginesReach p s (txLoadAndDrive s) :=
  (enginesReach_event (e := .txLoad) rfl s).andThen (enginesReach_event (e := .txBit) rfl)

/-- The transmitter's part of a cycle: `TX_LOAD`, `TX_BIT`, `TX_END`, or a move of its counter (R147). -/
theorem txClock_reach (p : Params) (c : Bool) (s : State) : EnginesReach p s (txClock c s) := by
  rcases txClock_cases c s with e | ⟨-, -, e⟩ | ⟨k, f, -, e | ⟨-, e⟩ | ⟨-, e⟩ | ⟨-, -, e⟩⟩ <;> rw [e]
  · exact enginesReach_next rfl
  · exact txLoadAndDrive_reach p s
  · exact enginesReach_next rfl
  · exact (enginesReach_event (e := .txBit) rfl (s.txTimed k f)).of_untimed rfl
  · exact (enginesReach_event (e := .txEnd) rfl (s.txTimed k f)).of_untimed rfl
  · exact ((enginesReach_event (e := .txEnd) rfl (s.txTimed k f)).andThen
      (txLoadAndDrive_reach p)).of_untimed rfl

/-- The receiver's part of a cycle: `RX_START`, `RX_BIT`, `RX_END`, or a move of its counter (R147). -/
theorem rxClock_reach (p : Params) (level edge : Level) (s : State) :
    EnginesReach p s (rxClock level edge s) := by
  obtain ⟨k, f, b, -, e | ⟨-, -, e⟩ | ⟨-, e⟩ | ⟨-, -, -, e⟩⟩ := rxClock_cases level edge s <;> rw [e]
  · exact enginesReach_next rfl
  · exact (enginesReach_event (e := .rxStart) rfl (s.rxTimed k f b)).of_untimed rfl
  · exact (enginesReach_event (e := .rxEnd) rfl (s.rxTimed k f b)).of_untimed rfl
  · exact ((enginesReach_event (e := .rxBit level) rfl (s.rxTimed k f b)).andThen
      (enginesReach_event (e := .rxEnd) rfl)).of_untimed rfl

/-- A host access followed by engine steps is a run with the access first; a refused access is the whole run. -/
theorem accessIn_andThen_isRun {p : Params} {f : State → Result} (hf : ∀ t, EnginesReach p t (f t))
    (access : Option HostAccess) (s : State) : ∃ es : List Event, (∀ e ∈ es, e.isEngine = true) ∧
      untimedOutcome (andThen (accessIn p access s) f) =
        untimedOutcome (runEvents p (access.toList.map .host ++ es) s) := by
  simp only [runEvents_append, ← accessIn_eq_runEvents]
  cases accessIn p access s with
  | next t => exact hf t
  | fault e => nomatch e
  | refused e => exact ⟨[], by simp, rfl⟩

/-- Settles O48. In a running block the access is followed by the transmitter's part, the receiver's part and
the pins; in a block that is stopped nothing follows it. -/
theorem clockCycleIsRunOfAtomicSteps : Obligations.ClockCycleIsRunOfAtomicSteps := by
  intro p access x s
  have pins : ∀ t, EnginesReach p t (.next (t.registerPins s x)) := fun _ => enginesReach_next rfl
  simp only [runEvent, clockCycle]
  split
  · exact accessIn_andThen_isRun (fun t => (txClock_reach p _ t).andThen fun u =>
      (rxClock_reach p _ _ u).andThen pins) access s
  · exact ⟨[], by simp, by rw [List.append_nil, accessIn_eq_runEvents]⟩

end Sys2Proof.Machine

/-! The host's side of the port: which accesses are refused (R65), what the byte view of the window shows
(R63), and which operations leave the engines alone (R69). -/

namespace Sys2Proof.Machine

theorem route_badSize {a : HostAccess} (p : Params) (hs : a.size ≠ sizeWord) :
    route p a = .error .badSize := if_pos hs

theorem route_misaligned {p : Params} {a : HostAccess} (hs : a.size = sizeWord)
    (ha : (a.addr - p.uartBase).extractLsb' 0 2 ≠ 0#2) : route p a = .error .misaligned := by
  simp only [route, hs, ne_eq, not_true_eq_false, if_false, ha, not_false_eq_true, if_true]

theorem route_outOfWindow {p : Params} {a : HostAccess} (hs : a.size = sizeWord)
    (ha : (a.addr - p.uartBase).extractLsb' 0 2 = 0#2)
    (hw : a.addr.toNat < p.uartBase.toNat ∨ p.uartBase.toNat + Config.window ≤ a.addr.toNat) :
    route p a = .error .outOfWindow := by
  have outside : ¬(p.uartBase.toNat ≤ a.addr.toNat ∧ a.addr.toNat < p.uartBase.toNat + Config.window) := by
    omega
  simp only [route, hs, ha, ne_eq, not_true_eq_false, if_false, outside]

theorem hostAccess_of_route_error {p : Params} {a : HostAccess} {r : Refusal} (h : route p a = .error r)
    (s : State) : hostAccess p a s = .refused r := by
  simp only [hostAccess, h]

/-- Settles O21: the port refuses the access in `route`, before it looks at the state. -/
theorem malformedAccessIsRefused : Obligations.MalformedAccessIsRefused := fun p _ s =>
  ⟨fun hs => hostAccess_of_route_error (route_badSize p hs) s,
    fun hs ha => hostAccess_of_route_error (route_misaligned hs ha) s,
    fun hs ha hw => hostAccess_of_route_error (route_outOfWindow hs ha hw) s⟩

/-- Adding a byte number to an aligned offset sets its two low bits and leaves its slot (R63). -/
theorem aligned_add_byte (off : BitVec 5) (k : BitVec 2) (h : off.extractLsb' 0 2 = 0#2) :
    (off + k.setWidth 5).extractLsb' 0 2 = k ∧
      (off + k.setWidth 5).extractLsb' 2 3 = off.extractLsb' 2 3 := by
  revert off k; decide

/-- Byte `k` of a slot's view is byte `k` of the word there (R63). -/
theorem windowByte_offsetAt {p : Params} (h : p.offsets.wf = true) (s : State) (r : Reg) (k : BitVec 2) :
    s.windowByte p (r.offsetAt p.offsets + k.setWidth 5) =
      (s.peek p.layout r).extractLsb' (8 * k.toNat) 8 := by
  obtain ⟨aligned, slot⟩ := slotRegAt_offsetAt p.offsets h r
  obtain ⟨low, high⟩ := aligned_add_byte _ k aligned
  simp only [State.windowByte, low, high, slot]

/-- Settles O22: the word is put together again from its four bytes. -/
theorem windowIsLittleEndian : Obligations.WindowIsLittleEndian := by
  intro p s r h
  have byte0 : s.windowByte p (r.offsetAt p.offsets) = (s.peek p.layout r).extractLsb' 0 8 := by
    simpa using windowByte_offsetAt h s r 0#2
  have byte1 : s.windowByte p (r.offsetAt p.offsets + 1#5) = (s.peek p.layout r).extractLsb' 8 8 :=
    windowByte_offsetAt h s r 1#2
  have byte2 : s.windowByte p (r.offsetAt p.offsets + 2#5) = (s.peek p.layout r).extractLsb' 16 8 :=
    windowByte_offsetAt h s r 2#2
  have byte3 : s.windowByte p (r.offsetAt p.offsets + 3#5) = (s.peek p.layout r).extractLsb' 24 8 :=
    windowByte_offsetAt h s r 3#2
  rw [byte0, byte1, byte2, byte3]
  exact (bytesToWord_wordToBytes (s.peek p.layout r)).symm

/-- Among the operations only a `WR_CR1` can abort the engines; one that does not take `UE` from 1 to 0 only
stores its fields (R69, R156, R161). -/
theorem effect_engines (l : Layout) {i : Instr} {s : State}
    (stays : ∀ w, i = .wrCr1 w → ¬(s.ue && !wdataUE l w) = true) :
    (effect l i s).txs = s.txs ∧ (effect l i s).tsr = s.tsr ∧ (effect l i s).rxs = s.rxs ∧
      (effect l i s).rsr = s.rsr ∧ (effect l i s).rxcfg = s.rxcfg ∧ (effect l i s).txd = s.txd ∧
      (effect l i s).lineOut = s.lineOut := by
  cases i with
  | wrCr1 w =>
    rw [effect_wrCr1, if_neg (stays w rfl)]
    exact ⟨rfl, rfl, rfl, rfl, rfl, rfl, rfl⟩
  | _ => exact ⟨rfl, rfl, rfl, rfl, rfl, rfl, rfl⟩

/-- Settles O14: `UE` stands at bit 13 of the default layout. -/
theorem onlyDisableTouchesEngines : Obligations.OnlyDisableTouchesEngines := by
  intro i s t h stays
  obtain ⟨-, rfl⟩ := (exec_next_iff i s t).1 h
  refine effect_engines Layout.default fun w hi => ?_
  simpa [wdataUE, Layout.default] using stays w hi

end Sys2Proof.Machine

/-! The registers at any legal layout (R7, D6): a control register reads back what was written, masked to its
fields; a write depends on the fields of its word alone; a read shows each field at its own position. -/

namespace Sys2Proof.Machine

/-! ## A read after a write -/

section ReadBack

variable {l : Layout} {s t u : State}

theorem execAt_execAt_next {i j : Instr} (h₁ : execAt l i s = .next t) (h₂ : execAt l j t = .next u) :
    u = effect l j (effect l i s) := by
  obtain ⟨-, rfl⟩ := (execAt_next_iff l i s t).1 h₁
  exact ((execAt_next_iff l j _ u).1 h₂).2

/-- An abort touches no field of `CR1`, so it reads as stored even when the write disabled the block. -/
theorem cr1Word_wrCr1 (hl : l.wf = true) (s : State) (w : Word) :
    (effect l (.wrCr1 w) s).cr1Word l = w &&& maskOf l.cr1Bits := by
  rw [effect_wrCr1, ← cr1Word_storeCr1 s hl w]
  split <;> rfl

theorem rdCr1_after_wrCr1 (hl : l.wf = true) {w : Word} (h₁ : execAt l (.wrCr1 w) s = .next t)
    (h₂ : execAt l .rdCr1 t = .next u) : u.rdata = w &&& maskOf l.cr1Bits := by
  rw [execAt_execAt_next h₁ h₂, effect_rdCr1, State.setRdata_rdata, cr1Word_wrCr1 hl]

theorem rdCr2_after_wrCr2 {w : Word} (h₁ : execAt l (.wrCr2 w) s = .next t)
    (h₂ : execAt l .rdCr2 t = .next u) : u.rdata = w &&& maskOf l.cr2Bits := by
  rw [execAt_execAt_next h₁ h₂]
  exact placeBit_getLsbD_eq_and l.stop2 w

theorem rdBrr_after_wrBrr (hl : l.wf = true) {w : Word} (h₁ : execAt l (.wrBrr w) s = .next t)
    (h₂ : execAt l .rdBrr t = .next u) : u.rdata = w &&& maskOf l.brrBits := by
  rw [execAt_execAt_next h₁ h₂]
  exact placeField_extract l.div w (div_fits hl)

end ReadBack

/-- The masks of `CR1`, `CR2` and `BRR` at the default layout (R155, R165, R140). -/
theorem maskOf_default : maskOf Layout.default.cr1Bits = 0x3EA0#32 ∧
    maskOf Layout.default.cr2Bits = 0x2000#32 ∧ maskOf Layout.default.brrBits = 0xFFFF#32 := by decide

/-! ## A write at a layout and at the default layout -/

section Writes

variable {l : Layout} {w v : Word}

theorem execAt_eq_exec {i j : Instr} {s : State} (h : effect l i s = effect Layout.default j s) :
    execAt l i s = exec j s := by
  simp only [exec_eq_busOp, execAt, busOp, h]

theorem wdataDATA_eq_default (h : ∀ k, k < 9 → w.getLsbD (l.data + k) = v.getLsbD k) :
    wdataDATA l w = wdataDATA Layout.default v := by
  apply BitVec.eq_of_getLsbD_eq
  intro k hk
  simp only [wdataDATA_getLsbD, h k hk, Layout.default, Nat.zero_add]

theorem wdataDIV_eq_default (h : ∀ k, k < 16 → w.getLsbD (l.div + k) = v.getLsbD k) :
    wdataDIV l w = wdataDIV Layout.default v := by
  apply BitVec.eq_of_getLsbD_eq
  intro k hk
  simp only [wdataDIV_getLsbD, h k hk, Layout.default, Nat.zero_add]

theorem wdataWL_eq_default (h₁ : w.getLsbD (l.wl + 1) = v.getLsbD 12) (h₀ : w.getLsbD l.wl = v.getLsbD 11) :
    wdataWL l w = wdataWL Layout.default v := by
  apply wdataWL_of_bits
  · rw [wdataWL_getLsbD, h₀]
    rfl
  · rw [wdataWL_getLsbD, h₁]
    rfl

theorem wrSr_eq_default (hore : w.getLsbD l.ore = v.getLsbD 3) (hfe : w.getLsbD l.fe = v.getLsbD 1)
    (hpe : w.getLsbD l.pe = v.getLsbD 0) (s : State) : execAt l (.wrSr w) s = exec (.wrSr v) s := by
  apply execAt_eq_exec
  simp only [effect_wrSr, State.clearErrors, hore, hfe, hpe]
  rfl

theorem wrDr_eq_default (h : ∀ k, k < 9 → w.getLsbD (l.data + k) = v.getLsbD k) (s : State) :
    execAt l (.wrDr w) s = exec (.wrDr v) s := by
  apply execAt_eq_exec
  simp only [effect_wrDr, wdataDATA_eq_default h]

theorem wrBrr_eq_default (h : ∀ k, k < 16 → w.getLsbD (l.div + k) = v.getLsbD k) (s : State) :
    execAt l (.wrBrr w) s = exec (.wrBrr v) s := by
  apply execAt_eq_exec
  simp only [effect_wrBrr, wdataDIV_eq_default h]

theorem wrCr1_eq_default (hue : w.getLsbD l.ue = v.getLsbD 13) (hwl₁ : w.getLsbD (l.wl + 1) = v.getLsbD 12)
    (hwl₀ : w.getLsbD l.wl = v.getLsbD 11) (hpce : w.getLsbD l.pce = v.getLsbD 10)
    (hps : w.getLsbD l.ps = v.getLsbD 9) (htxeie : w.getLsbD l.txeie = v.getLsbD 7)
    (hrxneie : w.getLsbD l.rxneie = v.getLsbD 5) (s : State) :
    execAt l (.wrCr1 w) s = exec (.wrCr1 v) s := by
  have ue : wdataUE l w = wdataUE Layout.default v := hue
  have store : s.storeCr1 l w = s.storeCr1 Layout.default v := by
    simp only [State.storeCr1, ue, wdataWL_eq_default hwl₁ hwl₀, wdataPCE, hpce, wdataPS, hps, wdataTXEIE,
      htxeie, wdataRXNEIE, hrxneie]
    rfl
  apply execAt_eq_exec
  simp only [effect_wrCr1, ue, store]

theorem wrCr2_eq_default (h : w.getLsbD l.stop2 = v.getLsbD 13) (s : State) :
    execAt l (.wrCr2 w) s = exec (.wrCr2 v) s := by
  apply execAt_eq_exec
  simp only [effect_wrCr2, wdataSTOP2, h]
  rfl

end Writes

/-! ## A read at a layout -/

section Reads

variable {l : Layout} {s : State}

theorem rdSr_shows (hl : l.wf = true) (hr : s.running = true) :
    ∃ v : Word, execAt l .rdSr s = .next { s with rdata := v } ∧
      v.getLsbD l.txe = s.txe ∧ v.getLsbD l.tc = s.tc ∧ v.getLsbD l.rxne = s.rxne ∧
      v.getLsbD l.ore = s.ore ∧ v.getLsbD l.fe = s.fe ∧ v.getLsbD l.pe = s.pe ∧
      ∀ k, k ∉ l.srBits → v.getLsbD k = false := by
  obtain ⟨txe, tc, rxne, ore, fe, pe⟩ := srWord_fields s hl
  exact ⟨s.srWord l, execAt_running l .rdSr hr, txe, tc, rxne, ore, fe, pe, fun _ => srWord_elsewhere s l⟩

theorem rdDr_shows (hl : l.wf = true) (hr : s.running = true) :
    ∃ v : Word, execAt l .rdDr s = .next { s with rdata := v, rxne := false } ∧
      (∀ k, k < 9 → v.getLsbD (l.data + k) = s.rdr.getLsbD k) ∧
      ∀ k, k ∉ l.drBits → v.getLsbD k = false :=
  ⟨s.drWord l, execAt_running l .rdDr hr, fun _ => placeField_at l.data s.rdr (data_fits hl),
    fun _ => placeField_elsewhere l.data s.rdr⟩

theorem rdBrr_shows (hl : l.wf = true) (hr : s.running = true) :
    ∃ v : Word, execAt l .rdBrr s = .next { s with rdata := v } ∧
      (∀ k, k < 16 → v.getLsbD (l.div + k) = s.div.getLsbD k) ∧
      ∀ k, k ∉ l.brrBits → v.getLsbD k = false :=
  ⟨s.brrWord l, execAt_running l .rdBrr hr, fun _ => placeField_at l.div s.div (div_fits hl),
    fun _ => placeField_elsewhere l.div s.div⟩

theorem rdCr1_shows (hl : l.wf = true) (hr : s.running = true) :
    ∃ v : Word, execAt l .rdCr1 s = .next { s with rdata := v } ∧
      v.getLsbD l.ue = s.ue ∧ v.getLsbD (l.wl + 1) = s.wl.getLsbD 1 ∧
      v.getLsbD l.wl = s.wl.getLsbD 0 ∧ v.getLsbD l.pce = s.pce ∧ v.getLsbD l.ps = s.ps ∧
      v.getLsbD l.txeie = s.txeie ∧ v.getLsbD l.rxneie = s.rxneie ∧
      ∀ k, k ∉ l.cr1Bits → v.getLsbD k = false := by
  obtain ⟨ue, wl, pce, ps, txeie, rxneie⟩ := cr1Word_fields s hl
  have wlBit : ∀ k, k < 2 → (s.cr1Word l).getLsbD (l.wl + k) = s.wl.getLsbD k := by
    intro k hk
    rw [← wl, wdataWL_getLsbD, decide_eq_true hk, Bool.true_and]
  exact ⟨s.cr1Word l, execAt_running l .rdCr1 hr, ue, wlBit 1 (by decide), wlBit 0 (by decide), pce, ps,
    txeie, rxneie, fun _ => cr1Word_elsewhere s l⟩

theorem rdCr2_shows (hl : l.wf = true) (hr : s.running = true) :
    ∃ v : Word, execAt l .rdCr2 s = .next { s with rdata := v } ∧ v.getLsbD l.stop2 = s.stop2 ∧
      ∀ k, k ∉ l.cr2Bits → v.getLsbD k = false := by
  refine ⟨s.cr2Word l, execAt_running l .rdCr2 hr, ?_, fun k hk => ?_⟩
  · rw [cr2Word_getLsbD]
    simp [stop2_fits hl]
  · have : k ≠ l.stop2 := by simpa [Layout.cr2Bits] using hk
    simp [cr2Word_getLsbD, this]

end Reads

/-- Settles O9. The masks of the default layout are those of any legal one; a reserved slot has no field, so
no layout. -/
theorem controlReadsBackMasked : Obligations.ControlReadsBackMasked := by
  have hd := layout_default_wf
  obtain ⟨cr1, cr2, brr⟩ := maskOf_default
  refine ⟨fun s t u w => ?_, exec_eq_execAt, fun l s t u w hl => ?_, fun l s w v hl => ?_, fun l s hl hr => ?_⟩
  · simp only [exec_eq_execAt, ← cr1, ← cr2, ← brr]
    exact ⟨rdCr1_after_wrCr1 hd, rdCr2_after_wrCr2, rdBrr_after_wrBrr hd⟩
  · exact ⟨rdCr1_after_wrCr1 hl, rdCr2_after_wrCr2, rdBrr_after_wrBrr hl⟩
  · exact ⟨fun ore fe pe => wrSr_eq_default ore fe pe s, fun h => wrDr_eq_default h s,
      fun h => wrBrr_eq_default h s, fun ue wl₁ wl₀ pce ps txeie rxneie =>
        wrCr1_eq_default ue wl₁ wl₀ pce ps txeie rxneie s, fun h => wrCr2_eq_default h s,
      rfl, rfl, rfl, rfl, rfl, rfl⟩
  · exact ⟨rdSr_shows hl hr, rdDr_shows hl hr, rdBrr_shows hl hr, rdCr1_shows hl hr, rdCr2_shows hl hr⟩

end Sys2Proof.Machine

/-! The selector and byte encodings (R90 to R94, R103): which selectors decode, and decoding after encoding. -/

namespace Sys2Proof.Machine

/-! ## Selectors -/

/-- Whether a selector decodes depends on its size and alignment only (R103). -/
theorem decodeSelector_isOk (sel : BitVec 8) (w : Word) :
    (decodeSelector sel w).isOk = decide (sel.extractLsb' 5 2 = 0b10#2 ∧ sel.extractLsb' 0 2 = 0b00#2) := by
  rcases decodeSelector_cases sel w with ⟨size, e⟩ | ⟨size, aligned, e⟩ | ⟨size, aligned, e⟩ <;> rw [e]
  · simp [size, Except.isOk, Except.toBool]
  · simp [aligned, Except.isOk, Except.toBool]
  · simp [size, aligned, Except.isOk, Except.toBool]

/-- The map of R93 has sixteen rows: two directions and eight aligned offsets. -/
theorem wellFormedSelectors_length : ((List.range 256).filter fun n =>
    decide ((BitVec.ofNat 8 n).extractLsb' 5 2 = 0b10#2 ∧ (BitVec.ofNat 8 n).extractLsb' 0 2 = 0b00#2)).length =
      16 := by
  decide

/-- Settles O15: the three clauses are the cases of the decoder. -/
theorem exactlySixteenSelectorsDecode : Obligations.ExactlySixteenSelectorsDecode := by
  refine ⟨fun sel w => ?_, ?_⟩
  · rcases decodeSelector_cases sel w with ⟨size, e⟩ | ⟨size, aligned, e⟩ | ⟨size, aligned, e⟩
    · exact ⟨fun _ => e, fun h => absurd h size, fun h => absurd h size⟩
    · exact ⟨fun h => absurd size h, fun _ _ => e, fun _ h => absurd h aligned⟩
    · exact ⟨fun h => absurd size h, fun _ h => absurd aligned h,
        fun _ _ => ⟨_, e, selectorOf_slotReg sel w size aligned⟩⟩
  · simp only [decodeSelector_isOk]
    exact wellFormedSelectors_length

/-! ## Bytes -/

theorem withData_data (i : Instr) (w : Word) : i.withData (i.data.getD w) = i := by
  cases i <;> rfl

theorem isWrite_eq_isSome_data (i : Instr) : i.isWrite = i.data.isSome := by
  cases i <;> rfl

/-- A selector of a read is the whole operation (R91). -/
theorem decodeBytes_read {sel : Byte} {i : Instr} (hr : selW sel = false)
    (hd : decodeSelector sel 0#32 = .ok i) (rest : List Byte) : decodeBytes (sel :: rest) = .ok (i, rest) := by
  simp [decodeBytes, hd, hr]

/-- A selector of a write takes the four bytes behind it as its data word (R91, log 9). -/
theorem decodeBytes_write {sel : Byte} {i j : Instr} {w : Word} (hw : selW sel = true)
    (hj : decodeSelector sel 0#32 = .ok j) (hd : decodeSelector sel w = .ok i) (rest : List Byte) :
    decodeBytes (sel :: (wordToBytes w ++ rest)) = .ok (i, rest) := by
  simp [decodeBytes, wordToBytes, bytesToWord_wordToBytes, hj, hd, hw]

theorem decodeBytes_encode (i : Instr) (rest : List Byte) : decodeBytes (encode i ++ rest) = .ok (i, rest) := by
  have decodes (w : Word) := decodeSelector_selectorOf i w
  have hi := withData_data i 0#32
  have hw : selW (selectorOf i) = i.data.isSome := (selW_selectorOf i).trans (isWrite_eq_isSome_data i)
  unfold encode
  cases hdata : i.data with
  | none =>
    rw [hdata] at hi hw
    exact decodeBytes_read hw ((decodes _).trans (congrArg _ hi)) rest
  | some w =>
    rw [hdata] at hi hw
    exact decodeBytes_write hw (decodes _) ((decodes _).trans (congrArg _ hi)) rest

/-! ## Transactions -/

theorem decodeTransactionAt_transactionAt {o : Offsets} (h : o.wf = true) (i : Instr) :
    decodeTransactionAt o (transactionAt o i) = .ok i := by
  rw [← congrArg Except.ok (instr_of_reg i)]
  exact decodeTransactionAt_slot o h i.reg i.isWrite (i.data.getD 0#32)

theorem decodeTransaction_transactionOf (i : Instr) : decodeTransaction (transactionOf i) = .ok i := by
  rw [← decodeTransactionAt_default, ← transactionAt_default]
  exact decodeTransactionAt_transactionAt (by decide) i

/-- Settles O16: the round trip of bytes, and that of transactions at any legal table of offsets, of which the
default table is one. -/
theorem decodeOfEncodeIsInstr : Obligations.DecodeOfEncodeIsInstr :=
  ⟨decodeBytes_encode, decodeTransaction_transactionOf, fun _ i h => decodeTransactionAt_transactionAt h i,
    decodeTransactionAt_default⟩

/-- Settles O18: each listed word is decoded. -/
theorem listedWordsDecode : Obligations.ListedWordsDecode := by
  unfold Obligations.ListedWordsDecode
  decide

end Sys2Proof.Machine

/-! Frames level by level (R95 to R98), and what the parity level protects (R97, R101). -/

namespace Sys2Proof.Machine

/-! ## Parity -/

/-- The parity level cancels the exclusive-or of the data levels and the parity kind (R97). -/
theorem foldr_xor_dataLevels_par (v : BitVec 9) (n : Nat) (ps : Bool) :
    (dataLevels v n ++ [par v n ps]).foldr Bool.xor ps = false := by
  rw [List.foldr_append, foldr_xor_eq, List.foldr_cons, List.foldr_nil, par_eq]
  simp

/-- With the parity level the number of 1s is even or odd as the parity kind says (R97). -/
theorem count_dataLevels_par (v : BitVec 9) (n : Nat) (ps : Bool) :
    (dataLevels v n ++ [par v n ps]).count true % 2 = if ps then 1 else 0 := by
  have odd := foldr_xor_dataLevels_par v n ps
  rw [foldr_xor_eq, bne_eq_false_iff_eq] at odd
  rw [← if_congr (decide_eq_true_iff.symm.trans (Bool.eq_iff_iff.1 odd)) rfl rfl]
  split <;> omega

/-- One inverted level inverts an exclusive-or. -/
theorem foldr_xor_modify_not (b : Bool) {ls : List Level} {k : Nat} (h : k < ls.length) :
    (ls.modify k not).foldr Bool.xor b = !ls.foldr Bool.xor b := by
  induction ls generalizing k with
  | nil => simp at h
  | cons x xs ih =>
    cases k with
    | zero => simp
    | succ k => simp [ih (Nat.lt_of_succ_lt_succ h)]

/-- `p_bad` of R101 is the exclusive-or of the data levels, the parity level and the parity kind. -/
theorem rxDecode_pBad {n : Nat} {ls : List Level} (hn : n ≤ 9) (hl : n < ls.length) (ps : Bool) :
    (rxDecode n true ps ls).pBad = (ls.take (n + 1)).foldr Bool.xor ps := by
  have levels : ls.take (n + 1) = ls.take n ++ [ls.getD n false] := by
    rw [List.getD_eq_getElem _ _ hl, List.take_append_getElem]
  have parity : par (charOf n ls) n ps = (ls.take n).foldr Bool.xor ps := by
    rw [par, dataLevels_charOf n ls hn hl.le]
  rw [levels, List.foldr_append]
  simp only [rxDecode, parity, foldr_xor_eq, List.foldr_cons, List.foldr_nil]
  cases ls.getD n false <;> simp

/-- Settles O42: without the inversion the exclusive-or of `p_bad` is 0. -/
theorem parityDetectsOneWrongLevel : Obligations.ParityDetectsOneWrongLevel := by
  intro v n k ps stop hn hk
  have sent : (dataLevels v n ++ [par v n ps]).length = n + 1 := by simp
  rw [rxDecode_pBad hn (by simp), List.take_modify, List.take_left' sent,
    foldr_xor_modify_not ps (by omega), foldr_xor_dataLevels_par]
  rfl

/-! ## Layout -/

theorem nbits_of_ne {wl : BitVec 2} (h : wl ≠ 0b11#2) :
    nbits wl = some (if wl = 0b00#2 then 8 else if wl = 0b01#2 then 7 else 9) := by
  revert wl; decide

theorem ite_eq_toNat (b : Bool) : (if b then 1 else 0) = b.toNat := (Bool.cond_eq_ite b 1 0).symm

section Levels

variable {v : BitVec 9} {wl : BitVec 2} {pce ps stop2 : Bool} {n : Nat} {f : List Level}
variable (hn : nbits wl = some n) (hf : frame v wl pce ps stop2 = some f)
include hn hf

/-- A frame is its start bit, the levels it carries, and one or two stop bits (R95, R98). -/
theorem frame_parts : f = false :: (dataLevels v n ++ if pce then [par v n ps] else []) ++
    List.replicate (1 + stop2.toNat) true := by
  rw [frame_eq hn] at hf
  cases hf
  cases stop2 <;> simp [List.replicate]

theorem frame_start : f[0]? = some false := by
  rw [frame_parts hn hf]
  rfl

/-- The data levels follow the start bit (R95). -/
theorem frame_data {k : Nat} (hk : k < n) : f[1 + k]? = some (v.getLsbD k) := by
  have behindStart : f[1 + k]? = (dataLevels v n)[k]? := by
    rw [frame_parts hn hf, Nat.add_comm 1 k, List.cons_append, List.getElem?_cons_succ, List.append_assoc,
      List.getElem?_append_left (by simpa using hk)]
  rw [behindStart, dataLevels_getElem? v n k hk]

/-- With parity on, the levels behind the start bit are the data levels and the parity level (R98). -/
theorem frame_carried (hp : pce = true) : (f.drop 1).take (n + 1) = dataLevels v n ++ [par v n ps] := by
  subst hp
  rw [frame_parts hn hf]
  exact List.take_left' (by simp)

/-- Behind the data and parity levels there are stop bits only (R95). -/
theorem frame_stop {k : Nat} (hk : 1 + n + pce.toNat ≤ k) (hl : k < f.length) : f[k]? = some true := by
  have carried : (false :: (dataLevels v n ++ if pce then [par v n ps] else [])).length = 1 + n + pce.toNat := by
    cases pce <;> simp <;> omega
  have inStop : k - (1 + n + pce.toNat) < 1 + stop2.toNat := by
    have := frame_length hn hf
    omega
  rw [frame_parts hn hf, List.getElem?_append_right (carried.trans_le hk), carried,
    List.getElem?_replicate_of_lt inStop]

end Levels

/-- Settles O33: each level by its place in the frame. -/
theorem frameLayout : Obligations.FrameLayout := by
  intro v wl pce ps stop2
  refine ⟨(frame_eq_none_iff v wl pce ps stop2).2, fun hwl => ?_⟩
  have hn := nbits_of_ne hwl
  obtain ⟨f, hf⟩ : ∃ f, frame v wl pce ps stop2 = some f := ⟨_, frame_eq hn v pce ps stop2⟩
  obtain ⟨low, high⟩ := frame_bounds hf
  simp only [ite_eq_toNat pce, ite_eq_toNat stop2]
  refine ⟨_, f, rfl, hf, frame_length hn hf, low, high, frame_start hn hf, fun _ => frame_data hn hf,
    fun hp => ?_, fun _ => frame_stop hn hf⟩
  rw [frame_carried hn hf hp, count_dataLevels_par]

end Sys2Proof.Machine

/-! The status register on the bus at the default layout (R120, R122). -/

namespace Sys2Proof.Machine

/-- Settles O1: the read of `SR` at any layout, at the bit positions of the default one. -/
theorem rdSrReturnsFlags : Obligations.RdSrReturnsFlags := by
  refine ⟨decodeSelector_selectorOf .rdSr, fun s hr => ?_⟩
  obtain ⟨v, next, txe, tc, rxne, ore, fe, pe, elsewhere⟩ := rdSr_shows layout_default_wf hr
  refine ⟨v, (exec_eq_execAt .rdSr s).trans next, txe, tc, rxne, ore, fe, pe, ?_⟩
  intro k h7 h6 h5 h3 h1 h0
  exact elsewhere k (by simp [Layout.srBits, Layout.default, h7, h6, h5, h3, h1, h0])

/-- Settles O2: the effect of `WR_SR` is `State.clearErrors`, which is the statement's record update once the
default positions of the error flags are read off. -/
theorem wrSrClearsErrorFlags : Obligations.WrSrClearsErrorFlags :=
  ⟨fun w => decodeSelector_selectorOf (.wrSr w) w, fun _ w hr => exec_running (.wrSr w) hr⟩

end Sys2Proof.Machine

/-! The data register on the bus at the default layout (R130, R132, R133). -/

namespace Sys2Proof.Machine

/-- The character of `DR` stands in bits 8:0 at the default layout (R99, R100). -/
theorem layout_default_data_add (k : Nat) : Layout.default.data + k = k := Nat.zero_add k

/-- With `RXNE` = 0 only the transmit request is left (R243). -/
theorem irq_of_rxne_eq_false {s : State} (h : s.rxne = false) : s.irq = (s.txe && s.txeie) := by
  simp [State.irq, h]

/-- With `TXE` = 0 only the receive request is left (R243). -/
theorem irq_of_txe_eq_false {s : State} (h : s.txe = false) : s.irq = (s.rxne && s.rxneie) := by
  simp [State.irq, h]

/-- With `TXE` = 0 the transmission is not complete (R31). -/
theorem tc_of_txe_eq_false {s : State} (h : s.txe = false) : s.tc = false := by
  simp [State.tc, h]

/-- A character waiting in `TDR` is loaded exactly if the block is enabled, has a bit rate and sends nothing
(R176, R148). -/
theorem txLoadEnabled_iff_of_waiting {s : State} (hr : s.running = true) (h : s.txe = false) :
    s.txLoadEnabled = true ↔ s.ue = true ∧ s.div ≠ 0#16 ∧ s.txs = .tIdle := by
  simp [State.txLoadEnabled, hr, h, and_assoc]

/-- Settles O3: the read of `DR` at any layout, at the bit positions of the default one. -/
theorem rdDrReturnsCharacter : Obligations.RdDrReturnsCharacter := by
  refine ⟨decodeSelector_selectorOf .rdDr, fun s hr => ?_⟩
  obtain ⟨v, next, data, elsewhere⟩ := rdDr_shows layout_default_wf hr
  simp only [layout_default_data_add] at data
  rw [exec_eq_execAt, next]
  refine ⟨v, rfl, data, fun k hk => elsewhere k ?_, ?_⟩
  · simpa [Layout.drBits, Layout.default] using hk
  · rintro _ ⟨⟩
    exact irq_of_rxne_eq_false rfl

/-- Settles O5: the effect of `WR_DR` is a character waiting, and the flags, the request and the enabling of
`TX_LOAD` follow from `TXE` = 0. -/
theorem wrDrLoadsTdr : Obligations.WrDrLoadsTdr := by
  refine ⟨fun w => decodeSelector_selectorOf (.wrDr w) w, fun s w hr => ?_⟩
  rw [exec_running (.wrDr w) hr, effect_wrDr]
  refine ⟨wdataDATA Layout.default w, rfl, fun k hk => ?_, ?_⟩
  · rw [wdataDATA_getLsbD, layout_default_data_add, decide_eq_true hk, Bool.true_and]
  · rintro _ ⟨⟩
    exact ⟨tc_of_txe_eq_false rfl, irq_of_txe_eq_false rfl, txLoadEnabled_iff_of_waiting hr rfl⟩

end Sys2Proof.Machine

/-! Nor does a host access or a step of the environment read the timing level (R147, R289), so no atomic step
does. -/

namespace Sys2Proof.Machine

theorem effect_untimed (l : Layout) (i : Instr) (s : State) :
    (effect l i s.untimed).untimed = (effect l i s).untimed := by
  cases i with
  | wrCr1 w =>
    rw [effect_wrCr1, effect_wrCr1, State.untimed_ue]
    split <;> rfl
  | _ => rfl

theorem busOp_ignoresTiming {f : State → State} (hf : ∀ s, (f s.untimed).untimed = (f s).untimed) :
    IgnoresTiming (busOp f) :=
  fun s => untimedOutcome_ite rfl (untimedOutcome_ite rfl (congrArg Host.Outcome.next (hf s)))

theorem execAt_ignoresTiming (l : Layout) (i : Instr) : IgnoresTiming (execAt l i) :=
  busOp_ignoresTiming (effect_untimed l i)

theorem ignoresTiming_refused (r : Refusal) : IgnoresTiming fun _ => .refused r := fun _ => rfl

theorem transact_ignoresTiming (p : Params) (t : Transaction) : IgnoresTiming (transact p t) := by
  unfold transact
  cases decodeTransactionAt p.offsets t with
  | error r => exact ignoresTiming_refused _
  | ok i => exact execAt_ignoresTiming p.layout i

theorem hostAccess_ignoresTiming (p : Params) (a : HostAccess) : IgnoresTiming (hostAccess p a) := by
  unfold hostAccess
  cases route p a with
  | error r => exact ignoresTiming_refused r
  | ok t => exact transact_ignoresTiming p t

theorem atomic_ignoresTiming (p : Params) {e : Event} (he : e.isAtomic = true) :
    IgnoresTiming (runEvent p e) := by
  cases e with
  | host a => exact hostAccess_ignoresTiming p a
  | rstAssert | rstRelease | clkGate | clkUngate => exact fun _ => rfl
  | txLoad | txBit | txEnd | txChar | rxStart | rxBit _ | rxEnd | rxChar _ _ _ =>
    exact engine_ignoresTiming p rfl
  | cycle _ _ => cases he

/-- Settles O47: both steps have the outcome of the step from the one state they agree on. -/
theorem untimedStepsDoNotReadTimingState : Obligations.UntimedStepsDoNotReadTimingState :=
  fun p _ _ _ atomic same => (atomic_ignoresTiming p atomic).congr same

end Sys2Proof.Machine

/-! The divisor on the bus at the default layout (R140, R141). -/

namespace Sys2Proof.Machine

/-- The divisor stands in bits 15:0 of `BRR` at the default layout (R140). -/
theorem layout_default_div_add (k : Nat) : Layout.default.div + k = k := Nat.zero_add k

/-- Settles O6: the effect of `WR_BRR`, and the read of `BRR` at any layout, at the bit positions of the default
one. -/
theorem brrStoresDivisor : Obligations.BrrStoresDivisor := by
  refine ⟨fun w => ⟨decodeSelector_selectorOf .rdBrr w, decodeSelector_selectorOf (.wrBrr w) w⟩,
    fun s w hr => ⟨wdataDIV Layout.default w, exec_running (.wrBrr w) hr, fun k hk => ?_⟩, fun s hr => ?_⟩
  · rw [wdataDIV_getLsbD, layout_default_div_add, decide_eq_true hk, Bool.true_and]
  · obtain ⟨v, next, div, elsewhere⟩ := rdBrr_shows layout_default_wf hr
    simp only [layout_default_div_add] at div
    refine ⟨v, (exec_eq_execAt .rdBrr s).trans next, div, fun k hk => elsewhere k ?_⟩
    simpa [Layout.brrBits, Layout.default] using hk

end Sys2Proof.Machine

/-! The control registers and the reserved slots on the bus at the default layout (R155 to R172). -/

namespace Sys2Proof.Machine

/-- Settles O7: the read of `CR1` at any layout, at the bit positions of the default one. -/
theorem rdCr1ReturnsFields : Obligations.RdCr1ReturnsFields := by
  refine ⟨decodeSelector_selectorOf .rdCr1, fun s hr => ?_⟩
  obtain ⟨v, next, ue, wl₁, wl₀, pce, ps, txeie, rxneie, elsewhere⟩ := rdCr1_shows layout_default_wf hr
  refine ⟨v, (exec_eq_execAt .rdCr1 s).trans next, ue, wl₁, wl₀, pce, ps, txeie, rxneie, ?_⟩
  intro k h13 h12 h11 h10 h9 h7 h5
  exact elsewhere k (by simp [Layout.cr1Bits, Layout.default, List.range', h13, h12, h11, h10, h9, h7, h5])

/-- A write that takes `UE` from 1 to 0 stores the fields, `UE` = 0 among them, and aborts both engines
(R156, R161). -/
theorem effect_wrCr1_of_disabling (l : Layout) {s : State} {w : Word} (h : s.ue = true ∧ wdataUE l w = false) :
    effect l (.wrCr1 w) s = ({ s.storeCr1 l w with ue := false } : State).abortEngines := by
  obtain ⟨hs, hw⟩ := h
  rw [effect_wrCr1, if_pos (by simp [hs, hw]), ← hw]
  rfl

/-- Any other write of `CR1` only stores the fields (R156). -/
theorem effect_wrCr1_of_not_disabling (l : Layout) {s : State} {w : Word}
    (h : ¬(s.ue = true ∧ wdataUE l w = false)) : effect l (.wrCr1 w) s = s.storeCr1 l w := by
  rw [effect_wrCr1, if_neg (by simpa using h)]

/-- The request follows the new enables whether or not the write aborts, as an abort moves no flag (R156, R243). -/
theorem effect_wrCr1_irq (l : Layout) (s : State) (w : Word) :
    (effect l (.wrCr1 w) s).irq = ((s.rxne && wdataRXNEIE l w) || (s.txe && wdataTXEIE l w)) := by
  rw [effect_wrCr1]
  split <;> rfl

/-- Settles O8: the two clauses are the two effects of `WR_CR1`, with the fields at the bit positions of the
default layout. -/
theorem wrCr1StoresFieldsAndMayAbort : Obligations.WrCr1StoresFieldsAndMayAbort := by
  refine ⟨fun w => decodeSelector_selectorOf (.wrCr1 w) w, fun s w hr => ?_⟩
  refine ⟨wdataWL Layout.default w, effect Layout.default (.wrCr1 w) s, exec_running (.wrCr1 w) hr,
    wdataWL_getLsbD Layout.default w 1, wdataWL_getLsbD Layout.default w 0,
    effect_wrCr1_irq Layout.default s w, effect_wrCr1_of_not_disabling Layout.default,
    effect_wrCr1_of_disabling Layout.default⟩

/-- Settles O10: the effect of `WR_CR2`, and the read of `CR2` at any layout, at the bit position of the
default one. -/
theorem cr2StoresStop2 : Obligations.Cr2StoresStop2 := by
  refine ⟨fun w => ⟨decodeSelector_selectorOf .rdCr2 w, decodeSelector_selectorOf (.wrCr2 w) w⟩,
    fun s w hr => exec_running (.wrCr2 w) hr, fun s hr => ?_⟩
  obtain ⟨v, next, stop2, elsewhere⟩ := rdCr2_shows layout_default_wf hr
  refine ⟨v, (exec_eq_execAt .rdCr2 s).trans next, stop2, fun k hk => elsewhere k ?_⟩
  simpa [Layout.cr2Bits, Layout.default] using hk

/-- Settles O11: each operation completes in a running block, and its effect is to answer 0, or nothing. -/
theorem reservedSlotsReadZeroIgnoreWrites : Obligations.ReservedSlotsReadZeroIgnoreWrites := by
  refine ⟨fun w => ?_, fun s w hr => ?_⟩
  · exact ⟨decodeSelector_selectorOf .rdRsv14 w, decodeSelector_selectorOf .rdRsv18 w,
      decodeSelector_selectorOf .rdRsv1c w, decodeSelector_selectorOf (.wrRsv14 w) w,
      decodeSelector_selectorOf (.wrRsv18 w) w, decodeSelector_selectorOf (.wrRsv1c w) w⟩
  · exact ⟨exec_running .rdRsv14 hr, exec_running .rdRsv18 hr, exec_running .rdRsv1c hr,
      exec_running (.wrRsv14 w) hr, exec_running (.wrRsv18 w) hr, exec_running (.wrRsv1c w) hr⟩

end Sys2Proof.Machine

/-! The atomic steps of the transmitter (R176 to R180, R183). -/

namespace Sys2Proof.Machine

/-- The pre-condition of `TX_LOAD` (R176, R148). -/
theorem txLoadEnabled_iff {s : State} : s.txLoadEnabled = true ↔
    s.running = true ∧ s.ue = true ∧ s.div ≠ 0#16 ∧ s.txs = .tIdle ∧ s.txe = false := by
  simp [State.txLoadEnabled, and_assoc]

theorem txLoad_of_not_enabled {s : State} (h : ¬s.txLoadEnabled = true) : txLoad s = .next s := if_neg h

theorem txLoad_of_enabled {s : State} {f : List Level} (h : s.txLoadEnabled = true)
    (hf : frame s.tdr s.wl s.pce s.ps s.stop2 = some f) :
    txLoad s = .next { s with tsr := f, txs := .tShift, txe := true, txCnt := s.div } := by
  simp only [txLoad, h, if_true, hf]

theorem txLoad_of_reservedWL {s : State} (h : s.txLoadEnabled = true) (hw : s.wl = 0b11#2) :
    txLoad s = .refused .reservedWL := by
  simp only [txLoad, h, if_true, (frame_eq_none_iff _ _ _ _ _).2 hw]

/-- Settles O31: enabled, the step takes the frame, which exists exactly under a legal word length. -/
theorem txLoadTakesCharacter : Obligations.TxLoadTakesCharacter := by
  intro s hr
  refine ⟨fun h => txLoad_of_not_enabled fun enabled => h (txLoadEnabled_iff.1 enabled).2, fun hu hd hx he => ?_⟩
  have enabled := txLoadEnabled_iff.2 ⟨hr, hu, hd, hx, he⟩
  refine ⟨txLoad_of_reservedWL enabled, fun hw => ?_⟩
  have hf := frame_eq (nbits_of_ne hw) s.tdr s.pce s.ps s.stop2
  exact ⟨_, _, hf, txLoad_of_enabled enabled hf, rfl, rfl, fun hie => by simp [State.irq, hie]⟩

/-- With a frame in flight, `TX_BIT` drives the head of `TSR` and records it (R177). -/
theorem txBit_of_cons {s : State} {b : Level} {rest : List Level} (hr : s.running = true)
    (hx : s.txs = .tShift) (ht : s.tsr = b :: rest) : txBit s =
      .next { s with txd := b, lineOut := s.lineOut ++ [b], tsr := rest, txCnt := s.div } := by
  simp [txBit, hr, hx, ht]

theorem txBit_of_disabled {s : State} (h : s.txs = .tIdle ∨ s.tsr = []) : txBit s = .next s := by
  rcases txBit_cases s with ⟨-, e⟩ | ⟨b, rest, -, hx, ht, -⟩
  · exact e
  · rcases h with h | h
    · cases hx.symm.trans h
    · cases ht.symm.trans h

/-- With every level driven, `TX_END` closes the frame (R179). -/
theorem txEnd_of_nil {s : State} (hr : s.running = true) (hx : s.txs = .tShift) (ht : s.tsr = []) :
    txEnd s = .next { s with txs := .tIdle } := by
  simp [txEnd, hr, hx, ht]

theorem txEnd_of_disabled {s : State} (h : s.txs = .tIdle ∨ s.tsr ≠ []) : txEnd s = .next s := by
  rcases txEnd_cases s with ⟨-, e⟩ | ⟨-, hx, ht, -⟩
  · exact e
  · rcases h with h | h
    · cases hx.symm.trans h
    · exact absurd ht h

/-- Settles O32: each of the two steps under its pre-condition, and without it. -/
theorem txBitAndTxEnd : Obligations.TxBitAndTxEnd := by
  intro s hr
  refine ⟨fun _ _ => txBit_of_cons hr, fun hx ht => ?_, txBit_of_disabled, txEnd_of_disabled⟩
  exact ⟨_, txEnd_of_nil hr hx ht, rfl, by simp [State.tc]⟩

theorem txChar_of_shift {s : State} (hr : s.running = true) (hx : s.txs = .tShift) : txChar s =
    .next { s with lineOut := s.lineOut ++ s.tsr, tsr := [], txd := true, txs := .tIdle } := by
  simp [txChar, hr, hx]

theorem txChar_of_idle {s : State} (hx : s.txs = .tIdle) : txChar s = .next s := by
  simp [txChar, hx]

/-! ## A frame from its first level to its close -/

/-- One `TX_BIT` per level left in `TSR` drives them all and leaves the last one on the pin. -/
theorem runEvents_txBits (p : Params) (ls : List Level) {s : State} (hr : s.running = true)
    (hx : s.txs = .tShift) (ht : s.tsr = ls) : ∃ k,
    runEvents p (List.replicate ls.length .txBit) s = .next
      { s with lineOut := s.lineOut ++ ls, tsr := [], txd := ls.getLastD s.txd, txCnt := k } := by
  induction ls generalizing s with
  | nil =>
    refine ⟨s.txCnt, ?_⟩
    rw [List.append_nil]
    cases s
    cases ht
    rfl
  | cons b rest ih =>
    have first : runEvent p .txBit s = _ := txBit_of_cons hr hx ht
    rw [List.length_cons, List.replicate_succ, runEvents_cons, first, andThen_next]
    obtain ⟨k, run⟩ := ih (s := { s with txd := b, lineOut := s.lineOut ++ [b], tsr := rest, txCnt := s.div })
      hr hx rfl
    refine ⟨k, run.trans ?_⟩
    rw [List.append_assoc, List.singleton_append, List.getLastD_cons]

/-- The bit steps left of a frame and `TX_END` put the rest of the frame on the line and idle the sequencer
(R180 (b)). -/
theorem runEvents_restOfFrame (p : Params) {s : State} (hr : s.running = true) (hx : s.txs = .tShift) : ∃ k,
    runEvents p (List.replicate s.tsr.length .txBit ++ [.txEnd]) s = .next
      { s with lineOut := s.lineOut ++ s.tsr, tsr := [], txd := s.tsr.getLastD s.txd, txs := .tIdle,
               txCnt := k } := by
  obtain ⟨k, bits⟩ := runEvents_txBits p s.tsr hr hx rfl
  refine ⟨k, ?_⟩
  rw [runEvents_append, bits, andThen_next, runEvents_single]
  exact txEnd_of_nil hr hx rfl

/-- Settles O34: `TX_LOAD` puts the frame in `TSR`, and the rest is the rest of a frame; its last level is a
stop bit. -/
theorem wholeFrameOnTheLine : Obligations.WholeFrameOnTheLine := by
  intro p s f enabled hf
  obtain ⟨hr, -⟩ := txLoadEnabled_iff.1 enabled
  have load : runEvent p .txLoad s = _ := txLoad_of_enabled enabled hf
  rw [List.append_assoc, List.singleton_append, runEvents_cons, load, andThen_next]
  obtain ⟨k, rest⟩ := runEvents_restOfFrame p
    (s := { s with tsr := f, txs := .tShift, txe := true, txCnt := s.div }) hr rfl
  have last : f.getLastD s.txd = true := by rw [List.getLastD_eq_getLast?, frame_getLast? hf, Option.getD_some]
  exact ⟨_, rest, rfl, rfl, rfl, last, rfl, rfl⟩

/-- In reset or while the clock is gated engine steps do nothing (R270, R276). -/
theorem runEvents_engines_not_running (p : Params) {es : List Event} {s : State}
    (h : ∀ e ∈ es, e.isEngine = true) (hr : s.running = false) : runEvents p es s = .next s := by
  induction es with
  | nil => rfl
  | cons e es ih =>
    obtain ⟨he, hes⟩ := List.forall_mem_cons.1 h
    rw [runEvents_cons, engine_not_running he hr, andThen_next, ih hes]

/-- The pin is at 1 when the frame in flight is over, whether its stop bits are left in `TSR` or driven
(R95, R179). -/
theorem State.Inv.lastLevel {s : State} (h : s.Inv) (hx : s.txs = .tShift) : s.tsr.getLastD s.txd = true := by
  rcases h.txStop with nil | last
  · rw [nil]
    exact h.txDriven hx nil
  · rw [List.getLastD_eq_getLast?, last]
    rfl

/-- Settles O35. With a frame in flight both put the rest of it on the line and leave the pin at 1; without
one, or in a block that is stopped, neither does anything. -/
theorem txCharMergesBitSteps : Obligations.TxCharMergesBitSteps := by
  intro p s h
  cases hr : s.running with
  | false =>
    have engines : ∀ e ∈ List.replicate s.tsr.length .txBit ++ [.txEnd], Event.isEngine e = true := by
      simp [or_imp, forall_and, Event.isEngine]
    rw [engine_not_running rfl hr, runEvents_engines_not_running p engines hr]
  | true =>
    cases hx : s.txs with
    | tIdle =>
      obtain ⟨nil, -⟩ := h.txIdle hx
      rw [nil]
      have close : runEvent p .txEnd s = _ := txEnd_of_disabled (.inl hx)
      have merge : runEvent p .txChar s = _ := txChar_of_idle hx
      rw [merge, List.length_nil, List.replicate_zero, List.nil_append, runEvents_single, close]
    | tShift =>
      obtain ⟨k, rest⟩ := runEvents_restOfFrame p hr hx
      have merge : runEvent p .txChar s = _ := txChar_of_shift hr hx
      rw [rest, merge, h.lastLevel hx]
      rfl

end Sys2Proof.Machine

/-! The invariant of every step (R43, R95, R105, R161, R180, R208, R270). -/

namespace Sys2Proof.Machine

/-! ## A block that runs -/

/-- A running block that meets the invariant: what engine steps and bus operations keep. -/
structure State.Ready (s : State) : Prop where
  running : s.running = true
  inv : s.Inv

/-- The clause of the invariant about reset says nothing of a running block. -/
theorem not_inReset {P : Prop} {s : State} (hr : s.running = true) (h : s.rstN = false) : P := by
  simp [State.running, h] at hr

/-- Taken from a running block that meets the invariant, the step leads to another. -/
def KeepsReady (f : State → Result) : Prop := ∀ ⦃s t : State⦄, s.Ready → f s = .next t → t.Ready

theorem KeepsReady.andThen {f g : State → Result} (hf : KeepsReady f) (hg : KeepsReady g) :
    KeepsReady fun s => andThen (f s) g := by
  intro s t hs h
  exact andThen_keeps h (fun u => hf hs) fun u hu => hg hu

/-! ## The transmitter -/

theorem txLoad_keepsReady : KeepsReady txLoad := by
  intro s t hs h
  rcases txLoad_cases s with ⟨-, e⟩ | ⟨-, -, e⟩ | ⟨f, enabled, hf, e⟩ <;> cases e.symm.trans h
  · exact hs
  · obtain ⟨low, high⟩ := frame_bounds hf
    obtain ⟨-, enabled, -⟩ := txLoadEnabled_iff.1 enabled
    have nonempty : f ≠ [] := List.ne_nil_of_length_pos (by omega)
    exact ⟨hs.running, { hs.inv with
      txIdle := nofun
      txDriven := fun _ nil => absurd nil nonempty
      txStop := .inr (frame_getLast? hf)
      tsrBound := high
      disabled := fun hu => nomatch enabled.symm.trans hu
      inReset := not_inReset hs.running }⟩

theorem txBit_keepsReady : KeepsReady txBit := by
  intro s t hs h
  rcases txBit_cases s with ⟨-, e⟩ | ⟨b, rest, -, hx, ht, e⟩ <;> cases e.symm.trans h
  · exact hs
  · have stop := hs.inv.txStop
    have bound := hs.inv.tsrBound
    rw [ht] at stop bound
    have last : (b :: rest).getLast? = some true := stop.resolve_left nofun
    exact ⟨hs.running, { hs.inv with
      txIdle := fun idle => nomatch hx.symm.trans idle
      txDriven := by
        rintro - rfl
        simpa using last
      txStop := by
        cases rest with
        | nil => exact .inl rfl
        | cons c cs => exact .inr last
      tsrBound := Nat.le_of_succ_le bound
      inReset := not_inReset hs.running }⟩

theorem txEnd_keepsReady : KeepsReady txEnd := by
  intro s t hs h
  rcases txEnd_cases s with ⟨-, e⟩ | ⟨-, hx, ht, e⟩ <;> cases e.symm.trans h
  · exact hs
  · exact ⟨hs.running, { hs.inv with
      txIdle := fun _ => ⟨ht, hs.inv.txDriven hx ht⟩
      txDriven := nofun
      disabled := fun hu => ⟨rfl, (hs.inv.disabled hu).2⟩
      inReset := not_inReset hs.running }⟩

theorem txChar_keepsReady : KeepsReady txChar := by
  intro s t hs h
  rcases txChar_cases s with ⟨-, e⟩ | ⟨-, -, e⟩ <;> cases e.symm.trans h
  · exact hs
  · exact ⟨hs.running, { hs.inv with
      txIdle := fun _ => ⟨rfl, rfl⟩
      txDriven := nofun
      txStop := .inl rfl
      tsrBound := Nat.zero_le 13
      disabled := fun hu => ⟨rfl, (hs.inv.disabled hu).2⟩
      inReset := not_inReset hs.running }⟩

/-! ## The receiver -/

/-- The pre-condition of `RX_START` (R200, R148). -/
theorem rxStartEnabled_iff {s : State} : s.rxStartEnabled = true ↔
    s.running = true ∧ s.ue = true ∧ s.div ≠ 0#16 ∧ s.rxs = .rIdle := by
  simp [State.rxStartEnabled, and_assoc]

theorem rxStart_keepsReady : KeepsReady rxStart := by
  intro s t hs h
  rcases rxStart_cases s with ⟨-, e⟩ | ⟨-, -, e⟩ | ⟨n, enabled, hn, e⟩ <;> cases e.symm.trans h
  · exact hs
  · obtain ⟨-, enabled, -⟩ := rxStartEnabled_iff.1 enabled
    exact ⟨hs.running, { hs.inv with
      rxIdle := nofun
      rxNeed := fun _ => ⟨_, need_eq (c := ⟨s.wl, s.pce, s.ps⟩) hn, Nat.zero_le _⟩
      disabled := fun hu => nomatch enabled.symm.trans hu
      inReset := not_inReset hs.running }⟩

theorem rxBit_keepsReady (b : Level) : KeepsReady (rxBit b) := by
  intro s t hs h
  rcases rxBit_cases b s with ⟨e, -⟩ | ⟨-, -, -, e⟩ | ⟨n, -, hx, hn, room, e⟩ <;> cases e.symm.trans h
  · exact hs
  · exact ⟨hs.running, { hs.inv with
      rxIdle := fun idle => nomatch hx.symm.trans idle
      rxNeed := fun _ => ⟨n, hn, by simpa using room⟩
      inReset := not_inReset hs.running }⟩

/-- Delivering a character touches no field the invariant speaks of in a running block. -/
theorem State.Ready.deliver {s : State} (hs : s.Ready) (c : RxChar) : (s.deliver c).Ready := by
  rw [deliver_eq]
  exact ⟨hs.running, { hs.inv with inReset := not_inReset hs.running }⟩

theorem State.Ready.closeRx {s : State} (hs : s.Ready) : ({ s with rsr := [], rxs := .rIdle } : State).Ready :=
  ⟨hs.running, { hs.inv with
    rxIdle := fun _ => rfl
    rxNeed := nofun
    disabled := fun hu => by
      obtain ⟨idle, -, clear⟩ := hs.inv.disabled hu
      exact ⟨idle, rfl, clear⟩
    inReset := not_inReset hs.running }⟩

theorem rxEnd_keepsReady : KeepsReady rxEnd := by
  intro s t hs h
  obtain rfl | ⟨c, rfl⟩ := rxEnd_next h
  · exact hs
  · exact (hs.deliver c).closeRx

theorem rxChar_keepsReady (d : BitVec 9) (q stop : Level) : KeepsReady (rxChar d q stop) := by
  intro s t hs h
  obtain rfl | ⟨c, rfl⟩ := rxChar_next h
  · exact hs
  · exact hs.deliver c

theorem engine_keepsReady (p : Params) {e : Event} (he : e.isEngine = true) : KeepsReady (runEvent p e) := by
  cases e with
  | txLoad => exact txLoad_keepsReady
  | txBit => exact txBit_keepsReady
  | txEnd => exact txEnd_keepsReady
  | txChar => exact txChar_keepsReady
  | rxStart => exact rxStart_keepsReady
  | rxBit b => exact rxBit_keepsReady b
  | rxEnd => exact rxEnd_keepsReady
  | rxChar d q stop => exact rxChar_keepsReady d q stop
  | host _ | rstAssert | rstRelease | clkGate | clkUngate | cycle _ _ => cases he

/-! ## The host's access -/

/-- A write that disables the block aborts both engines, so an idle block stays idle while it is disabled
(R156, R161). -/
theorem effect_wrCr1_ready {s : State} (hs : s.Ready) (l : Layout) (w : Word) : (effect l (.wrCr1 w) s).Ready := by
  by_cases disabling : s.ue = true ∧ wdataUE l w = false
  · rw [effect_wrCr1_of_disabling l disabling]
    exact ⟨hs.running, {
      txIdle := fun _ => ⟨rfl, rfl⟩
      txDriven := nofun
      txStop := .inl rfl
      tsrBound := Nat.zero_le 13
      rxIdle := fun _ => rfl
      rxNeed := nofun
      disabled := fun _ => ⟨rfl, rfl, rfl⟩
      inReset := not_inReset hs.running }⟩
  · rw [effect_wrCr1_of_not_disabling l disabling]
    have wasDisabled : wdataUE l w = false → s.ue = false := fun hw => by simpa [hw] using disabling
    exact ⟨hs.running, { hs.inv with
      disabled := fun hu => hs.inv.disabled (wasDisabled hu)
      inReset := not_inReset hs.running }⟩

theorem effect_ready {s : State} (hs : s.Ready) (l : Layout) (i : Instr) : (effect l i s).Ready := by
  cases i with
  | wrCr1 w => exact effect_wrCr1_ready hs l w
  | _ => exact ⟨hs.running, { hs.inv with inReset := not_inReset hs.running }⟩

theorem accessIn_keepsReady (p : Params) (access : Option HostAccess) : KeepsReady (accessIn p access) := by
  intro s t hs h
  cases access with
  | none =>
    cases h
    exact hs
  | some a =>
    obtain ⟨i, -, rfl⟩ := hostAccess_next h
    exact effect_ready hs p.layout i

/-! ## The clock cycle -/

theorem State.Ready.txTimed {s : State} (hs : s.Ready) (k : BitVec 16) (f : Nat) : (s.txTimed k f).Ready :=
  ⟨hs.running, { hs.inv with inReset := not_inReset hs.running }⟩

/-- A start-bit check is pending only in an enabled block (R161, log 11). -/
theorem State.Ready.rxTimed {s : State} (hs : s.Ready) (k : BitVec 16) (f : Nat) {b : Bool}
    (hb : b = true → s.ue = true ∨ s.startPending = true) : (s.rxTimed k f b).Ready :=
  ⟨hs.running, { hs.inv with
    disabled := fun hu => by
      obtain ⟨tx, rx, clear⟩ := hs.inv.disabled hu
      have disabled : s.ue = false := hu
      exact ⟨tx, rx, (by simpa [disabled, clear] using hb : b = false)⟩
    inReset := not_inReset hs.running }⟩

theorem txLoadAndDrive_keepsReady : KeepsReady txLoadAndDrive := txLoad_keepsReady.andThen txBit_keepsReady

theorem txClock_keepsReady (c : Bool) : KeepsReady (txClock c) := by
  intro s t hs h
  rcases txClock_cases c s with e | ⟨-, -, e⟩ | ⟨k, f, -, e | ⟨-, e⟩ | ⟨-, e⟩ | ⟨-, -, e⟩⟩ <;> rw [e] at h
  · cases h
    exact hs
  · exact txLoadAndDrive_keepsReady hs h
  · cases h
    exact hs.txTimed k f
  · exact txBit_keepsReady (hs.txTimed k f) h
  · exact txEnd_keepsReady (hs.txTimed k f) h
  · exact txEnd_keepsReady.andThen txLoadAndDrive_keepsReady (hs.txTimed k f) h

theorem rxClock_keepsReady (level edge : Level) : KeepsReady (rxClock level edge) := by
  intro s t hs h
  obtain ⟨k, f, b, hb, e | ⟨-, -, e⟩ | ⟨-, e⟩ | ⟨-, -, -, e⟩⟩ := rxClock_cases level edge s <;> rw [e] at h
  · cases h
    exact hs.rxTimed k f hb
  · exact rxStart_keepsReady (hs.rxTimed k f hb) h
  · exact rxEnd_keepsReady (hs.rxTimed k f hb) h
  · exact (rxBit_keepsReady level).andThen rxEnd_keepsReady (hs.rxTimed k f hb) h

theorem State.Ready.registerPins {s : State} (hs : s.Ready) (before : State) (rxd : Level) :
    (s.registerPins before rxd).Ready :=
  ⟨hs.running, { hs.inv with inReset := not_inReset hs.running }⟩

/-! ## Every step -/

/-- In a block that is stopped an access is refused and a cycle does nothing (R271, R276). -/
theorem accessIn_not_running {p : Params} {access : Option HostAccess} {s t : State} (hr : s.running = false)
    (h : accessIn p access s = .next t) : t = s := by
  cases access with
  | none =>
    cases h
    rfl
  | some a =>
    rcases hostAccess_cases p a s with ⟨-, r, e, -⟩ | ⟨i, -, e⟩ <;> rw [accessIn, e] at h
    · cases h
    · obtain ⟨running, -⟩ := (execAt_next_iff _ _ _ _).1 h
      cases hr.symm.trans running

theorem accessIn_keepsInv {p : Params} {access : Option HostAccess} {s t : State} (hs : s.Inv)
    (h : accessIn p access s = .next t) : t.Inv := by
  cases hr : s.running with
  | false => exact accessIn_not_running hr h ▸ hs
  | true => exact (accessIn_keepsReady p access ⟨hr, hs⟩ h).inv

theorem engine_keepsInv {p : Params} {e : Event} (he : e.isEngine = true) {s t : State} (hs : s.Inv)
    (h : runEvent p e s = .next t) : t.Inv := by
  cases hr : s.running with
  | false =>
    rw [engine_not_running he hr] at h
    cases h
    exact hs
  | true => exact (engine_keepsReady p he ⟨hr, hs⟩ h).inv

theorem clockCycle_keepsInv {p : Params} {access : Option HostAccess} {rxd : Level} {s t : State} (hs : s.Inv)
    (h : clockCycle p access rxd s = .next t) : t.Inv := by
  unfold clockCycle at h
  split at h
  next hr =>
    have pins : KeepsReady fun u => .next (u.registerPins s rxd) := by
      rintro u _ hu ⟨⟩
      exact hu.registerPins s rxd
    exact ((accessIn_keepsReady p access).andThen ((txClock_keepsReady _).andThen
      ((rxClock_keepsReady _ _).andThen pins)) ⟨hr, hs⟩ h).inv
  next => exact accessIn_keepsInv hs h

theorem resetBlock_inv (s : State) : s.resetBlock.Inv := { reset_inv with inReset := fun _ => rfl }

theorem runEvent_keepsInv {p : Params} {e : Event} {s t : State} (hs : s.Inv) (h : runEvent p e s = .next t) :
    t.Inv := by
  cases e with
  | host a => exact accessIn_keepsInv (access := some a) hs h
  | txLoad | txBit | txEnd | txChar | rxStart | rxBit _ | rxEnd | rxChar _ _ _ => exact engine_keepsInv rfl hs h
  | rstAssert =>
    cases h
    exact resetBlock_inv s
  | rstRelease =>
    cases h
    exact { hs with inReset := nofun }
  | clkGate =>
    cases h
    exact { hs with inReset := fun hr => congrArg (fun u : State => { u with clkEn := false }) (hs.inReset hr) }
  | clkUngate =>
    cases h
    exact { hs with inReset := fun hr => congrArg (fun u : State => { u with clkEn := true }) (hs.inReset hr) }
  | cycle access rxd => exact clockCycle_keepsInv hs h

theorem State.Inv.setSched {s : State} (h : s.Inv) (es : List Event) : (s.setSched es).Inv :=
  { h with inReset := fun hr => congrArg (State.setSched · es) (h.inReset hr) }

/-- Settles O44: a step is the first scheduled event, taken from a state with the rest of the schedule. -/
theorem everyStepKeepsInvariant : Obligations.EveryStepKeepsInvariant := by
  intro s t hs h
  cases hsched : s.sched with
  | nil =>
    cases (step_of_sched_nil hsched).symm.trans h
    exact hs
  | cons e es => exact runEvent_keepsInv (hs.setSched es) ((step_of_sched_cons hsched).symm.trans h)

end Sys2Proof.Machine

/-! What a block owes the line (R180, R182). The engines only move levels from `TDR` to `TSR` and from `TSR` to the
line, so between two accesses nothing is added to it and nothing lost. -/

namespace Sys2Proof.Machine

/-! ## What the engines do to it -/

/-- The frame of a character depends on the control registers alone (R98). -/
theorem frameOf_congr {s t : State} (h : s.control = t.control) : s.frameOf = t.frameOf := by
  obtain ⟨-, -, wl, pce, ps, -, -, stop2⟩ := control_eq_iff.1 h
  funext v
  simp only [State.frameOf, wl, pce, ps, stop2]

/-- `TX_LOAD` finds an empty `TSR`, and puts the frame of the character that waits into it (R176, R180). -/
theorem txLoad_owed {s t : State} (hs : s.Inv) (h : txLoad s = .next t) : t.owed = s.owed := by
  rcases txLoad_cases s with ⟨-, e⟩ | ⟨-, -, e⟩ | ⟨f, enabled, hf, e⟩ <;> cases e.symm.trans h
  · rfl
  · obtain ⟨-, -, -, idle, waiting⟩ := txLoadEnabled_iff.1 enabled
    obtain ⟨nil, -⟩ := hs.txIdle idle
    have loaded : s.frameOf s.tdr = f := by rw [State.frameOf, hf, Option.getD_some]
    simp [State.owed, nil, waiting, loaded]

theorem txBit_owed : Keeps State.owed txBit := by
  intro s t h
  rcases txBit_cases s with ⟨-, e⟩ | ⟨b, rest, -, -, ht, e⟩ <;> cases e.symm.trans h
  · rfl
  · simp only [State.owed, ht, List.append_assoc, List.cons_append]
    rfl

theorem txChar_owed : Keeps State.owed txChar := by
  intro s t h
  rcases txChar_cases s with ⟨-, e⟩ | ⟨-, -, e⟩ <;> cases e.symm.trans h
  · rfl
  · simp only [State.owed, List.append_nil]
    rfl

theorem deliver_owed (s : State) (c : RxChar) : (s.deliver c).owed = s.owed := by
  rw [deliver_eq]
  rfl

theorem engine_owed {p : Params} {e : Event} (he : e.isEngine = true) {s t : State} (hs : s.Inv)
    (h : runEvent p e s = .next t) : t.owed = s.owed := by
  cases e with
  | txLoad => exact txLoad_owed hs h
  | txBit => exact txBit_owed h
  | txEnd => exact txEnd_keeps (g := State.owed) (fun _ => rfl) h
  | txChar => exact txChar_owed h
  | rxStart => exact rxStart_keeps (g := State.owed) (fun _ _ _ => rfl) h
  | rxBit b => exact rxBit_keeps (g := State.owed) (fun _ _ _ => rfl) b h
  | rxEnd =>
    obtain rfl | ⟨c, rfl⟩ := rxEnd_next h
    · rfl
    · exact deliver_owed s c
  | rxChar d q stop =>
    obtain rfl | ⟨c, rfl⟩ := rxChar_next h
    · rfl
    · exact deliver_owed s c
  | host _ | rstAssert | rstRelease | clkGate | clkUngate | cycle _ _ => cases he

theorem engines_owed {p : Params} {es : List Event} (engines : ∀ e ∈ es, e.isEngine = true) {s t : State}
    (hs : s.Inv) (h : runEvents p es s = .next t) : t.owed = s.owed := by
  induction es generalizing s with
  | nil =>
    cases h
    rfl
  | cons e es ih =>
    obtain ⟨he, hes⟩ := List.forall_mem_cons.1 engines
    obtain ⟨u, first, rest⟩ := runEvents_next_cons h
    exact (ih hes (engine_keepsInv he hs first) rest).trans (engine_owed he hs first)

/-! ## What an access adds -/

/-- The character an operation hands to the transmitter, if it hands one over (R132). -/
def handed (l : Layout) : Option Instr → Option (BitVec 9)
  | some (.wrDr w) => some (wdataDATA l w)
  | _ => none

theorem written_eq_filterMap (p : Params) (es : List Event) :
    written p es = es.filterMap fun e => handed p.layout (e.operation p) := rfl

theorem written_cons (p : Params) (e : Event) (es : List Event) :
    written p (e :: es) = (handed p.layout (e.operation p)).toList ++ written p es := by
  rw [written_eq_filterMap, List.filterMap_cons]
  cases handed p.layout (e.operation p) <;> rfl

/-- An orderly write of `CR1` keeps `UE` and the framing (R285). -/
theorem orderlyOperation_wrCr1_iff {l : Layout} {s : State} {w : Word} : orderlyOperation l s (.wrCr1 w) = true ↔
    wdataUE l w = s.ue ∧ wdataWL l w = s.wl ∧ wdataPCE l w = s.pce ∧ wdataPS l w = s.ps := by
  simp [orderlyOperation, and_assoc]

theorem orderlyOperation_wrCr2_iff {l : Layout} {s : State} {w : Word} :
    orderlyOperation l s (.wrCr2 w) = true ↔ wdataSTOP2 l w = s.stop2 := by
  simp [orderlyOperation]

/-- An orderly operation hands its character over to an empty `TDR`, and moves nothing else of what is owed. -/
theorem effect_owed {l : Layout} {i : Instr} {s : State} (ho : orderlyOperation l s i = true) :
    (effect l i s).owed = s.owed ++ (handed l (some i)).toList.flatMap s.frameOf := by
  cases i with
  | wrDr w =>
    have free : s.txe = true := ho
    simp [State.owed, handed, free, State.frameOf]
  | wrCr1 w =>
    obtain ⟨ue, wl, pce, ps⟩ := orderlyOperation_wrCr1_iff.1 ho
    have stays : ¬(s.ue = true ∧ wdataUE l w = false) := by simp [ue]
    rw [effect_wrCr1_of_not_disabling l stays]
    simp [State.owed, State.frameOf, handed, wl, pce, ps]
  | wrCr2 w =>
    have stop2 := orderlyOperation_wrCr2_iff.1 ho
    simp [State.owed, State.frameOf, handed, stop2]
  | _ => exact (List.append_nil s.owed).symm

/-- The access of an orderly step adds the frame of the character it hands over. -/
theorem accessIn_owed {p : Params} {e : Event} {s t : State} (ho : orderlyStep p s e = true)
    (h : accessIn p e.access s = .next t) :
    t.owed = s.owed ++ (handed p.layout (e.operation p)).toList.flatMap s.frameOf := by
  obtain ⟨-, orderly⟩ := Bool.and_eq_true_iff.1 ho
  cases ha : e.access with
  | none =>
    rw [ha] at h
    cases h
    simp [Event.operation, ha, handed]
  | some a =>
    rw [ha] at h
    obtain ⟨i, hi, rfl⟩ := hostAccess_next h
    have operation : e.operation p = some i := by simpa [Event.operation, ha] using hi
    rw [operation] at orderly ⊢
    exact effect_owed orderly

/-! ## What an orderly step adds -/

theorem untimedOutcome_next {r : Result} {t : State} (h : untimedOutcome (.next t) = untimedOutcome r) :
    ∃ u, r = .next u ∧ t.untimed = u.untimed := by
  cases r with
  | next u => exact ⟨u, rfl, by simpa [untimedOutcome] using h⟩
  | fault e => nomatch e
  | refused e => cases h

/-- A cycle owes what its access owes: it is its access and then engine steps, timing level aside (R288). -/
theorem clockCycle_owed {p : Params} {access : Option HostAccess} {rxd : Level} {s t : State} (hs : s.Inv)
    (ho : orderlyStep p s (.cycle access rxd) = true) (h : runEvent p (.cycle access rxd) s = .next t) :
    t.owed = s.owed ++ (handed p.layout (Event.operation p (.cycle access rxd))).toList.flatMap s.frameOf := by
  obtain ⟨es, engines, same⟩ := clockCycleIsRunOfAtomicSteps p access rxd s
  rw [h, runEvents_append, ← accessIn_eq_runEvents] at same
  obtain ⟨u, run, untimed⟩ := untimedOutcome_next same
  obtain ⟨v, host, rest⟩ := (andThen_next_iff _ _ _).1 run
  calc t.owed = u.owed := (congrArg State.owed untimed : t.untimed.owed = u.untimed.owed)
    _ = v.owed := engines_owed engines (accessIn_keepsInv hs host) rest
    _ = _ := accessIn_owed ho host

theorem orderlyStep_owed {p : Params} {e : Event} {s t : State} (hs : s.Inv) (ho : orderlyStep p s e = true)
    (h : runEvent p e s = .next t) :
    t.owed = s.owed ++ (handed p.layout (e.operation p)).toList.flatMap s.frameOf := by
  cases e with
  | host a => exact accessIn_owed ho h
  | cycle access rxd => exact clockCycle_owed hs ho h
  | txLoad | txBit | txEnd | txChar | rxStart | rxBit _ | rxEnd | rxChar _ _ _ =>
    exact (engine_owed rfl hs h).trans (List.append_nil s.owed).symm
  | rstAssert => simp [orderlyStep] at ho
  | rstRelease | clkGate | clkUngate =>
    cases h
    exact (List.append_nil s.owed).symm

/-- An orderly step leaves the framing as it is (R285). -/
theorem orderlyStep_frameOf {p : Params} {e : Event} {s t : State} (ho : orderlyStep p s e = true)
    (h : runEvent p e s = .next t) : t.frameOf = s.frameOf := by
  obtain ⟨notReset, orderly⟩ := Bool.and_eq_true_iff.1 ho
  obtain ⟨u, write, same⟩ := runEvent_controlWrite (by simpa using notReset) h
  rw [frameOf_congr same]
  cases write with
  | none => rfl
  | wrBrr w he => rfl
  | wrCr1 w he =>
    rw [he] at orderly
    obtain ⟨-, wl, pce, ps⟩ := orderlyOperation_wrCr1_iff.1 orderly
    funext v
    simp [State.frameOf, wl, pce, ps]
  | wrCr2 w he =>
    rw [he] at orderly
    have stop2 := orderlyOperation_wrCr2_iff.1 orderly
    funext v
    simp [State.frameOf, stop2]

theorem orderly_cons {p : Params} {e : Event} {es : List Event} {s u : State}
    (ho : orderly p (e :: es) s = true) (h : runEvent p e s = .next u) :
    orderlyStep p s e = true ∧ orderly p es u = true := by
  simpa [orderly, h] using ho

/-- Settles O36, step by step: each keeps the invariant and the framing, and adds the frame of the character it
writes, if it writes one. -/
theorem charactersGoOutInOrder : Obligations.CharactersGoOutInOrder := by
  intro p es s t hs ho h
  induction es generalizing s with
  | nil =>
    cases h
    exact (List.append_nil _).symm
  | cons e es ih =>
    obtain ⟨u, first, rest⟩ := runEvents_next_cons h
    obtain ⟨head, tail⟩ := orderly_cons ho first
    rw [ih u (runEvent_keepsInv hs first) tail rest, orderlyStep_owed hs head first,
      orderlyStep_frameOf head first, written_cons, List.flatMap_append, List.append_assoc]

end Sys2Proof.Machine

/-! The atomic steps of the receiver (R200 to R203). -/

namespace Sys2Proof.Machine

theorem rxStart_of_not_enabled {s : State} (h : ¬s.rxStartEnabled = true) : rxStart s = .next s := if_neg h

theorem rxStart_of_enabled {s : State} {n : Nat} (h : s.rxStartEnabled = true) (hn : nbits s.wl = some n) :
    rxStart s = .next { s with rxcfg := ⟨s.wl, s.pce, s.ps⟩, rsr := [], rxs := .rRecv, rxCnt := s.div,
                               startPending := false } := by
  simp only [rxStart, h, if_true, hn]

theorem rxStart_of_reservedWL {s : State} (h : s.rxStartEnabled = true) (hw : s.wl = 0b11#2) :
    rxStart s = .refused .reservedWL := by
  simp only [rxStart, h, if_true, (nbits_eq_none_iff s.wl).2 hw]

/-- Settles O37: enabled, the step latches the framing, which is legal but for the reserved word length. -/
theorem rxStartLatchesFraming : Obligations.RxStartLatchesFraming := by
  intro s hr
  refine ⟨fun h => rxStart_of_not_enabled fun enabled => h (rxStartEnabled_iff.1 enabled).2, fun hu hd hx => ?_⟩
  have enabled := rxStartEnabled_iff.2 ⟨hr, hu, hd, hx⟩
  exact ⟨rxStart_of_reservedWL enabled, fun hw => rxStart_of_enabled enabled (nbits_of_ne hw)⟩

section Receiving

variable {s : State} (hr : s.running = true) (hx : s.rxs = .rRecv)
include hr hx

/-- While levels are missing, `RX_BIT` takes one (R201). -/
theorem rxBit_of_room {m : Nat} (hm : s.rxcfg.need = some m) (room : s.rsr.length < m) (b : Level) :
    rxBit b s = .next { s with rsr := s.rsr ++ [b], rxCnt := s.div } := by
  simp [rxBit, hr, hx, hm, room]

theorem rxBit_of_full {m : Nat} (hm : s.rxcfg.need = some m) (full : m ≤ s.rsr.length) (b : Level) :
    rxBit b s = .next s := by
  simp [rxBit, hr, hx, hm, Nat.not_lt.2 full]

/-- With all levels taken, `RX_END` delivers the character they carry and goes idle (R203). -/
theorem rxEnd_of_complete {n : Nat} (hn : nbits s.rxcfg.wl = some n)
    (complete : s.rsr.length = n + s.rxcfg.pce.toNat + 1) : rxEnd s =
      .next { s.deliver (rxDecode n s.rxcfg.pce s.rxcfg.ps s.rsr) with rsr := [], rxs := .rIdle } := by
  simp [rxEnd, hr, hx, hn, need_eq hn, complete]

theorem rxEnd_of_incomplete {n : Nat} (hn : nbits s.rxcfg.wl = some n)
    (incomplete : s.rsr.length ≠ n + s.rxcfg.pce.toNat + 1) : rxEnd s = .next s := by
  simp [rxEnd, hr, hx, hn, need_eq hn, incomplete.symm]

end Receiving

/-- Settles O38: the levels needed are those of the latched word length, of the parity level and of one stop bit. -/
theorem rxBitTakesOneSample : Obligations.RxBitTakesOneSample := by
  intro s b n hr hx hn
  rw [ite_eq_toNat]
  exact ⟨fun room => rxBit_of_room hr hx (need_eq hn) room b, fun full => rxBit_of_full hr hx (need_eq hn) full b⟩

theorem rxEnd_of_idle {s : State} (hx : s.rxs = .rIdle) : rxEnd s = .next s := by
  simp [rxEnd, hx]

/-! ## What `RX_END` reads out of the levels -/

theorem rxDecode_d_getLsbD {n : Nat} {ls : List Level} (hn : n ≤ 9) (hl : n ≤ ls.length) (pce ps : Bool) {k : Nat}
    (hk : k < n) : ls[k]? = some ((rxDecode n pce ps ls).d.getLsbD k) := by
  have inLevels : k < ls.length := hk.trans_le hl
  simp only [rxDecode, charOf_getLsbD n ls hn, if_pos hk, List.getD_eq_getElem _ _ inLevels,
    List.getElem?_eq_getElem inLevels]

theorem rxDecode_d_above {n : Nat} (hn : n ≤ 9) (pce ps : Bool) (ls : List Level) {k : Nat} (hk : n ≤ k) :
    (rxDecode n pce ps ls).d.getLsbD k = false := by
  simp only [rxDecode, charOf_getLsbD n ls hn, if_neg (Nat.not_lt.2 hk)]

/-- `p_bad` says that the number of 1s among the data levels and the parity level is not as the parity kind says
(R97, R101). -/
theorem rxDecode_pBad_iff {n : Nat} {ls : List Level} (hn : n ≤ 9) (hl : n < ls.length) (pce ps : Bool) :
    (rxDecode n pce ps ls).pBad = true ↔ pce = true ∧ (ls.take (n + 1)).count true % 2 ≠ if ps then 1 else 0 := by
  cases pce with
  | false => simp [rxDecode]
  | true =>
    rw [rxDecode_pBad hn hl, foldr_xor_eq]
    cases ps <;> simp

/-- `f_bad` says that the last of the levels, the first stop bit, is 0 (R101). -/
theorem rxDecode_fBad_iff {n : Nat} {pce : Bool} {ls : List Level} (hl : ls.length = n + pce.toNat + 1)
    (ps : Bool) : (rxDecode n pce ps ls).fBad = true ↔ ls.getLast? = some false := by
  have last : n + pce.toNat < ls.length := by omega
  simp [rxDecode, List.getLast?_eq_getElem?, hl]

/-- Settles O39: a delivery to a full `RDR` sets `ORE`, one to a free `RDR` stores the character read out. -/
theorem rxEndStoresOrDrops : Obligations.RxEndStoresOrDrops := by
  unfold Obligations.RxEndStoresOrDrops
  simp only [ite_eq_toNat (RxCfg.pce _)]
  refine ⟨fun s _ => rxEnd_of_idle, fun s n hr hx hn => rxEnd_of_incomplete hr hx hn,
    fun s n hr hx hn complete => ?_⟩
  rw [rxEnd_of_complete hr hx hn complete]
  refine ⟨fun full => by rw [deliver_full full], fun free => ?_⟩
  rw [deliver_free free]
  obtain ⟨-, hn9⟩ := nbits_bounds hn
  exact ⟨_, _, _, _, rfl, rfl, fun hie => by simp [State.irq, hie],
    fun k => rxDecode_d_getLsbD hn9 (by omega) s.rxcfg.pce s.rxcfg.ps,
    fun k => rxDecode_d_above hn9 s.rxcfg.pce s.rxcfg.ps s.rsr,
    rxDecode_pBad_iff hn9 (by omega) _ _, rxDecode_fBad_iff complete _⟩

end Sys2Proof.Machine

/-! A frame from its start bit to its delivery (R200 to R207). Both the merge `RX_CHAR` and the frame of a sender
with the same framing are runs of one kind: `RX_START`, a sample per level, `RX_END`. -/

namespace Sys2Proof.Machine

/-- The levels a receiver takes of a frame: data, the parity level if parity is on, the first stop bit (R98, R201). -/
def sampled (n : Nat) (pce : Bool) (d : BitVec 9) (q stop : Level) : List Level :=
  dataLevels d n ++ (if pce then [q] else []) ++ [stop]

theorem sampled_length (n : Nat) (pce : Bool) (d : BitVec 9) (q stop : Level) :
    (sampled n pce d q stop).length = n + pce.toNat + 1 := by
  cases pce <;> simp [sampled]

/-- The bits of the word, and 0 above it. -/
theorem lowBits_getLsbD {n : Nat} (hn : n ≤ 9) (v : BitVec 9) (k : Nat) :
    (lowBits n v).getLsbD k = if k < n then v.getLsbD k else false := by
  by_cases hk : k < n
  · simp [lowBits, hk, hk.trans_le hn]
  · simp [lowBits, hk]

/-- The parity level depends on the bits of the word alone (R97). -/
theorem dataLevels_lowBits {n : Nat} (hn : n ≤ 9) (v : BitVec 9) : dataLevels (lowBits n v) n = dataLevels v n :=
  List.map_congr_left fun k hk => by rw [lowBits_getLsbD hn, if_pos (List.mem_range.1 hk)]

theorem charOf_dataLevels_append {n : Nat} (hn : n ≤ 9) (v : BitVec 9) (rest : List Level) :
    charOf n (dataLevels v n ++ rest) = lowBits n v := by
  apply BitVec.eq_of_getLsbD_eq
  intro k _
  rw [charOf_getLsbD n _ hn, lowBits_getLsbD hn]
  split
  next hk =>
    rw [List.getD_eq_getElem?_getD, List.getElem?_append_left (by simpa using hk), dataLevels_getElem? v n k hk,
      Option.getD_some]
  next => rfl

/-- What is read out of the sampled levels is what `RX_CHAR` takes as its input (R101, R207). -/
theorem rxDecode_sampled {n : Nat} (hn : n ≤ 9) (pce ps : Bool) (d : BitVec 9) (q stop : Level) :
    rxDecode n pce ps (sampled n pce d q stop) = ⟨lowBits n d, pce && (q != par d n ps), !stop⟩ := by
  have parity : par (lowBits n d) n ps = par d n ps := by rw [par, par, dataLevels_lowBits hn]
  rw [rxDecode, sampled, List.append_assoc, charOf_dataLevels_append hn, parity]
  cases pce <;> simp

/-- The frame of a sender, behind its start bit and up to its first stop bit (R98, R202). -/
theorem frame_sampled {v : BitVec 9} {wl : BitVec 2} {pce ps stop2 : Bool} {n : Nat} {f : List Level}
    (hn : nbits wl = some n) (hf : frame v wl pce ps stop2 = some f) :
    (f.drop 1).take (n + pce.toNat + 1) = sampled n pce v (par v n ps) true := by
  have split : f.drop 1 = sampled n pce v (par v n ps) true ++ List.replicate stop2.toNat true := by
    rw [frame_parts hn hf, Nat.add_comm, List.replicate_succ]
    simp [sampled]
  rw [split, List.take_left' (sampled_length n pce v _ _)]

/-- One `RX_BIT` per level takes them all, as long as no more are taken than are needed (R201). -/
theorem runEvents_rxBits (p : Params) (ls : List Level) {s : State} {m : Nat} (hr : s.running = true)
    (hx : s.rxs = .rRecv) (hm : s.rxcfg.need = some m) (room : s.rsr.length + ls.length ≤ m) : ∃ k,
    runEvents p (ls.map .rxBit) s = .next { s with rsr := s.rsr ++ ls, rxCnt := k } := by
  induction ls generalizing s with
  | nil =>
    refine ⟨s.rxCnt, ?_⟩
    rw [List.append_nil]
    rfl
  | cons b ls ih =>
    rw [List.length_cons] at room
    have first : runEvent p (.rxBit b) s = _ := rxBit_of_room hr hx hm (by omega) b
    rw [List.map_cons, runEvents_cons, first, andThen_next]
    obtain ⟨k, run⟩ := ih (s := { s with rsr := s.rsr ++ [b], rxCnt := s.div }) hr hx hm
      (by rw [List.length_append, List.length_singleton]; omega)
    refine ⟨k, run.trans ?_⟩
    rw [List.append_assoc, List.singleton_append]

/-- A sample of every level of a frame and `RX_END` deliver the character the levels carry and idle the receiver
(R203). -/
theorem runEvents_samples (p : Params) {s : State} {n : Nat} {ls : List Level} (hr : s.running = true)
    (hx : s.rxs = .rRecv) (nil : s.rsr = []) (hn : nbits s.rxcfg.wl = some n)
    (hl : ls.length = n + s.rxcfg.pce.toNat + 1) : ∃ k,
    runEvents p (ls.map .rxBit ++ [.rxEnd]) s = .next
      { s.deliver (rxDecode n s.rxcfg.pce s.rxcfg.ps ls) with rsr := [], rxs := .rIdle, rxCnt := k } := by
  obtain ⟨k, bits⟩ := runEvents_rxBits p ls hr hx (need_eq hn) (by simp [nil, hl])
  rw [nil, List.nil_append] at bits
  have close := rxEnd_of_complete (s := { s with rsr := ls, rxCnt := k }) hr hx hn hl
  refine ⟨k, ?_⟩
  rw [runEvents_append, bits, andThen_next, runEvents_single, runEvent, close, deliver_eq, deliver_eq]

/-- The same from `RX_START` on, under the framing it latches (R200). -/
theorem runEvents_wholeRxFrame (p : Params) {s : State} {n : Nat} {ls : List Level}
    (enabled : s.rxStartEnabled = true) (hn : nbits s.wl = some n) (hl : ls.length = n + s.pce.toNat + 1) : ∃ k,
    runEvents p ([.rxStart] ++ ls.map .rxBit ++ [.rxEnd]) s = .next
      { s.deliver (rxDecode n s.pce s.ps ls) with
        rxcfg := ⟨s.wl, s.pce, s.ps⟩, rsr := [], rxs := .rIdle, rxCnt := k, startPending := false } := by
  obtain ⟨hr, -⟩ := rxStartEnabled_iff.1 enabled
  have start : runEvent p .rxStart s = _ := rxStart_of_enabled enabled hn
  rw [List.append_assoc, List.singleton_append, runEvents_cons, start, andThen_next]
  obtain ⟨k, rest⟩ := runEvents_samples p (ls := ls) (n := n)
    (s := { s with rxcfg := ⟨s.wl, s.pce, s.ps⟩, rsr := [], rxs := .rRecv, rxCnt := s.div, startPending := false })
    hr rfl rfl hn hl
  refine ⟨k, rest.trans ?_⟩
  rw [deliver_eq, deliver_eq]

/-- Settles O41: the run of a whole frame; what is read out of the sender's levels is the character, with neither
a parity nor a framing error. -/
theorem receiverReadsBackFrame : Obligations.ReceiverReadsBackFrame := by
  intro p s v stop2 n f enabled free hn hf
  obtain ⟨-, hn9⟩ := nbits_bounds hn
  rw [ite_eq_toNat, frame_sampled hn hf]
  obtain ⟨k, run⟩ := runEvents_wholeRxFrame p enabled hn (sampled_length n s.pce v (par v n s.ps) true)
  have character : rxDecode n s.pce s.ps (sampled n s.pce v (par v n s.ps) true) = ⟨lowBits n v, false, false⟩ := by
    simp [rxDecode_sampled hn9]
  rw [character, deliver_free free] at run
  refine ⟨_, run, rfl, rfl, rfl, Bool.or_false _, Bool.or_false _, fun k hk => ?_, fun k hk => ?_⟩
  · exact (lowBits_getLsbD hn9 v k).trans (if_pos hk)
  · exact (lowBits_getLsbD hn9 v k).trans (if_neg (Nat.not_lt.2 hk))

theorem rxChar_of_enabled {s : State} {n : Nat} (h : s.rxStartEnabled = true) (hn : nbits s.wl = some n)
    (d : BitVec 9) (q stop : Level) :
    rxChar d q stop s = .next (s.deliver ⟨lowBits n d, s.pce && (q != par d n s.ps), !stop⟩) := by
  simp only [rxChar, h, if_true, hn]

theorem rxChar_of_reservedWL {s : State} (h : s.rxStartEnabled = true) (hw : s.wl = 0b11#2) (d : BitVec 9)
    (q stop : Level) : rxChar d q stop s = .refused .reservedWL := by
  simp only [rxChar, h, if_true, (nbits_eq_none_iff s.wl).2 hw]

theorem rxChar_of_not_enabled {s : State} (h : ¬s.rxStartEnabled = true) (d : BitVec 9) (q stop : Level) :
    rxChar d q stop s = .next s := if_neg h

/-- The bit steps that `RX_CHAR` merges are a sample of each of its levels (R207). -/
theorem rxBits_eq_map_sampled (n : Nat) (pce : Bool) (d : BitVec 9) (q stop : Level) :
    [Event.rxStart] ++ ((List.range n).map fun k => Event.rxBit (d.getLsbD k)) ++ (if pce then [.rxBit q] else []) ++
      [.rxBit stop, .rxEnd] = [.rxStart] ++ (sampled n pce d q stop).map .rxBit ++ [.rxEnd] := by
  cases pce <;> simp [sampled, dataLevels]

/-- In an idle receiver that meets the invariant, what a frame leaves behind beside the delivery is `RXCFG` and
timing-level state (R207, R208). -/
theorem untimed_afterFrame {s : State} (idle : s.rxs = .rIdle) (nil : s.rsr = []) (c : RxChar) (k : BitVec 16)
    (g : RxCfg) : { { s.deliver c with rxcfg := g, rsr := [], rxs := .rIdle, rxCnt := k, startPending := false } with
      rxcfg := s.rxcfg }.untimed = (s.deliver c).untimed := by
  rw [deliver_eq, ← idle, ← nil]
  rfl

/-- Settles O40: both deliver what is read out of the levels; without its pre-condition `RX_CHAR` does not occur. -/
theorem rxCharMergesBitSteps : Obligations.RxCharMergesBitSteps := by
  refine ⟨fun p s d q stop n enabled hn inv => ?_, fun p s d q stop hr => ⟨fun hu hd hx hw => ?_, fun h => ?_⟩⟩
  · obtain ⟨-, -, -, idle⟩ := rxStartEnabled_iff.1 enabled
    obtain ⟨-, hn9⟩ := nbits_bounds hn
    rw [rxBits_eq_map_sampled]
    obtain ⟨k, run⟩ := runEvents_wholeRxFrame p enabled hn (sampled_length n s.pce d q stop)
    rw [rxDecode_sampled hn9] at run
    exact ⟨_, _, run, rxChar_of_enabled enabled hn d q stop, untimed_afterFrame idle (inv.rxIdle idle) _ k _⟩
  · exact rxChar_of_reservedWL (rxStartEnabled_iff.2 ⟨hr, hu, hd, hx⟩) hw d q stop
  · refine rxChar_of_not_enabled (fun enabled => ?_) d q stop
    obtain ⟨-, hu, hd, hx⟩ := rxStartEnabled_iff.1 enabled
    rcases h with h | h | h
    · cases hu.symm.trans h
    · exact hd h
    · cases hx.symm.trans h

end Sys2Proof.Machine

/-! What the host is told of the receiver and the transmitter (R75, R204), and the way of a character from its
frame to the host (R208). Of all engine steps only a delivery and `TX_LOAD` change what a read of `DR` or of these
flags shows. -/

namespace Sys2Proof.Machine

/-! ## What the engines do to it -/

/-- What a driver reads before it accesses `DR`, and what `DR` then reads. -/
structure Report where
  txe : Bool
  rxne : Bool
  ore : Bool
  rdr : BitVec 9

def State.report (s : State) : Report := ⟨s.txe, s.rxne, s.ore, s.rdr⟩

theorem report_eq_iff {s t : State} : s.report = t.report ↔
    s.txe = t.txe ∧ s.rxne = t.rxne ∧ s.ore = t.ore ∧ s.rdr = t.rdr := by
  simp only [State.report, Report.mk.injEq]

/-- The engine steps that write it, with the state each leaves but for other fields. -/
inductive ReportWrite (s : State) : State → Prop
  | none : ReportWrite s s
  | txLoad : ReportWrite s { s with txe := true }
  | deliver (c : RxChar) : ReportWrite s (s.deliver c)

theorem engine_reportWrite {p : Params} {e : Event} (he : e.isEngine = true) {s t : State}
    (h : runEvent p e s = .next t) : ∃ u, ReportWrite s u ∧ t.report = u.report := by
  cases e with
  | txLoad =>
    rcases txLoad_cases s with ⟨-, e⟩ | ⟨-, -, e⟩ | ⟨f, -, -, e⟩ <;> cases e.symm.trans h
    · exact ⟨s, .none, rfl⟩
    · exact ⟨_, .txLoad, rfl⟩
  | txBit => exact ⟨s, .none, txBit_keeps (fun _ _ _ _ _ => rfl) h⟩
  | txEnd => exact ⟨s, .none, txEnd_keeps (fun _ => rfl) h⟩
  | txChar => exact ⟨s, .none, txChar_keeps (fun _ _ => rfl) h⟩
  | rxStart => exact ⟨s, .none, rxStart_keeps (fun _ _ _ => rfl) h⟩
  | rxBit b => exact ⟨s, .none, rxBit_keeps (fun _ _ _ => rfl) b h⟩
  | rxEnd =>
    obtain rfl | ⟨c, rfl⟩ := rxEnd_next h
    · exact ⟨_, .none, rfl⟩
    · exact ⟨_, .deliver c, rfl⟩
  | rxChar d q stop =>
    obtain rfl | ⟨c, rfl⟩ := rxChar_next h
    · exact ⟨_, .none, rfl⟩
    · exact ⟨_, .deliver c, rfl⟩
  | host _ | rstAssert | rstRelease | clkGate | clkUngate | cycle _ _ => cases he

/-- From `s` to `t` no character was lost to the host, and no room for one taken back (R204, R75 (c), (d)). -/
structure StillTrue (s t : State) : Prop where
  character : s.rxne = true → t.rxne = true ∧ t.rdr = s.rdr
  room : s.txe = true → t.txe = true
  overrun : s.rxne = true → s.ore = true → t.ore = true

theorem stillTrue_of_report {s t : State} (h : t.report = s.report) : StillTrue s t := by
  obtain ⟨txe, rxne, ore, rdr⟩ := report_eq_iff.1 h
  exact ⟨fun full => ⟨rxne.trans full, rdr⟩, txe.trans, fun _ => ore.trans⟩

theorem StillTrue.trans {s t u : State} (h₁ : StillTrue s t) (h₂ : StillTrue t u) : StillTrue s u where
  character full := by
    obtain ⟨full', rdr⟩ := h₁.character full
    obtain ⟨full'', rdr'⟩ := h₂.character full'
    exact ⟨full'', rdr'.trans rdr⟩
  room empty := h₂.room (h₁.room empty)
  overrun full lost := h₂.overrun (h₁.character full).1 (h₁.overrun full lost)

/-- A delivery to a full `RDR` drops the new character (R203). -/
theorem ReportWrite.stillTrue {s u : State} (h : ReportWrite s u) : StillTrue s u := by
  cases h with
  | none => exact stillTrue_of_report rfl
  | txLoad => exact ⟨fun full => ⟨full, rfl⟩, fun _ => rfl, fun _ lost => lost⟩
  | deliver c =>
    rw [deliver_eq]
    exact ⟨fun full => ⟨rfl, if_pos full⟩, fun empty => empty, fun _ lost => by simp [lost]⟩

theorem engine_stillTrue {p : Params} {e : Event} (he : e.isEngine = true) {s t : State}
    (h : runEvent p e s = .next t) : StillTrue s t := by
  obtain ⟨u, write, same⟩ := engine_reportWrite he h
  exact write.stillTrue.trans (stillTrue_of_report same)

theorem engines_stillTrue {p : Params} {es : List Event} (engines : ∀ e ∈ es, e.isEngine = true) {s t : State}
    (h : runEvents p es s = .next t) : StillTrue s t := by
  induction es generalizing s with
  | nil =>
    cases h
    exact stillTrue_of_report rfl
  | cons e es ih =>
    obtain ⟨he, hes⟩ := List.forall_mem_cons.1 engines
    obtain ⟨u, first, rest⟩ := runEvents_next_cons h
    exact (engine_stillTrue he first).trans (ih hes rest)

/-- A cycle without an access is a run of engine steps, timing level aside (R288). -/
theorem idleCycle_stillTrue {p : Params} {x : Level} {s t : State}
    (h : runEvent p (.cycle none x) s = .next t) : StillTrue s t := by
  obtain ⟨es, engines, same⟩ := clockCycleIsRunOfAtomicSteps p none x s
  rw [h] at same
  obtain ⟨u, run, untimed⟩ := untimedOutcome_next same
  have report : t.report = u.report := (congrArg State.report untimed : t.untimed.report = u.untimed.report)
  exact (engines_stillTrue engines run).trans (stillTrue_of_report report)

/-- Settles O30: every engine step keeps what the host was told, and a cycle without an access is made of them. -/
theorem hardwareKeepsWhatHostWasTold : Obligations.HardwareKeepsWhatHostWasTold := by
  intro p e s t he h
  have still : StillTrue s t := by
    rcases he with he | ⟨x, rfl⟩
    · exact engine_stillTrue he h
    · exact idleCycle_stillTrue h
  exact ⟨still.character, still.room, still.overrun⟩

/-! ## From the frame to the host -/

/-- The character that waits, as `DR` reads it (R195). -/
def State.waitingWords (s : State) (l : Layout) : List Word := s.waiting.map (placeField l.data)

theorem waitingWords_of_full {s : State} (h : s.rxne = true) (l : Layout) : s.waitingWords l = [s.drWord l] := by
  simp [State.waitingWords, State.waiting, h, State.drWord]

theorem waitingWords_of_empty {s : State} (h : s.rxne = false) (l : Layout) : s.waitingWords l = [] := by
  simp [State.waitingWords, State.waiting, h]

theorem drWord_congr {s t : State} (h : t.rdr = s.rdr) (l : Layout) : t.drWord l = s.drWord l :=
  congrArg (placeField l.data) h

/-- What one step from `s` to `t` adds to `stored`. -/
def storedBy (l : Layout) (s t : State) : List Word :=
  if s.rxne = false ∧ t.rxne = true then [t.drWord l] else []

/-- What one step from `s` to `t` that performs `op` adds to `delivered`. -/
def deliveredBy (op : Option Instr) (s t : State) : List Word :=
  if op = some .rdDr ∧ s.rxne = true then [t.rdata] else []

theorem stored_cons {p : Params} {e : Event} {s t : State} (h : runEvent p e s = .next t) (es : List Event) :
    stored p (e :: es) s = storedBy p.layout s t ++ stored p es t := by
  rw [stored, h]
  rfl

theorem delivered_cons {p : Params} {e : Event} {s t : State} (h : runEvent p e s = .next t) (es : List Event) :
    delivered p (e :: es) s = deliveredBy (e.operation p) s t ++ delivered p es t := by
  rw [delivered, h]
  rfl

/-- The characters that waited or were stored in one step are those it delivered and the one that waits after it. -/
def Conserves (l : Layout) (op : Option Instr) (s t : State) : Prop :=
  s.waitingWords l ++ storedBy l s t = deliveredBy op s t ++ t.waitingWords l

theorem deliveredBy_of_ne {op : Option Instr} (h : op ≠ some .rdDr) (s t : State) : deliveredBy op s t = [] :=
  if_neg fun both => h both.1

/-- A step but `RD_DR` that leaves a full `RDR` full and as it is loses nothing (R204). -/
theorem conserves_of_keeps {op : Option Instr} (hop : op ≠ some .rdDr) {l : Layout} {s t : State}
    (h : s.rxne = true → t.rxne = true ∧ t.rdr = s.rdr) : Conserves l op s t := by
  rw [Conserves, deliveredBy_of_ne hop, List.nil_append]
  cases hs : s.rxne with
  | true =>
    obtain ⟨full, rdr⟩ := h hs
    rw [waitingWords_of_full hs, waitingWords_of_full full, drWord_congr rdr]
    simp [storedBy, hs]
  | false =>
    rw [waitingWords_of_empty hs, List.nil_append]
    cases ht : t.rxne with
    | true => simp [storedBy, hs, ht, waitingWords_of_full ht]
    | false => simp [storedBy, ht, waitingWords_of_empty ht]

/-- `RD_DR` delivers the character that waits, and none waits after it (R130). -/
theorem rdDr_conserves (l : Layout) (s : State) : Conserves l (some .rdDr) s (effect l .rdDr s) := by
  have empty : (effect l .rdDr s).rxne = false := rfl
  rw [Conserves, waitingWords_of_empty empty, List.append_nil]
  cases hs : s.rxne with
  | true => simp [waitingWords_of_full hs, storedBy, deliveredBy, hs]
  | false => simp [waitingWords_of_empty hs, storedBy, deliveredBy, hs]

/-- Every other operation leaves `RXNE` and `RDR` alone. -/
theorem effect_conserves (l : Layout) (i : Instr) (s : State) : Conserves l (some i) s (effect l i s) := by
  cases i with
  | rdDr => exact rdDr_conserves l s
  | wrCr1 w =>
    refine conserves_of_keeps (by nofun) fun full => ?_
    rw [effect_wrCr1]
    split <;> exact ⟨full, rfl⟩
  | _ => exact conserves_of_keeps (by nofun) fun full => ⟨full, rfl⟩

theorem atomic_conserves {p : Params} {e : Event} {s t : State} (ha : e.isAtomic = true) (hr : e ≠ .rstAssert)
    (h : runEvent p e s = .next t) : Conserves p.layout (e.operation p) s t := by
  cases e with
  | host a =>
    obtain ⟨i, hi, rfl⟩ := hostAccess_next h
    have operation : Event.operation p (.host a) = some i := hi
    rw [operation]
    exact effect_conserves p.layout i s
  | txLoad | txBit | txEnd | txChar | rxStart | rxBit _ | rxEnd | rxChar _ _ _ =>
    exact conserves_of_keeps (by nofun) (engine_stillTrue rfl h).character
  | rstAssert => exact absurd rfl hr
  | rstRelease | clkGate | clkUngate =>
    cases h
    exact conserves_of_keeps (by nofun) fun full => ⟨full, rfl⟩
  | cycle access rxd => cases ha

/-- Settles O43, step by step: what waits after a step waits before the rest of the run. -/
theorem charactersDeliveredInOrder : Obligations.CharactersDeliveredInOrder := by
  intro p es s t atomic h
  show s.waitingWords p.layout ++ _ = _ ++ t.waitingWords p.layout
  induction es generalizing s with
  | nil =>
    cases h
    exact List.append_nil _
  | cons e es ih =>
    obtain ⟨⟨ha, hr⟩, tail⟩ := List.forall_mem_cons.1 atomic
    obtain ⟨u, first, rest⟩ := runEvents_next_cons h
    have step : s.waitingWords p.layout ++ storedBy p.layout s u = _ := atomic_conserves ha hr first
    rw [stored_cons first, delivered_cons first, ← List.append_assoc, step, List.append_assoc, ih u tail rest,
      List.append_assoc]

end Sys2Proof.Machine

/-! The synchroniser of the receiver's pin (R196). -/

namespace Sys2Proof.Machine

/-- Whatever else happens in a cycle of a running block, the pins are registered last. -/
theorem clockCycle_next {p : Params} {access : Option HostAccess} {x : Level} {s t : State}
    (hr : s.running = true) (h : clockCycle p access x s = .next t) : ∃ u : State, t = u.registerPins s x := by
  rw [clockCycle, if_pos hr] at h
  obtain ⟨s₁, -, h⟩ := (andThen_next_iff _ _ _).1 h
  obtain ⟨s₂, -, h⟩ := (andThen_next_iff _ _ _).1 h
  obtain ⟨u, -, h⟩ := (andThen_next_iff _ _ _).1 h
  cases h
  exact ⟨u, rfl⟩

/-- Settles O49: the flip-flops are among the pins registered. -/
theorem synchroniserFollowsThePin : Obligations.SynchroniserFollowsThePin := by
  intro p access x s t hr h
  obtain ⟨u, rfl⟩ := clockCycle_next hr h
  exact ⟨rfl, rfl, rfl⟩

end Sys2Proof.Machine

/-! The driver's access layer on `CR1` (R222): one bit set or cleared by a read and a write. -/

namespace Sys2Proof.Machine

/-! ## The word written back -/

/-- The word that `CLRBITS` writes to disarm is what `CR1` would read with `TXEIE` = 0. -/
theorem cr1Word_clear_txeie (s : State) {l : Layout} (hl : l.wf = true) :
    s.cr1Word l &&& ~~~placeBit l.txeie true = ({ s with txeie := false } : State).cr1Word l := by
  obtain ⟨hlt, hue, hwl₀, hwl₁, hpce, hps, hrxneie⟩ := cr1Bits_iff l hl
  apply BitVec.eq_of_getLsbD_eq
  intro k hk
  simp only [BitVec.getLsbD_and, BitVec.getLsbD_not, placeBit_getLsbD, cr1Word_getLsbD]
  by_cases h : k = l.txeie
  · have notWl : (decide (l.wl ≤ k) && s.wl.getLsbD (k - l.wl)) = false := by
      by_cases hw : l.wl ≤ k
      · rw [BitVec.getLsbD_of_ge _ _ (by omega), Bool.and_false]
      · simp [hw]
    grind
  · simp [h, hk]

/-- Storing what `CR1` of another state reads stores that state's fields (R104). -/
theorem storeCr1_cr1Word (s t : State) {l : Layout} (hl : l.wf = true) :
    s.storeCr1 l (t.cr1Word l) = { s with
      ue := t.ue, wl := t.wl, pce := t.pce, ps := t.ps, txeie := t.txeie, rxneie := t.rxneie } := by
  obtain ⟨ue, wl, pce, ps, txeie, rxneie⟩ := cr1Word_fields t hl
  simp only [State.storeCr1, ue, wl, pce, ps, txeie, rxneie]

section Effect

variable {l : Layout} (hl : l.wf = true) (s : State) (v : Word)

include hl

/-- `SETBITS CR1` never clears `UE`, so it aborts nothing (R157, R222). -/
theorem effect_wrCr1_setBits (m : Word) : effect l (.wrCr1 (s.cr1Word l ||| m)) (s.setRdata v) =
    (s.setRdata v).storeCr1 l (s.cr1Word l ||| m) := by
  obtain ⟨ue, -⟩ := cr1Word_fields s hl
  apply effect_wrCr1_of_not_disabling
  rintro ⟨hs, hw⟩
  simp_all [wdataUE]

theorem effect_wrCr1_set_txeie :
    effect l (.wrCr1 (s.cr1Word l ||| placeBit l.txeie true)) (s.setRdata v) =
      { s with rdata := v, txeie := true } := by
  rw [effect_wrCr1_setBits hl, storeCr1_setBit s hl]
  simp [cr1Bits_iff l hl, eq_comm (a := l.rxneie)]

theorem effect_wrCr1_set_rxneie :
    effect l (.wrCr1 (s.cr1Word l ||| placeBit l.rxneie true)) (s.setRdata v) =
      { s with rdata := v, rxneie := true } := by
  rw [effect_wrCr1_setBits hl, storeCr1_setBit s hl]
  simp [cr1Bits_iff l hl]

theorem effect_wrCr1_set_ue :
    effect l (.wrCr1 (s.cr1Word l ||| placeBit l.ue true)) (s.setRdata v) =
      { s with rdata := v, ue := true } := by
  rw [effect_wrCr1_setBits hl, storeCr1_setBit s hl]
  simp [cr1Bits_iff l hl, eq_comm (b := l.ue)]

theorem effect_wrCr1_clear_txeie :
    effect l (.wrCr1 (s.cr1Word l &&& ~~~placeBit l.txeie true)) (s.setRdata v) =
      { s with rdata := v, txeie := false } := by
  obtain ⟨ue, -⟩ := cr1Word_fields { s with txeie := false } hl
  rw [cr1Word_clear_txeie s hl, effect_wrCr1_of_not_disabling l (by simp [ue]), storeCr1_cr1Word _ _ hl]
  rfl

end Effect

/-! ## The sequence -/

section Sequence

variable {γ : Type} {p : Params} {f : γ → System → Host.Outcome System Fault Refusal} {y : System}
  (hr : y.block.running = true)

include hr

/-- A read of `CR1` and a write of a word made from what was read (R222). -/
theorem runWith_modifyCr1 (g : Word → Word) :
    ((rdReg .cr1).bind fun t => wrReg .cr1 (g t)).runWith p f [] y =
      .next ((), (y.withBlock (y.block.setRdata (y.block.cr1Word p.layout))).withBlock
        (effect p.layout (.wrCr1 (g (y.block.cr1Word p.layout)))
          (y.block.setRdata (y.block.cr1Word p.layout)))) := by
  rw [rdReg_bind, runWith_bus p f y _ _ hr]
  exact runWith_bus p f (y.withBlock (y.block.setRdata (y.block.cr1Word p.layout))) _ _ hr

/-- Arming drops no request, so the line sees what it sees after the write alone. -/
theorem runWith_arm (hl : p.layout.wf = true) :
    (setBits .cr1 (placeBit p.layout.txeie true)).runWith p f [] y =
      .next ((), y.withBlock { y.block with txeie := true, rdata := y.block.cr1Word p.layout }) := by
  rw [setBits, runWith_modifyCr1 hr, effect_wrCr1_set_txeie hl, withBlock_twice_of_le]
  simp only [State.irq, State.setRdata_txe, State.setRdata_rxne, State.setRdata_txeie, State.setRdata_rxneie,
    Bool.or_eq_true, Bool.and_eq_true]
  exact Or.imp_right fun ⟨txe, _⟩ => ⟨txe, trivial⟩

/-- Disarming may drop the request, which the line saw before. -/
theorem runWith_disarm (hl : p.layout.wf = true) :
    (clrBits .cr1 (placeBit p.layout.txeie true)).runWith p f [] y =
      .next ((), y.observe.withBlock { y.block with txeie := false, rdata := y.block.cr1Word p.layout }) := by
  rw [clrBits, runWith_modifyCr1 hr (fun t => t &&& _), effect_wrCr1_clear_txeie hl, withBlock_twice_of_eq]
  rfl

end Sequence

/-- Settles O52: the two runs, and what `irq` and the line are by definition. -/
theorem armAndDisarmTransmitSource : Obligations.ArmAndDisarmTransmitSource := by
  refine ⟨by decide, fun p y hl hr => ⟨⟨_, runWith_arm hr hl⟩, ⟨_, runWith_disarm hr hl⟩, fun v => ?_,
    fun s => rfl⟩⟩
  simp only [State.irq, Bool.and_true]

end Sys2Proof.Machine

/-! `ON_RX_READY` (R225): what it leaves of the firmware, and the run. -/

namespace Sys2Proof.Machine

/-- The firmware after `ON_RX_READY` has read a byte: appended if there is room, else dropped (R225). -/
def Firmware.received (p : Params) (fw : Firmware) (b : Byte) : Firmware :=
  if fw.rxCount < p.cRx then
    (fw.store (.cell .rx fw.rxCount b)).store (.count .rx (fw.rxCount + 1))
  else fw

section Received

variable {p : Params} {fw : Firmware} {b : Byte}

theorem received_of_room (h : fw.rxCount < p.cRx) : fw.received p b =
    (fw.store (.cell .rx fw.rxCount b)).store (.count .rx (fw.rxCount + 1)) := if_pos h

theorem received_of_full (h : ¬fw.rxCount < p.cRx) : fw.received p b = fw := if_neg h

variable (hw : fw.wf p = true)

include hw

theorem received_wf : (fw.received p b).wf p = true := by
  by_cases room : fw.rxCount < p.cRx
  · rw [received_of_room room]
    exact (append_rx hw room b).1
  · rwa [received_of_full room]

theorem received_held :
    (fw.received p b).held = if fw.rxCount < p.cRx then fw.held ++ [b] else fw.held := by
  split
  · next room =>
    rw [received_of_room room]
    exact (append_rx hw room b).2.1
  · next full => rw [received_of_full full]

theorem received_backlog : (fw.received p b).backlog = fw.backlog := by
  by_cases room : fw.rxCount < p.cRx
  · rw [received_of_room room]
    exact (append_rx hw room b).2.2
  · rw [received_of_full room]

end Received

/-- The read of `DR` and then only the firmware's own stores (R225). -/
theorem runWith_onRxReady {γ : Type} {p : Params} {f : γ → System → Host.Outcome System Fault Refusal}
    {y : System} (hr : y.block.running = true) (hl : p.layout.wf = true) :
    (onRxReady p).runWith p f [] y = .next ((),
      { y.withBlock { y.block with rdata := y.block.drWord p.layout, rxne := false } with
        fw := y.fw.received p (y.block.rdr.setWidth 8) }) := by
  rw [onRxReady, rdReg_bind, runWith_bus p f y _ _ hr]
  simp only [readOf, effect_rdDr, State.setRdata_rdata, getCount_bind, runWith_readCount]
  rw [drWord_byte _ (data_fits hl)]
  by_cases room : y.fw.rxCount < p.cRx
  · rw [received_of_room room, if_pos (by exact room)]
    rfl
  · rw [received_of_full room, if_neg (by exact room)]
    rfl

/-- Settles O55: the clauses are what `Firmware.received` is with room and without. -/
theorem onRxReadyAlwaysReads : Obligations.OnRxReadyAlwaysReads := by
  intro p y hl hr hw
  refine ⟨y.fw.received p (y.block.rdr.setWidth 8), runWith_onRxReady hr hl, received_wf hw, received_backlog hw,
    fun room => ?_, fun full => received_of_full (by omega)⟩
  rw [received_held hw, if_pos room]

end Sys2Proof.Machine

/-! What the driver's sequences may store, and where `SEND` arms (R220, R227, R283). -/

namespace Sys2Proof.Machine

/-! ## What each sequence stores -/

section Stores

variable {allowed : Store → Bool}

theorem rdReg_writesOnly (r : Reg) : (rdReg r).writesOnly allowed := fun _ => trivial

theorem wrReg_writesOnly (r : Reg) (v : Word) : (wrReg r v).writesOnly allowed := fun _ => trivial

theorem getCount_writesOnly (c : Count) : (getCount c).writesOnly allowed := fun _ => trivial

theorem getCell_writesOnly (buf : Buffer) (i : Nat) : (getCell buf i).writesOnly allowed := fun _ => trivial

theorem put_writesOnly {w : Store} (h : allowed w = true) : (put w).writesOnly allowed := ⟨h, trivial⟩

theorem setBits_writesOnly (r : Reg) (m : Word) : (setBits r m).writesOnly allowed := fun _ _ => trivial

theorem clrBits_writesOnly (r : Reg) (m : Word) : (clrBits r m).writesOnly allowed := fun _ _ => trivial

theorem increment_writesOnly {c : Count} (h : ∀ n, allowed (.count c (n + 1)) = true) :
    (increment c).writesOnly allowed := fun n => ⟨h n, trivial⟩

theorem backlogWaits_writesOnly : backlogWaits.writesOnly allowed := fun _ _ => trivial

theorem backlogEmpty_writesOnly : backlogEmpty.writesOnly allowed := fun _ _ => trivial

end Stores

theorem onRxReady_writesOnly (p : Params) : (onRxReady p).writesOnly Store.byIsr :=
  writesOnly_bind (rdReg_writesOnly .dr) fun _ =>
  writesOnly_bind (getCount_writesOnly .rx) fun _ =>
  writesOnly_ite.2 ⟨fun _ =>
    writesOnly_bind (getCount_writesOnly .rx) fun _ =>
    writesOnly_bind (put_writesOnly rfl) fun _ => increment_writesOnly fun _ => rfl,
  fun _ => trivial⟩

theorem onTxReady_writesOnly (p : Params) : (onTxReady p).writesOnly Store.byIsr :=
  writesOnly_bind (getCount_writesOnly .sent) fun i =>
  writesOnly_bind (getCell_writesOnly .tx i) fun _ =>
  writesOnly_bind (wrReg_writesOnly .dr _) fun _ =>
  writesOnly_bind (increment_writesOnly fun _ => rfl) fun _ =>
  writesOnly_bind (getCount_writesOnly .sent) fun _ =>
  writesOnly_bind (getCount_writesOnly .pending) fun _ =>
  writesOnly_ite.2 ⟨fun _ =>
    writesOnly_bind (put_writesOnly rfl) fun _ =>
    writesOnly_bind (put_writesOnly rfl) fun _ => clrBits_writesOnly .cr1 _,
  fun _ => trivial⟩

theorem onInterrupt_writesOnly (p : Params) : (onInterrupt p).writesOnly Store.byIsr :=
  writesOnly_bind (rdReg_writesOnly .sr) fun _ =>
  writesOnly_bind (writesOnly_ite.2 ⟨fun _ => onRxReady_writesOnly p, fun _ => trivial⟩) fun _ =>
  writesOnly_bind (writesOnly_ite.2 ⟨fun _ => backlogWaits_writesOnly, fun _ => trivial⟩) fun _ =>
  writesOnly_ite.2 ⟨fun _ => onTxReady_writesOnly p, fun _ => trivial⟩

theorem send_writesOnly (p : Params) (text : List Byte) : (send p text).writesOnly Store.byApplication := by
  induction text with
  | nil => trivial
  | cons b bs ih =>
    exact
      writesOnly_bind (rdReg_writesOnly .sr) fun _ =>
      writesOnly_bind (writesOnly_ite.2 ⟨fun _ => backlogEmpty_writesOnly, fun _ => trivial⟩) fun _ =>
      writesOnly_ite.2 ⟨fun _ => writesOnly_bind (wrReg_writesOnly .dr _) fun _ => ih, fun _ =>
        writesOnly_bind (getCount_writesOnly .pending) fun _ =>
        writesOnly_ite.2 ⟨fun _ => trivial, fun _ =>
          writesOnly_bind (getCount_writesOnly .pending) fun _ =>
          writesOnly_bind (put_writesOnly rfl) fun _ =>
          writesOnly_bind (increment_writesOnly fun _ => rfl) fun _ =>
          writesOnly_bind (setBits_writesOnly .cr1 _) fun _ => ih⟩⟩

theorem copyReceived_writesOnly {allowed : Store → Bool} (i n : Nat) :
    (copyReceived i n).writesOnly allowed := by
  induction n generalizing i with
  | zero => trivial
  | succ n ih =>
    exact writesOnly_bind (getCell_writesOnly .rx i) fun _ => writesOnly_bind (ih (i + 1)) fun _ => trivial

theorem receive_writesOnly (n : Nat) : (receive n).writesOnly Store.byApplication :=
  writesOnly_ite.2 ⟨fun _ => trivial, fun _ =>
    writesOnly_bind (getCount_writesOnly .rx) fun _ =>
    writesOnly_bind (copyReceived_writesOnly 0 _) fun _ =>
    writesOnly_bind (put_writesOnly rfl) fun _ => trivial⟩

/-- Neither a register nor the controller is the firmware's state, so any split allows `CONFIGURE`. -/
theorem configure_writesOnly {allowed : Store → Bool} (p : Params) (fClk : Int) (c : LineConfig) (prio : Nat) :
    (configure p fClk c prio).writesOnly allowed := by
  unfold configure
  cases divisor fClk c.bitRate with
  | none => trivial
  | some d => exact fun _ _ _ _ _ _ _ _ _ => trivial

/-! ## Where `SEND` arms -/

section Arms

variable {l : Layout}

/-- A sequence in order leaves no append unarmed, so the one after it starts with none. -/
theorem armsAfterAppend_bind {α β : Type} {s : Script α} {g : α → Script β} {owed : Bool}
    (hs : s.armsAfterAppend l owed) (hg : ∀ a, (g a).armsAfterAppend l false) :
    (s.bind g).armsAfterAppend l owed := by
  induction s generalizing owed with
  | done a => exact hs ▸ hg a
  | bus _ _ ih => exact ⟨hs.1, fun w => ih w (hs.2 w)⟩
  | readCount _ _ ih => exact fun n => ih n (hs n)
  | readCell _ _ _ ih => exact fun b => ih b (hs b)
  | store _ _ ih => exact ⟨hs.1, ih hs.2⟩
  | service _ _ ih => exact ih hs

theorem rdSr_armsAfterAppend : (rdReg .sr).armsAfterAppend l false := ⟨fun armed => (nomatch armed), fun _ => rfl⟩

theorem wrDr_armsAfterAppend (v : Word) : (wrReg .dr v).armsAfterAppend l false :=
  ⟨fun armed => (nomatch armed), fun _ => rfl⟩

theorem getCount_armsAfterAppend (c : Count) : (getCount c).armsAfterAppend l false := fun _ => rfl

theorem backlogEmpty_armsAfterAppend : backlogEmpty.armsAfterAppend l false := fun _ _ => rfl

/-- The word that `SETBITS` writes to arm has `TXEIE` = 1, whatever was read. -/
theorem wdataTXEIE_or_mask (hl : l.wf = true) (t : Word) :
    wdataTXEIE l (t ||| placeBit l.txeie true) = true := by
  simp [wdataTXEIE, placeBit_getLsbD, cr1Bits_iff l hl]

/-- An append of `SEND`, of which the store of the count is the visible part, and the arming that follows it
(R227, R283). -/
theorem append_arm_armsAfterAppend (hl : l.wf = true) (i : Nat) (b : Byte) {k : Script Unit}
    (hk : k.armsAfterAppend l false) :
    ((put (.cell .tx i b)).bind fun _ =>
      (increment .pending).bind fun _ =>
      (setBits .cr1 (placeBit l.txeie true)).bind fun _ => k).armsAfterAppend l false := by
  refine ⟨fun cell => (nomatch cell), fun _ => ⟨fun _ => rfl, fun read => (nomatch read), fun t =>
    ⟨fun _ => rfl, fun _ => ?_⟩⟩⟩
  have armed : arms l (writeOf .cr1 (t ||| placeBit l.txeie true)) = true := wdataTXEIE_or_mask hl t
  rw [armed]
  exact hk

end Arms

theorem send_armsAfterAppend {p : Params} (hl : p.layout.wf = true) (text : List Byte) :
    (send p text).armsAfterAppend p.layout false := by
  induction text with
  | nil => rfl
  | cons b bs ih =>
    exact
      armsAfterAppend_bind rdSr_armsAfterAppend fun _ =>
      armsAfterAppend_bind (armsAfterAppend_ite.2 ⟨fun _ => backlogEmpty_armsAfterAppend, fun _ => rfl⟩) fun _ =>
      armsAfterAppend_ite.2 ⟨fun _ => armsAfterAppend_bind (wrDr_armsAfterAppend _) fun _ => ih, fun _ =>
        armsAfterAppend_bind (getCount_armsAfterAppend .pending) fun _ =>
        armsAfterAppend_ite.2 ⟨fun _ => rfl, fun _ =>
          armsAfterAppend_bind (getCount_armsAfterAppend .pending) fun i => append_arm_armsAfterAppend hl i b ih⟩⟩

/-- Settles O57: each sequence is taken apart at its binds, `SEND` also along the text. -/
theorem firmwareContextsKeepTheirSplit : Obligations.FirmwareContextsKeepTheirSplit :=
  fun p text n fClk c prio hl => ⟨onInterrupt_writesOnly p, send_writesOnly p text, receive_writesOnly n,
    configure_writesOnly p fClk c prio, send_armsAfterAppend hl text⟩

end Sys2Proof.Machine

/-! A sequence with nothing between its steps. What it answers, and what it leaves of the block and the firmware,
is a function of the two: neither the line nor `serving` is read by any step. -/

namespace Sys2Proof.Machine

/-- A sequence run alone in a running block: its result, the block and the firmware after it. -/
def Script.alone {α : Type} (l : Layout) : Script α → State → Firmware → α × State × Firmware
  | .done a, s, fw => (a, s, fw)
  | .bus i k, s, fw => (k (effect l i s).rdata).alone l (effect l i s) fw
  | .readCount c k, s, fw => (k (fw.count c)).alone l s fw
  | .readCell buf i k, s, fw => (k (fw.cell buf i)).alone l s fw
  | .store w k, s, fw => k.alone l s (fw.store w)
  | .service _ k, s, fw => k.alone l s fw

/-- `Script.alone` is the model's run without interludes, in mainline or in the handler. -/
theorem runWith_of_alone {α γ : Type} {p : Params} {f : γ → System → Host.Outcome System Fault Refusal}
    {q : Script α} {y : System} {a : α} {s : State} {fw : Firmware} (hr : y.block.running = true)
    (h : q.alone p.layout y.block y.fw = (a, s, fw)) :
    ∃ z, q.runWith p f [] y = .next (a, z) ∧ z.block = s ∧ z.fw = fw ∧ z.serving = y.serving := by
  induction q generalizing y with
  | done b =>
    obtain ⟨rfl, rfl, rfl⟩ := h
    exact ⟨y, rfl, rfl, rfl, rfl⟩
  | bus i k ih =>
    rw [runWith_bus p f y i k hr]
    exact ih _ (y := y.withBlock (effect p.layout i y.block)) ((effect_running p.layout i y.block).trans hr) h
  | readCount c k ih => exact ih _ hr h
  | readCell buf i k ih => exact ih _ hr h
  | store w k ih => exact ih (y := { y with fw := y.fw.store w }) hr h
  | service c k ih => exact ih (y := y.service c) hr h

/-- So what one run in a running block does says what the sequence does alone. -/
theorem alone_of_runWith {α γ : Type} {p : Params} {f : γ → System → Host.Outcome System Fault Refusal}
    {q : Script α} {y z : System} {a : α} (hr : y.block.running = true)
    (h : q.runWith p f [] y = .next (a, z)) : q.alone p.layout y.block y.fw = (a, z.block, z.fw) := by
  obtain ⟨z', run, block, fw, -⟩ := runWith_of_alone (f := f) hr (q := q) rfl
  cases h.symm.trans run
  rw [block, fw]

section Alone

variable {α β : Type} {l : Layout} {s : State} {fw : Firmware}

@[simp] theorem alone_done (a : α) : (Script.done a).alone l s fw = (a, s, fw) := rfl

theorem alone_bind (q : Script α) (g : α → Script β) {a : α} {s' : State} {fw' : Firmware}
    (h : q.alone l s fw = (a, s', fw')) : (q.bind g).alone l s fw = (g a).alone l s' fw' := by
  induction q generalizing s fw with
  | done =>
    obtain ⟨rfl, rfl, rfl⟩ := h
    rfl
  | bus _ _ ih => exact ih _ h
  | readCount _ _ ih => exact ih _ h
  | readCell _ _ _ ih => exact ih _ h
  | store _ _ ih => exact ih h
  | service _ _ ih => exact ih h

theorem alone_rdSr : (rdReg .sr).alone l s fw = (s.srWord l, s.setRdata (s.srWord l), fw) := rfl

theorem alone_getPending : (getCount .pending).alone l s fw = (fw.pendingCount, s, fw) := rfl

theorem alone_getSent : (getCount .sent).alone l s fw = (fw.sentCount, s, fw) := rfl

theorem alone_getCell (buf : Buffer) (i : Nat) : (getCell buf i).alone l s fw = (fw.cell buf i, s, fw) := rfl

theorem alone_put (w : Store) : (put w).alone l s fw = ((), s, fw.store w) := rfl

theorem alone_increment_pending : (increment .pending).alone l s fw =
    ((), s, fw.store (.count .pending (fw.pendingCount + 1))) := rfl

theorem alone_increment_sent : (increment .sent).alone l s fw =
    ((), s, fw.store (.count .sent (fw.sentCount + 1))) := rfl

/-- The test of `SEND` for a byte that goes straight to `DR` (R227). -/
theorem alone_testDirect (reg : Bool) : (if reg then backlogEmpty else .done false).alone l s fw =
    (reg && decide (fw.sentCount = fw.pendingCount), s, fw) := by
  cases reg <;> rfl

/-- The second test of `ON_INTERRUPT` (R224). -/
theorem alone_testReady (reg : Bool) : (if reg then backlogWaits else .done false).alone l s fw =
    (reg && decide (fw.sentCount < fw.pendingCount), s, fw) := by
  cases reg <;> rfl

variable (hl : l.wf = true)

include hl

theorem alone_arm : (setBits .cr1 (placeBit l.txeie true)).alone l s fw =
    ((), { s with txeie := true, rdata := s.cr1Word l }, fw) := by
  rw [← effect_wrCr1_set_txeie hl]
  rfl

theorem alone_disarm : (clrBits .cr1 (placeBit l.txeie true)).alone l s fw =
    ((), { s with txeie := false, rdata := s.cr1Word l }, fw) := by
  rw [← effect_wrCr1_clear_txeie hl]
  rfl

theorem alone_wrDr (b : Byte) : (wrReg .dr (placeField l.data b)).alone l s fw =
    ((), { s with tdr := b.setWidth 9, txe := false }, fw) := by
  rw [← wdataDATA_placeField (data_fits hl)]
  rfl

end Alone

end Sys2Proof.Machine

/-! The application's sequences run alone: `SEND` and `RECEIVE` (R227, R228, R229). -/

namespace Sys2Proof.Machine

/-! ## `SEND` -/

section Send

variable {p : Params} {s : State} {fw : Firmware} (b : Byte) (bs : List Byte) (hl : p.layout.wf = true)

include hl

theorem alone_send_direct (free : s.txe = true) (empty : fw.sentCount = fw.pendingCount) :
    (send p (b :: bs)).alone p.layout s fw = (send p bs).alone p.layout
      { s with tdr := b.setWidth 9, txe := false, rdata := s.srWord p.layout } fw := by
  obtain ⟨txe, -⟩ := srWord_fields s hl
  rw [send, alone_bind _ _ alone_rdSr, alone_bind _ _ (alone_testDirect _), txe,
    if_pos (by simp [free, empty]), alone_bind _ _ (alone_wrDr hl b)]
  rfl

/-- A byte that may not go directly is appended, and the source armed, or the rest of the text is dropped. -/
theorem alone_send_queued (busy : s.txe = false ∨ fw.sentCount ≠ fw.pendingCount) :
    (send p (b :: bs)).alone p.layout s fw =
      if fw.pendingCount = p.cTx then ((), s.setRdata (s.srWord p.layout), fw)
      else (send p bs).alone p.layout { s with txeie := true, rdata := s.cr1Word p.layout }
        ((fw.store (.cell .tx fw.pendingCount b)).store (.count .pending (fw.pendingCount + 1))) := by
  obtain ⟨txe, -⟩ := srWord_fields s hl
  rw [send, alone_bind _ _ alone_rdSr, alone_bind _ _ (alone_testDirect _), txe,
    if_neg (by rcases busy with h | h <;> simp [h]), alone_bind _ _ alone_getPending]
  by_cases full : fw.pendingCount = p.cTx
  · rw [if_pos full, if_pos full, alone_done]
  · rw [if_neg full, if_neg full, alone_bind _ _ alone_getPending, alone_bind _ _ (alone_put _),
      alone_bind _ _ alone_increment_pending, alone_bind _ _ (alone_arm hl)]
    rfl

/-- With the data register full or bytes waiting the text is appended as far as there is room (R227). -/
theorem alone_send_appends (text : List Byte) (hw : fw.wf p = true)
    (busy : s.txe = false ∨ fw.sentCount ≠ fw.pendingCount) :
    ∃ v fw', (send p text).alone p.layout s fw = ((), { s with
        txeie := s.txeie || !(text.take (p.cTx - fw.pendingCount)).isEmpty, rdata := v }, fw') ∧
      fw'.wf p = true ∧ fw'.backlog = fw.backlog ++ text.take (p.cTx - fw.pendingCount) ∧
      fw'.held = fw.held := by
  induction text generalizing s fw with
  | nil => exact ⟨s.rdata, fw, by simp [send], hw, by simp, rfl⟩
  | cons b bs ih =>
    rw [alone_send_queued b bs hl busy]
    obtain ⟨-, -, counts, pending, capacity⟩ := (fw.wf_iff p).1 hw
    by_cases full : fw.pendingCount = p.cTx
    · exact ⟨s.srWord p.layout, fw, by simp [full, State.setRdata], hw, by simp [full], rfl⟩
    · obtain ⟨wf, backlog, held⟩ := append_tx hw (by omega) b
      obtain ⟨v, fw', run, wf', backlog', held'⟩ := ih
        (s := { s with txeie := true, rdata := s.cr1Word p.layout }) wf (.inr (by simp [Firmware.store]; omega))
      have room : (b :: bs).take (p.cTx - fw.pendingCount) = b :: bs.take (p.cTx - (fw.pendingCount + 1)) := by
        rw [show p.cTx - fw.pendingCount = p.cTx - (fw.pendingCount + 1) + 1 by omega, List.take_succ_cons]
      refine ⟨v, fw', ?_, wf', ?_, held'.trans held⟩
      · rw [if_neg full, run]
        simp [room]
      · rw [backlog', backlog, room, List.append_assoc]
        rfl

end Send

/-! ## `RECEIVE` -/

section Receive

variable {γ : Type} {p : Params} {f : γ → System → Host.Outcome System Fault Refusal} {y : System}

/-- A copy only loads cells, so nothing moves, the line included. -/
theorem runWith_copyReceived {i n : Nat} (h : i + n ≤ y.fw.rxBuf.length) :
    (copyReceived i n).runWith p f [] y = .next ((y.fw.rxBuf.drop i).take n, y) := by
  induction n generalizing i with
  | zero => rfl
  | succ n ih =>
    have inside : i < y.fw.rxBuf.length := by omega
    rw [copyReceived, getCell_bind, runWith_readCell, runWith_bind, ih (by omega),
      cell_of_lt y.fw .rx i inside, List.drop_eq_getElem_cons inside]
    rfl

theorem runWith_receive (hw : y.fw.wf p = true) {n : Nat} (hn : 0 < n) : (receive n).runWith p f [] y =
    .next (y.fw.held.take n, { y with fw := { y.fw with rxCount := 0 } }) := by
  obtain ⟨written, -⟩ := (y.fw.wf_iff p).1 hw
  rw [receive, if_neg (by omega), getCount_bind, runWith_readCount, runWith_bind,
    runWith_copyReceived (by simp [Firmware.count]; omega)]
  simp [Firmware.held, Firmware.count, List.take_take, Firmware.store]

end Receive

/-- Settles O58: `SEND` is run alone, its first byte apart if that goes directly; `RECEIVE` is run as it stands,
since the line is in its frame. -/
theorem sendEnqueuesInOrderAndReceiveDrainsOldestFirst :
    Obligations.SendEnqueuesInOrderAndReceiveDrainsOldestFirst := by
  intro p y hl hr hw
  refine ⟨fun text busy => ?_, fun b bs free empty => ?_, fun n hn => runWith_receive hw hn, rfl⟩
  · obtain ⟨v, fw', alone, wf, backlog, held⟩ := alone_send_appends hl text hw busy
    obtain ⟨z, run, block, rfl, -⟩ := runWith_of_alone hr alone
    exact ⟨z, v, run, wf, backlog, held, block⟩
  · obtain ⟨v, fw', alone, wf, backlog, held⟩ := alone_send_appends (s := { y.block with
      tdr := b.setWidth 9, txe := false, rdata := y.block.srWord p.layout }) hl bs hw (.inl rfl)
    rw [(backlog_eq_nil_iff hw).2 empty] at backlog
    obtain ⟨z, run, block, rfl, -⟩ := runWith_of_alone hr ((alone_send_direct b bs hl free empty).trans alone)
    exact ⟨z, v, run, wf, backlog, held, block⟩

end Sys2Proof.Machine

/-! The handler run alone (R224, R225, R226, R229, R284). -/

namespace Sys2Proof.Machine

/-! ## The receive half -/

section Receiver

variable {p : Params} {s : State} {fw : Firmware}

/-- The firmware after the receive half of `ON_INTERRUPT` (R224, R225). -/
def Firmware.afterReceiver (fw : Firmware) (p : Params) (s : State) : Firmware :=
  if s.rxne then fw.received p (s.rdr.setWidth 8) else fw

theorem afterReceiver_wf (hw : fw.wf p = true) : (fw.afterReceiver p s).wf p = true := by
  unfold Firmware.afterReceiver
  split
  · exact received_wf hw
  · exact hw

theorem afterReceiver_backlog (hw : fw.wf p = true) : (fw.afterReceiver p s).backlog = fw.backlog := by
  unfold Firmware.afterReceiver
  split
  · exact received_backlog hw
  · rfl

theorem afterReceiver_held (hw : fw.wf p = true) : (fw.afterReceiver p s).held =
    if s.rxne = true ∧ fw.rxCount < p.cRx then fw.held ++ [s.rdr.setWidth 8] else fw.held := by
  rw [ite_and, ← received_held hw, Firmware.afterReceiver]
  split <;> rfl

/-- After the receive half of `ON_INTERRUPT` no character waits; `w` is the status it has read (R225, R284). -/
theorem alone_serveReceiver (fw : Firmware) (hl : p.layout.wf = true) (hr : s.running = true) (w : Word) :
    ∃ v, (if s.rxne then onRxReady p else .done ()).alone p.layout (s.setRdata w) fw =
      ((), { s with rxne := false, rdata := v }, fw.afterReceiver p s) := by
  unfold Firmware.afterReceiver
  cases rxne : s.rxne with
  | false =>
    have none : s = { s with rxne := false } := by rw [← rxne]
    exact ⟨w, congrArg (fun t : State => ((), t.setRdata w, fw)) none⟩
  | true =>
    exact ⟨s.drWord p.layout, alone_of_runWith (f := System.event p)
      (y := { block := s.setRdata w, fw := fw, line := IrqLine.initial, serving := true }) hr
      (runWith_onRxReady hr hl)⟩

end Receiver

/-! ## The transmit half -/

/-- The backlog is not empty exactly if `sent_count < pending_count` (R220). -/
theorem sent_lt_pending_iff {p : Params} {fw : Firmware} (hw : fw.wf p = true) :
    fw.sentCount < fw.pendingCount ↔ fw.backlog ≠ [] := by
  obtain ⟨-, -, counts, -⟩ := (fw.wf_iff p).1 hw
  rw [ne_eq, backlog_eq_nil_iff hw]
  omega

/-- The oldest byte of the backlog handed over (R226). -/
theorem store_sent_succ {p : Params} {fw : Firmware} {b : Byte} {rest : List Byte} (hw : fw.wf p = true)
    (h : fw.backlog = b :: rest) :
    fw.cell .tx fw.sentCount = b ∧ (fw.store (.count .sent (fw.sentCount + 1))).wf p = true ∧
      (fw.store (.count .sent (fw.sentCount + 1))).backlog = rest := by
  have waits : fw.sentCount < fw.pendingCount := (sent_lt_pending_iff hw).2 (by simp [h])
  obtain ⟨rx, capRx, -, tx, capTx⟩ := (fw.wf_iff p).1 hw
  obtain ⟨cell, tail⟩ := List.cons.inj (h.symm.trans (backlog_eq_cons hw waits))
  exact ⟨cell.symm, (Firmware.wf_iff p _).2 ⟨rx, capRx, waits, tx, capTx⟩, tail.symm⟩

/-- With the backlog at its end both counts are reset (R220, R226). -/
theorem store_counts_zero_wf {p : Params} {fw : Firmware} (hw : fw.wf p = true) :
    ((fw.store (.count .sent 0)).store (.count .pending 0)).wf p = true := by
  obtain ⟨rx, capRx, -, -, capTx⟩ := (fw.wf_iff p).1 hw
  exact (Firmware.wf_iff p _).2 ⟨rx, capRx, Nat.le_refl 0, Nat.zero_le _, capTx⟩

/-- `ON_TX_READY` under its contract: with a byte in the backlog (R226). -/
theorem alone_onTxReady {p : Params} {s : State} {fw : Firmware} {b : Byte} {rest : List Byte}
    (hl : p.layout.wf = true) (hw : fw.wf p = true) (h : fw.backlog = b :: rest) :
    ∃ v fw', (onTxReady p).alone p.layout s fw = ((), { s with
        tdr := b.setWidth 9, txe := false, txeie := s.txeie && !rest.isEmpty, rdata := v }, fw') ∧
      fw'.wf p = true ∧ fw'.backlog = rest ∧ fw'.held = fw.held := by
  obtain ⟨cell, wf, backlog⟩ := store_sent_succ hw h
  have last : fw.sentCount + 1 = fw.pendingCount ↔ rest = [] := backlog ▸ (backlog_eq_nil_iff wf).symm
  rw [onTxReady, alone_bind _ _ alone_getSent, alone_bind _ _ (alone_getCell .tx _),
    alone_bind _ _ (alone_wrDr hl _), alone_bind _ _ alone_increment_sent, alone_bind _ _ alone_getSent,
    alone_bind _ _ alone_getPending, cell]
  by_cases emptied : fw.sentCount + 1 = fw.pendingCount
  · obtain rfl := last.1 emptied
    rw [if_pos (by exact emptied), alone_bind _ _ (alone_put _), alone_bind _ _ (alone_put _), alone_disarm hl]
    exact ⟨_, _, by rw [List.isEmpty_nil, Bool.not_true, Bool.and_false], store_counts_zero_wf wf, rfl, rfl⟩
  · rw [if_neg (by exact emptied)]
    exact ⟨s.rdata, _, by simp [mt last.2 emptied], wf, backlog, rfl⟩

/-! ## Both halves -/

section Handler

variable {p : Params} {s : State} {fw : Firmware}

/-- The two halves, of which the second sees the status as it was read before the first (R224). -/
theorem alone_onInterrupt (hl : p.layout.wf = true) (hr : s.running = true) (hw : fw.wf p = true) :
    ∃ v, (onInterrupt p).alone p.layout s fw =
      (if s.txe && decide (fw.backlog ≠ []) then onTxReady p else .done ()).alone p.layout
        { s with rxne := false, rdata := v } (fw.afterReceiver p s) := by
  obtain ⟨txe, -, rxne, -⟩ := srWord_fields s hl
  obtain ⟨v, receiver⟩ := alone_serveReceiver fw hl hr (s.srWord p.layout)
  have waits : decide ((fw.afterReceiver p s).sentCount < (fw.afterReceiver p s).pendingCount) =
      decide (fw.backlog ≠ []) :=
    decide_eq_decide.2 (afterReceiver_backlog (s := s) hw ▸ sent_lt_pending_iff (afterReceiver_wf hw))
  refine ⟨v, ?_⟩
  rw [onInterrupt, alone_bind _ _ alone_rdSr, rxne, txe, alone_bind _ _ receiver, alone_bind _ _ (alone_testReady _),
    waits]

end Handler

/-- Settles O59: with a byte to hand over `ON_TX_READY` runs after the receive half, else nothing does. -/
theorem handlerServesBothConditions : Obligations.HandlerServesBothConditions := by
  intro p y hl hr hw
  obtain ⟨v, handler⟩ := alone_onInterrupt hl hr hw
  have wf := afterReceiver_wf (s := y.block) hw
  have backlog := afterReceiver_backlog (s := y.block) hw
  have held := afterReceiver_held (s := y.block) hw
  by_cases ready : y.block.txe = true ∧ y.fw.backlog ≠ []
  · obtain ⟨txe, waits⟩ := ready
    obtain ⟨b, rest, oldest⟩ := List.exists_cons_of_ne_nil waits
    obtain ⟨v', fw', sends, wf', backlog', held'⟩ := alone_onTxReady
      (s := { y.block with rxne := false, rdata := v }) hl wf (backlog.trans oldest)
    rw [if_pos (by simp [txe, waits]), sends] at handler
    obtain ⟨z, run, block, rfl, serving⟩ := runWith_of_alone hr handler
    refine ⟨z, v', run, wf', serving, held'.trans held, fun idle => ?_, ?_⟩
    · simp [txe, waits] at idle
    · rintro c tail - same
      obtain ⟨rfl, rfl⟩ := List.cons.inj (oldest.symm.trans same)
      exact ⟨backlog', block⟩
  · rw [if_neg (by simpa using ready), alone_done] at handler
    obtain ⟨z, run, block, fw, serving⟩ := runWith_of_alone hr handler
    rw [← fw] at wf backlog held
    refine ⟨z, v, run, wf, serving, held, fun _ => ⟨backlog, block⟩, fun b rest txe oldest => ?_⟩
    exact absurd ⟨txe, by simp [oldest]⟩ ready

end Sys2Proof.Machine

/-! `CONFIGURE` (R221, R149). From reset no step of it makes the block request, so the line moves by its two calls
alone. -/

namespace Sys2Proof.Machine

/-! ## The divisor -/

/-- A rate of 0 needs no case of its own: the quotient is 0 (R149, log 27). -/
theorem divisor_eq (fClk : Int) (bitRate : Nat) : divisor fClk bitRate =
    if fClk ≤ 0 ∨ fClk.toNat / bitRate = 0 ∨ 65535 < fClk.toNat / bitRate then none
    else some (fClk.toNat / bitRate) := by
  unfold divisor
  by_cases h : bitRate = 0 <;> simp [h]

theorem runWith_configure_unsupported {γ : Type} {p : Params}
    {f : γ → System → Host.Outcome System Fault Refusal} {y : System} {fClk : Int} {c : LineConfig} {prio : Nat} (h : divisor fClk c.bitRate = none) :
    (configure p fClk c prio).runWith p f [] y = .next (.error .unsupportedRate, y) := by
  rw [configure, h]
  rfl

/-! ## What is read -/

/-- With none of its fields set `CR1` reads 0. -/
theorem effect_rdCr1_of_zero {l : Layout} (s : State) (ue : s.ue = false) (wl : s.wl = 0b00#2) (pce : s.pce = false)
    (ps : s.ps = false) (txeie : s.txeie = false) (rxneie : s.rxneie = false) :
    effect l .rdCr1 s = { s with rdata := 0#32 } := by
  simp [State.cr1Word, State.setRdata, ue, wl, pce, ps, txeie, rxneie]

theorem effect_rdCr2_of_zero {l : Layout} (s : State) (h : s.stop2 = false) :
    effect l .rdCr2 s = { s with rdata := 0#32 } := by
  simp [State.cr2Word, State.setRdata, h]

/-! ## What is written -/

section Effect

variable {l : Layout} (hl : l.wf = true) (s : State)

include hl

theorem effect_wrBrr_placeField (d : BitVec 16) :
    effect l (.wrBrr (placeField l.div d)) s = { s with div := d } := by
  rw [effect_wrBrr, wdataDIV, extract_placeField _ _ (div_fits hl)]

/-- The framing bits are what `CR1` reads with nothing else set. -/
theorem effect_wrCr1_framing (m : Word) (w : WordLength) (q : Parity) (hs : s.ue = false) :
    effect l (.wrCr1 ((0#32 &&& m) ||| w.bits l ||| q.bits l)) s = { s with
      wl := w.code, pce := q.pce, ps := q.ps, txeie := false, rxneie := false } := by
  have word : (0#32 &&& m) ||| w.bits l ||| q.bits l =
      ({ State.reset with wl := w.code, pce := q.pce, ps := q.ps } : State).cr1Word l := by
    simp [State.cr1Word, State.reset, WordLength.bits, Parity.bits, BitVec.or_assoc]
  rw [effect_wrCr1_of_disabled _ _ _ hs, word, storeCr1_cr1Word _ _ hl]
  simp [State.reset, hs]

theorem effect_wrCr2_stopBits (m : Word) (b : StopBits) :
    effect l (.wrCr2 ((0#32 &&& m) ||| b.bits l)) s = { s with stop2 := b.stop2 } := by
  rw [BitVec.zero_and, BitVec.zero_or, effect_wrCr2, wdataSTOP2, StopBits.bits, placeBit_getLsbD,
    decide_eq_true (stop2_fits hl), decide_eq_true rfl, Bool.true_and, Bool.true_and]

end Effect

/-! ## The run -/

section Quiet

variable {α γ : Type} {p : Params} {f : γ → System → Host.Outcome System Fault Refusal} {s t : State}
  {fw : Firmware} {line : IrqLine} {serving : Bool} {r : Host.Outcome (α × System) Fault Refusal}

/-- A bus operation after which the block requests nothing leaves the line as it is. -/
theorem runWith_bus_of_quiet {i : Instr} {k : Word → Script α} (hr : s.running = true)
    (h : effect p.layout i s = t) (quiet : t.irq = false)
    (rest : (k t.rdata).runWith p f [] ⟨t, fw, line, serving⟩ = r) :
    (Script.bus i k).runWith p f [] ⟨s, fw, line, serving⟩ = r := by
  rw [runWith_bus p f _ i k hr, h, withBlock_of_quiet _ t quiet]
  exact rest

/-- With no request the line does what is asked, and no more. -/
theorem runWith_service_of_quiet {c : Service} {k : Script α} (quiet : s.irq = false)
    (rest : k.runWith p f [] ⟨s, fw, line.apply c, serving⟩ = r) :
    (Script.service c k).runWith p f [] ⟨s, fw, line, serving⟩ = r := by
  rw [runWith_service, service_of_quiet _ c quiet]
  exact rest

end Quiet

/-- The block after `CONFIGURE` has written the divisor and the framing, and enabled nothing yet (R221). -/
def configuredBlock (d : Nat) (c : LineConfig) : State :=
  { State.reset with
    div := BitVec.ofNat 16 d, wl := c.wordLength.code, pce := c.parity.pce, ps := c.parity.ps
    stop2 := c.stopBits.stop2 }

theorem runWith_configure {γ : Type} {p : Params} {f : γ → System → Host.Outcome System Fault Refusal}
    {y : System} {fClk : Int} {c : LineConfig} {prio d : Nat} (hl : p.layout.wf = true)
    (hd : divisor fClk c.bitRate = some d) (hy : y.block = State.reset) : ∃ v,
    (configure p fClk c prio).runWith p f [] y = .next (.ok (), { y with
      block := { configuredBlock d c with rxneie := true, ue := true, rdata := v }
      line := { y.line with enabled := true, priority := prio } }) := by
  obtain ⟨block, fw, line, serving⟩ := y
  obtain rfl : block = State.reset := hy
  refine ⟨({ configuredBlock d c with rxneie := true } : State).cr1Word p.layout, ?_⟩
  rw [configure, hd]
  refine runWith_bus_of_quiet rfl (effect_wrBrr_placeField hl _ _) rfl ?_
  refine runWith_bus_of_quiet rfl (effect_rdCr1_of_zero _ rfl rfl rfl rfl rfl rfl) rfl ?_
  refine runWith_bus_of_quiet rfl (effect_wrCr1_framing hl _ _ c.wordLength c.parity rfl) rfl ?_
  refine runWith_bus_of_quiet rfl (effect_rdCr2_of_zero _ rfl) rfl ?_
  refine runWith_bus_of_quiet rfl (effect_wrCr2_stopBits hl _ _ c.stopBits) rfl ?_
  refine runWith_bus_of_quiet rfl (effect_rdCr1 p.layout _) rfl ?_
  refine runWith_bus_of_quiet rfl (effect_wrCr1_set_rxneie hl _ _) rfl ?_
  refine runWith_service_of_quiet rfl (runWith_service_of_quiet rfl ?_)
  refine runWith_bus_of_quiet rfl (effect_rdCr1 p.layout _) rfl ?_
  exact runWith_bus_of_quiet rfl (effect_wrCr1_set_ue hl _ _) rfl rfl

/-! ## What is left -/

/-- The fields as the record `LineConfig` gives them (R28, R29, R221). -/
theorem configuredBlock_eq (d : Nat) (c : LineConfig) : configuredBlock d c = { State.reset with
    div := BitVec.ofNat 16 d
    wl := if c.wordLength = .w8 then 0b00#2 else if c.wordLength = .w7 then 0b01#2 else 0b10#2
    pce := decide (c.parity ≠ .none), ps := decide (c.parity = .odd)
    stop2 := decide (c.stopBits = .two) } := by
  obtain ⟨rate, word, parity, stop⟩ := c
  have wl : word.code = if word = .w8 then 0b00#2 else if word = .w7 then 0b01#2 else 0b10#2 := by
    cases word <;> rfl
  have pce : parity.pce = decide (parity ≠ .none) := by cases parity <;> rfl
  have ps : parity.ps = decide (parity = .odd) := by cases parity <;> rfl
  have stop2 : stop.stop2 = decide (stop = .two) := by cases stop <;> rfl
  simp only [configuredBlock, wl, pce, ps, stop2]

section Words

variable {s : State} {d : Nat} {c : LineConfig} {v : Word}
  (hs : s = { configuredBlock d c with rxneie := true, ue := true, rdata := v })

include hs

theorem configured_brr (hd : d ≤ 65535) : s.peek Layout.default .brr = BitVec.ofNat 32 d := by
  subst hs
  rw [State.peek, brrWord_default]
  apply BitVec.eq_of_toNat_eq
  simp [configuredBlock]
  omega

theorem configured_cr1 : s.peek Layout.default .cr1 = (0x2020#32 |||
    (if c.wordLength = .w8 then 0#32 else if c.wordLength = .w7 then 0x0800#32 else 0x1000#32) |||
    (if c.parity = .none then 0#32 else if c.parity = .even then 0x0400#32 else 0x0600#32)) := by
  subst hs
  obtain ⟨rate, word, parity, stop⟩ := c
  rw [State.peek, cr1Word_default]
  cases word <;> cases parity <;> simp [configuredBlock, State.reset, WordLength.code, Parity.pce, Parity.ps]

theorem configured_cr2 : s.peek Layout.default .cr2 = if c.stopBits = .two then 0x2000#32 else 0#32 := by
  subst hs
  obtain ⟨rate, word, parity, stop⟩ := c
  rw [State.peek, cr2Word_default]
  cases stop <;> simp [configuredBlock, StopBits.stop2]

/-- No flag moves, so `SR` reads as after reset. -/
theorem configured_sr : s.peek Layout.default .sr = 0xC0#32 := by
  subst hs
  have : State.reset.srWord Layout.default = 0xC0#32 := by decide
  exact this

end Words

/-- Settles O51: the run from reset, its fields, and the words these are at the default layout. -/
theorem configureFromReset : Obligations.ConfigureFromReset := by
  refine ⟨fun p fClk c prio y h => runWith_configure_unsupported ((divisor_eq _ _).trans (if_pos h)),
    fun p fClk c prio y hl clock pos fits hy => ?_⟩
  have hd : divisor fClk c.bitRate = some (fClk.toNat / c.bitRate) :=
    (divisor_eq _ _).trans (if_neg (by omega))
  obtain ⟨v, run⟩ := runWith_configure hl hd hy
  refine ⟨_, run, ⟨v, by rw [configuredBlock_eq]⟩, fun _ => ?_⟩
  exact ⟨configured_brr rfl fits, configured_cr1 rfl, configured_cr2 rfl, configured_sr rfl⟩

end Sys2Proof.Machine

/-! What the host asks of every operation, whichever it is: when it completes (R271, R276), and that `RDR` is not
written by the bus and `TDR` not shown on it (R22, R131). -/

namespace Sys2Proof.Machine

/-- Settles O12: an operation is its effect behind the common pre-condition. -/
theorem operationCompletesUnlessResetOrGated : Obligations.OperationCompletesUnlessResetOrGated := by
  intro i s
  rw [exec_eq_busOp]
  exact ⟨fun reset => busOp_inReset reset _, fun released gated => busOp_clockGated released gated _,
    fun released clocked => ⟨_, busOp_running ((running_iff s).2 ⟨released, clocked⟩) _⟩⟩

/-- Settles O4: the first read clears `RXNE` and leaves `RDR`, so the second finds everything as it leaves it. -/
theorem secondRdDrChangesNothing : Obligations.SecondRdDrChangesNothing := by
  intro s t h
  obtain ⟨hr, rfl⟩ := (exec_next_iff .rdDr s t).1 h
  exact ⟨rfl, exec_running .rdDr hr⟩

theorem effect_rdr (l : Layout) (i : Instr) (s : State) : (effect l i s).rdr = s.rdr := by
  cases i with
  | wrCr1 w =>
    rw [effect_wrCr1]
    split <;> rfl
  | _ => rfl

/-- Each read shows another register, and a write leaves `rdata` alone. -/
theorem effect_rdata_of_tdr (l : Layout) (i : Instr) (s : State) (c : BitVec 9) :
    (effect l i { s with tdr := c }).rdata = (effect l i s).rdata := by
  cases i with
  | wrCr1 w =>
    rw [effect_wrCr1, effect_wrCr1]
    split <;> rfl
  | _ => rfl

/-- Settles O13, by what each operation does. -/
theorem busNeitherWritesRdrNorShowsTdr : Obligations.BusNeitherWritesRdrNorShowsTdr := by
  refine fun i s c => ⟨fun t h => ?_, fun t u ht hu => ?_⟩
  · obtain ⟨-, rfl⟩ := (exec_next_iff i s t).1 h
    exact effect_rdr _ i s
  · obtain ⟨-, rfl⟩ := (exec_next_iff i s t).1 ht
    obtain ⟨-, rfl⟩ := (exec_next_iff i _ u).1 hu
    exact (effect_rdata_of_tdr _ i s c).symm

end Sys2Proof.Machine

/-! Encoding after decoding (R90 to R94): a decoded operation names the bytes it was read from. -/

namespace Sys2Proof.Machine

/-- The selector of a decoded operation is the one it was decoded from, and it carries the data word exactly if
that selector is one of a write (R91, R93). -/
theorem decodeSelector_ok {sel : Byte} {w : Word} {i : Instr} (h : decodeSelector sel w = .ok i) :
    selectorOf i = sel ∧ i.data = if selW sel then some w else none := by
  rcases decodeSelector_cases sel w with ⟨-, e⟩ | ⟨-, -, e⟩ | ⟨size, aligned, e⟩ <;> cases e.symm.trans h
  refine ⟨selectorOf_slotReg sel w size aligned, ?_⟩
  cases selW sel <;> simp

/-- A read is encoded as its selector alone (R91). -/
theorem encode_of_read {sel : Byte} {w : Word} {i : Instr} (hr : selW sel = false)
    (h : decodeSelector sel w = .ok i) : encode i = [sel] := by
  obtain ⟨selector, data⟩ := decodeSelector_ok h
  simp [encode, selector, data, hr]

/-- A write is encoded as its selector and the bytes of its data word (R91, log 9). -/
theorem encode_of_write {sel : Byte} {w : Word} {i : Instr} (hw : selW sel = true)
    (h : decodeSelector sel w = .ok i) : encode i = sel :: wordToBytes w := by
  obtain ⟨selector, data⟩ := decodeSelector_ok h
  simp [encode, selector, data, hw]

/-- Settles O17: a read takes its selector off the string, a write its selector and four bytes. -/
theorem encodeOfDecodeIsBytes : Obligations.EncodeOfDecodeIsBytes := by
  intro bs rest i h
  unfold decodeBytes at h
  split at h
  · cases h
  · split at h
    · cases h
    next read hread =>
      split at h
      next hw =>
        split at h
        · split at h
          · cases h
          next hi =>
            cases h
            rw [encode_of_write hw hi, wordToBytes_bytesToWord]
            rfl
        · cases h
      next hw =>
        cases h
        rw [encode_of_read (by simpa using hw) hread]
        rfl

end Sys2Proof.Machine

/-! The request (R243) in the words software reads: the bits of a mask that are set in a word. -/

namespace Sys2Proof.Machine

/-- A word masked to some bits is 0 exactly if each of them is 0 in it. -/
theorem and_maskOf_eq_zero_iff {bits : List Nat} (h : ∀ k ∈ bits, k < 32) (w : Word) :
    w &&& maskOf bits = 0#32 ↔ ∀ k ∈ bits, w.getLsbD k = false := by
  have masked (k : Nat) :
      (w &&& maskOf bits).getLsbD k = (w.getLsbD k && (decide (k < 32) && decide (k ∈ bits))) := by
    rw [BitVec.getLsbD_and, maskOf_getLsbD]
  constructor
  · intro zero k hk
    simpa [zero, h k hk, hk] using (masked k).symm
  · intro clear
    apply BitVec.eq_of_getLsbD_eq
    intro k hk
    rw [masked]
    by_cases mem : k ∈ bits <;> simp [mem, clear]

theorem and_maskOf_bne_zero {bits : List Nat} (h : ∀ k ∈ bits, k < 32) (w : Word) :
    (w &&& maskOf bits != 0#32) = bits.any w.getLsbD := by
  rw [Bool.eq_iff_iff, bne_iff_ne, ne_eq, and_maskOf_eq_zero_iff h]
  simp

/-- The mask of both sources: `RXNE` and `RXNEIE` share one bit of the default layout, `TXE` and `TXEIE` another
(R243). -/
theorem irqMask_default : 0xA0#32 = maskOf [Layout.default.rxne, Layout.default.txe] := by decide

/-- Settles O27: at the default layout a source and its enable stand at the same bit of `SR` and `CR1`. -/
theorem irqIsMaskOfStatusAndEnables : Obligations.IrqIsMaskOfStatusAndEnables := by
  intro s
  obtain ⟨txe, -, rxne, -⟩ := srWord_fields s layout_default_wf
  obtain ⟨-, -, -, -, txeie, rxneie⟩ := cr1Word_fields s layout_default_wf
  have txeie : (s.cr1Word Layout.default).getLsbD Layout.default.txe = s.txeie := txeie
  have rxneie : (s.cr1Word Layout.default).getLsbD Layout.default.rxne = s.rxneie := rxneie
  refine ⟨by simp [State.irq], ?_⟩
  rw [irqMask_default, and_maskOf_bne_zero (by decide)]
  simp [State.irq, txe, rxne, txeie, rxneie]

end Sys2Proof.Machine

/-! Reset and the clock gate (R270, R276), and the pin `irq` in time (R292). -/

namespace Sys2Proof.Machine

theorem not_running_of_inReset {s : State} (h : s.rstN = false) : s.running = false := by
  simp [State.running, h]

theorem not_running_of_gated {s : State} (h : s.clkEn = false) : s.running = false := by
  simp [State.running, h]

/-- In a block that is stopped a cycle is its access alone (log 19). -/
theorem clockCycle_not_running {s : State} (h : s.running = false) (p : Params) (access : Option HostAccess)
    (x : Level) : clockCycle p access x s = accessIn p access s := if_neg (by simp [h])

/-- Settles O25: while `rst_n` = 0 the block does not run. -/
theorem resetFromAnyState : Obligations.ResetFromAnyState :=
  fun _ s => ⟨s.resetBlock, rfl, rfl, fun _ engine => engine_not_running engine (not_running_of_inReset rfl), rfl⟩

/-- Settles O26: while `clk_en` = 0 the block does not run. -/
theorem clockGateFreezesBlock : Obligations.ClockGateFreezesBlock := by
  intro p s clocked
  have stopped : ({ s with clkEn := false } : State).running = false := not_running_of_gated rfl
  refine ⟨{ s with clkEn := false }, rfl, rfl, rfl, fun e engine => engine_not_running engine stopped,
    clockCycle_not_running stopped p none, fun released i => ?_, ?_⟩
  · rw [exec_eq_busOp, busOp_clockGated released rfl]
  · rw [runEvent, clkUngate, ← clocked]

/-- Settles O56: the pin is registered last in a cycle, and a cycle of a block that is stopped is none. -/
theorem irqPinFollowsOneCycleLater : Obligations.IrqPinFollowsOneCycleLater := by
  refine ⟨fun p access x s t hr h => ?_, fun p access x s t hr h => ?_, fun p s t h => ?_⟩
  · obtain ⟨u, rfl⟩ := clockCycle_next hr h
    rfl
  · rw [accessIn_not_running hr ((clockCycle_not_running hr p access x).symm.trans h)]
  · cases h
    rfl

end Sys2Proof.Machine

/-! A driver that respects the hazards of R280, R285 and R286 never meets the reserved word length (R105). -/

namespace Sys2Proof.Machine

/-- The outcome is not the refusal of the reserved word length, and a state it leads to has legal ones. -/
def AvoidsReservedWL (r : Result) : Prop :=
  r ≠ .refused .reservedWL ∧ ∀ t, r = .next t → t.legalWordLength

section Avoids

theorem avoidsReservedWL_next {s : State} (h : s.legalWordLength) : AvoidsReservedWL (.next s) := by
  refine ⟨nofun, ?_⟩
  rintro _ ⟨⟩
  exact h

theorem avoidsReservedWL_refused {r : Refusal} (h : r ≠ .reservedWL) : AvoidsReservedWL (.refused r) := by
  refine ⟨?_, fun t same => by cases same⟩
  rintro ⟨⟩
  exact h rfl

theorem AvoidsReservedWL.andThen {r : Result} {f : State → Result} (hr : AvoidsReservedWL r)
    (hf : ∀ t : State, t.legalWordLength → AvoidsReservedWL (f t)) : AvoidsReservedWL (andThen r f) := by
  cases r with
  | next t => exact hf t (hr.2 t rfl)
  | fault e => nomatch e
  | refused e => exact avoidsReservedWL_refused fun same => hr.1 (congrArg _ same)

/-- Neither the refusal nor the word lengths belong to the timing level. -/
theorem AvoidsReservedWL.of_untimedOutcome {q r : Result} (hr : AvoidsReservedWL r)
    (h : untimedOutcome q = untimedOutcome r) : AvoidsReservedWL q := by
  cases q with
  | next t =>
    obtain ⟨u, rfl, same⟩ := untimedOutcome_next h
    have legal : u.untimed.legalWordLength := hr.2 u rfl
    rw [← same] at legal
    exact avoidsReservedWL_next legal
  | fault e => nomatch e
  | refused e =>
    cases r with
    | refused e' =>
      cases h
      exact hr
    | next t => cases h
    | fault e => nomatch e

end Avoids

/-! ## The engines -/

section Engines

variable {s : State} (hs : s.legalWordLength)

include hs

theorem nbits_ne_none_of_legal : nbits s.wl ≠ none := mt (nbits_eq_none_iff s.wl).1 hs.1

theorem need_ne_none_of_legal (hx : s.rxs = .rRecv) : s.rxcfg.need ≠ none := by
  rw [ne_eq, need_eq_none_iff, nbits_eq_none_iff]
  exact hs.2 hx

theorem txLoad_avoidsReservedWL : AvoidsReservedWL (txLoad s) := by
  rcases txLoad_cases s with ⟨-, e⟩ | ⟨-, none, -⟩ | ⟨f, -, -, e⟩
  · exact e ▸ avoidsReservedWL_next hs
  · exact absurd ((frame_eq_none_iff _ _ _ _ _).1 none) hs.1
  · exact e ▸ avoidsReservedWL_next hs

theorem txBit_avoidsReservedWL : AvoidsReservedWL (txBit s) := by
  rcases txBit_cases s with ⟨-, e⟩ | ⟨b, rest, -, -, -, e⟩ <;> exact e ▸ avoidsReservedWL_next hs

theorem txEnd_avoidsReservedWL : AvoidsReservedWL (txEnd s) := by
  rcases txEnd_cases s with ⟨-, e⟩ | ⟨-, -, -, e⟩ <;> exact e ▸ avoidsReservedWL_next hs

theorem txChar_avoidsReservedWL : AvoidsReservedWL (txChar s) := by
  rcases txChar_cases s with ⟨-, e⟩ | ⟨-, -, e⟩ <;> exact e ▸ avoidsReservedWL_next hs

/-- The frame that begins latches the word length of `CR1` (R200). -/
theorem rxStart_avoidsReservedWL : AvoidsReservedWL (rxStart s) := by
  rcases rxStart_cases s with ⟨-, e⟩ | ⟨-, none, -⟩ | ⟨n, -, -, e⟩
  · exact e ▸ avoidsReservedWL_next hs
  · exact absurd none (nbits_ne_none_of_legal hs)
  · exact e ▸ avoidsReservedWL_next ⟨hs.1, fun _ => hs.1⟩

theorem rxBit_avoidsReservedWL (b : Level) : AvoidsReservedWL (rxBit b s) := by
  rcases rxBit_cases b s with ⟨e, -⟩ | ⟨-, hx, none, -⟩ | ⟨n, -, -, -, -, e⟩
  · exact e ▸ avoidsReservedWL_next hs
  · exact absurd none (need_ne_none_of_legal hs hx)
  · exact e ▸ avoidsReservedWL_next hs

theorem deliver_legalWordLength (c : RxChar) : (s.deliver c).legalWordLength := by
  rw [deliver_eq]
  exact hs

/-- The frame in flight is over, so its word length counts no more (R203). -/
theorem rxEnd_avoidsReservedWL : AvoidsReservedWL (rxEnd s) := by
  rcases rxEnd_cases s with ⟨e, -⟩ | ⟨-, hx, none, -⟩ | ⟨n, -, -, -, -, e⟩
  · exact e ▸ avoidsReservedWL_next hs
  · exact absurd none (need_ne_none_of_legal hs hx)
  · exact e ▸ avoidsReservedWL_next ⟨(deliver_legalWordLength hs _).1, nofun⟩

theorem rxChar_avoidsReservedWL (d : BitVec 9) (q stop : Level) : AvoidsReservedWL (rxChar d q stop s) := by
  rcases rxChar_cases d q stop s with ⟨-, e⟩ | ⟨-, none, -⟩ | ⟨n, -, -, e⟩
  · exact e ▸ avoidsReservedWL_next hs
  · exact absurd none (nbits_ne_none_of_legal hs)
  · exact e ▸ avoidsReservedWL_next (deliver_legalWordLength hs _)

theorem engine_avoidsReservedWL (p : Params) {e : Event} (he : e.isEngine = true) :
    AvoidsReservedWL (runEvent p e s) := by
  cases e with
  | txLoad => exact txLoad_avoidsReservedWL hs
  | txBit => exact txBit_avoidsReservedWL hs
  | txEnd => exact txEnd_avoidsReservedWL hs
  | txChar => exact txChar_avoidsReservedWL hs
  | rxStart => exact rxStart_avoidsReservedWL hs
  | rxBit b => exact rxBit_avoidsReservedWL hs b
  | rxEnd => exact rxEnd_avoidsReservedWL hs
  | rxChar d q stop => exact rxChar_avoidsReservedWL hs d q stop
  | host _ | rstAssert | rstRelease | clkGate | clkUngate | cycle _ _ => cases he

end Engines

theorem engines_avoidReservedWL (p : Params) {es : List Event} (engines : ∀ e ∈ es, e.isEngine = true)
    {s : State} (hs : s.legalWordLength) : AvoidsReservedWL (runEvents p es s) := by
  induction es generalizing s with
  | nil => exact avoidsReservedWL_next hs
  | cons e es ih =>
    obtain ⟨he, hes⟩ := List.forall_mem_cons.1 engines
    exact (engine_avoidsReservedWL hs p he).andThen fun _ => ih hes

/-! ## The driver -/

/-- A write of `CR1` that respects R286 stores a legal word length. -/
theorem wdataWL_of_safe {l : Layout} {s : State} {w : Word} (h : safeOperation l s (.wrCr1 w) = true) :
    wdataWL l w ≠ Config.wlReserved := by
  obtain ⟨legal, -⟩ := Bool.and_eq_true_iff.1 h
  exact bne_iff_ne.1 legal

theorem effect_legalWordLength {l : Layout} {i : Instr} {s : State} (hs : s.legalWordLength)
    (safe : safeOperation l s i = true) : (effect l i s).legalWordLength := by
  cases i with
  | wrCr1 w =>
    rw [effect_wrCr1]
    split
    · exact ⟨wdataWL_of_safe safe, nofun⟩
    · exact ⟨wdataWL_of_safe safe, hs.2⟩
  | _ => exact hs

/-- An access is refused for its shape, for reset or for the clock gate, never for a word length. -/
theorem accessIn_avoidsReservedWL {p : Params} {e : Event} {s : State} (hs : s.legalWordLength)
    (safe : safeStep p s e = true) : AvoidsReservedWL (accessIn p e.access s) := by
  cases ha : e.access with
  | none => exact avoidsReservedWL_next hs
  | some a =>
    rcases hostAccess_cases p a s with ⟨-, r, refused, other⟩ | ⟨i, hi, performed⟩
    · rw [accessIn, refused]
      exact avoidsReservedWL_refused other
    · have operation : e.operation p = some i := by simpa [Event.operation, ha] using hi
      have safe : safeOperation p.layout s i = true := by simpa [safeStep, operation] using safe
      rw [accessIn, performed]
      rcases busOp_cases (effect p.layout i) s with ⟨-, e⟩ | ⟨-, e⟩ | ⟨-, -, e⟩ <;> rw [execAt, e]
      · exact avoidsReservedWL_next (effect_legalWordLength hs safe)
      · exact avoidsReservedWL_refused nofun
      · exact avoidsReservedWL_refused nofun

/-- A cycle is its access and then engine steps, timing level aside (R288). -/
theorem clockCycle_avoidsReservedWL {p : Params} {access : Option HostAccess} {x : Level} {s : State}
    (hs : s.legalWordLength) (safe : safeStep p s (.cycle access x) = true) :
    AvoidsReservedWL (runEvent p (.cycle access x) s) := by
  obtain ⟨es, engines, same⟩ := clockCycleIsRunOfAtomicSteps p access x s
  rw [runEvents_append, ← accessIn_eq_runEvents] at same
  exact ((accessIn_avoidsReservedWL hs safe).andThen fun _ => engines_avoidReservedWL p engines).of_untimedOutcome same

/-- Settles O46, step by step: only a write of `CR1` stores a word length, and only `RX_START` latches one. -/
theorem safeDriverNeverMeetsReservedWordLength : Obligations.SafeDriverNeverMeetsReservedWordLength := by
  intro p e s hs safe
  show AvoidsReservedWL (runEvent p e s)
  cases e with
  | host a => exact accessIn_avoidsReservedWL (e := .host a) hs safe
  | txLoad | txBit | txEnd | txChar | rxStart | rxBit _ | rxEnd | rxChar _ _ _ =>
    exact engine_avoidsReservedWL hs p rfl
  | rstAssert => exact avoidsReservedWL_next ⟨nofun, nofun⟩
  | rstRelease | clkGate | clkUngate => exact avoidsReservedWL_next hs
  | cycle access rxd => exact clockCycle_avoidsReservedWL hs safe

end Sys2Proof.Machine

/-! A read of `DR` in the cycle in which a frame ends (R288). The transmitter's part of the cycle writes nothing the
receiver or the host reads, and the receiver's part finds the room that the read has made. -/

namespace Sys2Proof.Machine

/-! ## The transmitter's part -/

/-- The state with the fields that the transmitter's part of a cycle may write put at fixed values. -/
def State.withoutTransmitter (s : State) : State :=
  { s with txe := true, txs := .tIdle, tsr := [], txd := true, lineOut := [], txCnt := 0#16, freeCtr := 0 }

theorem txBit_keepsRest : Keeps State.withoutTransmitter txBit := txBit_keeps fun _ _ _ _ _ => rfl

theorem txEnd_keepsRest : Keeps State.withoutTransmitter txEnd := txEnd_keeps fun _ => rfl

theorem txLoadAndDrive_keepsRest : Keeps State.withoutTransmitter txLoadAndDrive :=
  (txLoad_keeps fun _ _ _ => rfl).andThen txBit_keepsRest

/-- Beside its own fields the transmitter moves only the index of free values. -/
theorem txClock_keepsRest (c : Bool) : Keeps State.withoutTransmitter (txClock c) := by
  intro s t h
  rcases txClock_cases c s with e | ⟨-, -, e⟩ | ⟨k, f, -, e | ⟨-, e⟩ | ⟨-, e⟩ | ⟨-, -, e⟩⟩
  · exact (keeps_next (e.symm.trans h) :)
  · exact (txLoadAndDrive_keepsRest (e.symm.trans h) :)
  · cases e.symm.trans h
    rfl
  · exact (txBit_keepsRest (e.symm.trans h) :)
  · exact (txEnd_keepsRest (e.symm.trans h) :)
  · exact (txEnd_keepsRest.andThen txLoadAndDrive_keepsRest (e.symm.trans h) :)

/-! ## The receiver's part -/

/-- A receiver that has sampled `levels`; the rest is timing level. -/
def State.sampling (s : State) (levels : List Level) (k : BitVec 16) (f : Nat) (b : Bool) : State :=
  { s with rsr := levels, rxCnt := k, freeCtr := f, startPending := b }

/-- A receiver that had sampled `levels` has delivered the character they carry, and is idle (R203). -/
def State.afterFrame (s : State) (n : Nat) (levels : List Level) (k : BitVec 16) (f : Nat) (b : Bool) : State :=
  { (s.sampling levels k f b).deliver (rxDecode n s.rxcfg.pce s.rxcfg.ps levels) with rsr := [], rxs := .rIdle }

/-- The frame that ends: all the levels it takes, the last of which may be the level of this cycle (R203, R291). -/
structure EndsFrame (s : State) (level : Level) (n : Nat) (levels : List Level) : Prop where
  bits : nbits s.rxcfg.wl = some n
  complete : levels.length = n + s.rxcfg.pce.toNat + 1
  sampled : levels = s.rsr ∨ levels = s.rsr ++ [level]

section ToIdle

variable {level : Level} {s t : State} (hx : s.rxs = .rRecv) (idle : t.rxs = .rIdle)

include hx idle

/-- If `RX_END` leaves a receiver idle that was in a frame, it has ended the frame (R203). -/
theorem rxEnd_to_idle {levels : List Level} {k : BitVec 16} {f : Nat} {b : Bool}
    (sampled : levels = s.rsr ∨ levels = s.rsr ++ [level]) (h : rxEnd (s.sampling levels k f b) = .next t) :
    ∃ n levels k f b, EndsFrame s level n levels ∧ t = s.afterFrame n levels k f b := by
  rcases rxEnd_cases (s.sampling levels k f b) with ⟨e, -⟩ | ⟨-, -, -, e⟩ | ⟨n, -, -, hn, complete, e⟩ <;>
    cases e.symm.trans h
  · cases hx.symm.trans idle
  · rw [need_eq hn] at complete
    exact ⟨n, levels, k, f, b, ⟨hn, (Option.some.inj complete).symm, sampled⟩, rfl⟩

/-- A cycle that leaves a receiver idle that was in a frame has ended the frame, after a sample or without one. -/
theorem rxClock_to_idle {edge : Level} (h : rxClock level edge s = .next t) :
    ∃ n levels k f b, EndsFrame s level n levels ∧ t = s.afterFrame n levels k f b := by
  obtain ⟨k, f, b, -, e | ⟨hidle, -, -⟩ | ⟨-, e⟩ | ⟨-, -, -, e⟩⟩ := rxClock_cases level edge s
  · cases e.symm.trans h
    cases hx.symm.trans idle
  · cases hx.symm.trans hidle
  · exact rxEnd_to_idle hx idle (.inl rfl) (e.symm.trans h)
  · obtain ⟨u, sample, close⟩ := (andThen_next_iff _ _ _).1 (e.symm.trans h)
    rcases rxBit_cases level (s.rxTimed k f b) with ⟨e, -⟩ | ⟨-, -, -, e⟩ | ⟨m, -, -, -, -, e⟩ <;>
      cases e.symm.trans sample
    · exact rxEnd_to_idle hx idle (.inl rfl) close
    · exact rxEnd_to_idle hx idle (.inr rfl) close

end ToIdle

/-! ## The cycle -/

/-- An access that stands for an operation and completes has had its effect. -/
theorem accessIn_of_operation {p : Params} {a : HostAccess} {i : Instr} {s t : State} (hi : operation p a = some i)
    (h : accessIn p (some a) s = .next t) : t = effect p.layout i s := by
  obtain ⟨j, hj, rfl⟩ := hostAccess_next h
  cases hi.symm.trans hj
  rfl

/-- Settles O50: the read leaves `RXNE` = 0, so the delivery stores. -/
theorem readInCycleOfFrameEndLosesNothing : Obligations.ReadInCycleOfFrameEndLosesNothing := by
  intro p s t a x hr hi hx full h idle
  rw [runEvent, clockCycle, if_pos hr] at h
  obtain ⟨s₁, host, h⟩ := (andThen_next_iff _ _ _).1 h
  obtain ⟨s₂, tx, h⟩ := (andThen_next_iff _ _ _).1 h
  obtain ⟨s₃, rx, h⟩ := (andThen_next_iff _ _ _).1 h
  cases h
  obtain rfl := accessIn_of_operation hi host
  have rest {α : Type} (g : State → α) := congrArg g (txClock_keepsRest _ tx)
  have idle : s₃.rxs = .rIdle := idle
  have receiving : s₂.rxs = .rRecv := (rest State.rxs).trans hx
  have free : s₂.rxne = false := rest State.rxne
  have cfg : s₂.rxcfg = s.rxcfg := rest State.rxcfg
  have rsr : s₂.rsr = s.rsr := rest State.rsr
  obtain ⟨n, levels, k, f, b, ⟨bits, complete, sampled⟩, rfl⟩ := rxClock_to_idle receiving idle rx
  rw [cfg] at bits complete
  rw [rsr] at sampled
  rw [State.afterFrame, deliver_free (by exact free), cfg]
  exact ⟨rest State.rdata, rfl, rest State.ore, n, levels, bits, by rw [complete, ite_eq_toNat], sampled, rfl,
    congrArg (· || _) (rest State.pe), congrArg (· || _) (rest State.fe)⟩

end Sys2Proof.Machine

/-! Read-modify-writes of `SR` (R281): the error flags are cleared by the very bits that were read. -/

namespace Sys2Proof.Machine

/-! ## The word written -/

section SrWord

variable (s : State) {l : Layout} (hl : l.wf = true)

include hl

theorem clearErrors_srWord_or (v m : Word) : (s.setRdata v).clearErrors l (s.srWord l ||| m) =
    { s with ore := false, fe := false, pe := false, rdata := v } := by
  obtain ⟨-, -, -, ore, fe, pe⟩ := srWord_fields s hl
  have kept (b c : Bool) : (b && !(b || c)) = false := by cases b <;> rfl
  simp only [State.clearErrors, State.setRdata, BitVec.getLsbD_or, ore, fe, pe, kept]

theorem clearErrors_srWord_and_not (v m : Word) : (s.setRdata v).clearErrors l (s.srWord l &&& ~~~m) =
    { s with ore := s.ore && m.getLsbD l.ore, fe := s.fe && m.getLsbD l.fe, pe := s.pe && m.getLsbD l.pe,
             rdata := v } := by
  obtain ⟨-, -, -, ore, fe, pe⟩ := srWord_fields s hl
  obtain ⟨⟨-, -, -, ore_lt, fe_lt, pe_lt⟩, -⟩ := srBits_iff l hl
  have kept (b c : Bool) : (b && !(b && !c)) = (b && c) := by cases b <;> cases c <;> rfl
  simp only [State.clearErrors, State.setRdata, BitVec.getLsbD_and, BitVec.getLsbD_not, ore, fe, pe, ore_lt, fe_lt,
    pe_lt, decide_true, Bool.true_and, kept]

/-- The bit of one error flag clears that flag alone (R122). -/
theorem clearErrors_placeBit :
    s.clearErrors l (placeBit l.ore true) = { s with ore := false } ∧
      s.clearErrors l (placeBit l.fe true) = { s with fe := false } ∧
      s.clearErrors l (placeBit l.pe true) = { s with pe := false } := by
  obtain ⟨⟨-, -, -, ore_lt, fe_lt, pe_lt⟩, -, -, -, ⟨ore_fe, ore_pe⟩, fe_pe⟩ := srBits_iff l hl
  simp only [State.clearErrors, placeBit_getLsbD]
  simp [ore_lt, fe_lt, pe_lt, ore_fe, ore_pe, fe_pe, ore_fe.symm, ore_pe.symm, fe_pe.symm]

end SrWord

/-! ## The sequences -/

/-- A sequence that answers, and the one after it. -/
theorem runWith_bind_of_next {α β γ : Type} {p : Params} {f : γ → System → Host.Outcome System Fault Refusal}
    {q : Script α} {g : α → Script β} {y z : System} {a : α} (h : q.runWith p f [] y = .next (a, z)) :
    (q.bind g).runWith p f [] y = (g a).runWith p f [] z := by
  rw [runWith_bind, h, andThen_next]

section Sequence

variable {γ : Type} {p : Params} {f : γ → System → Host.Outcome System Fault Refusal} {y : System}
  (hr : y.block.running = true)

include hr

theorem runWith_rdSr : (rdReg .sr).runWith p f [] y =
    .next (y.block.srWord p.layout, y.withBlock (y.block.setRdata (y.block.srWord p.layout))) :=
  runWith_bus p f y .rdSr _ hr

theorem runWith_wrSr (w : Word) : (wrReg .sr w).runWith p f [] y =
    .next ((), y.withBlock (y.block.clearErrors p.layout w)) := runWith_bus p f y (.wrSr w) _ hr

/-- A read of `SR` and a write of a word made from what was read. The error flags request nothing, so the line sees
what it sees after the write alone (R222, R243). -/
theorem runWith_modifySr (g : Word → Word) : ((rdReg .sr).bind fun t => wrReg .sr (g t)).runWith p f [] y =
    .next ((), y.withBlock
      ((y.block.setRdata (y.block.srWord p.layout)).clearErrors p.layout (g (y.block.srWord p.layout)))) := by
  rw [runWith_bind_of_next (runWith_rdSr hr)]
  have write := runWith_wrSr (p := p) (f := f) (y := y.withBlock (y.block.setRdata (y.block.srWord p.layout))) hr
    (g (y.block.srWord p.layout))
  refine write.trans ?_
  rw [withBlock_twice_of_le]
  · rfl
  · exact id

end Sequence

/-- Settles O53: each sequence clears the flags of the word it writes. -/
theorem readModifyWriteOfSrLosesErrorFlags : Obligations.ReadModifyWriteOfSrLosesErrorFlags := by
  refine ⟨by decide, fun p y m hl hr => ?_⟩
  obtain ⟨ore, fe, pe⟩ := clearErrors_placeBit y.block hl
  refine ⟨⟨y.block.srWord p.layout, ?_⟩, ⟨y.block.srWord p.layout, ?_⟩, ?_, ?_, ?_⟩
  · rw [← clearErrors_srWord_or y.block hl _ m]
    exact runWith_modifySr hr (· ||| m)
  · rw [← clearErrors_srWord_and_not y.block hl _ m]
    exact runWith_modifySr hr (· &&& ~~~m)
  · rw [← ore]
    exact runWith_wrSr hr _
  · rw [← fe]
    exact runWith_wrSr hr _
  · rw [← pe]
    exact runWith_wrSr hr _

end Sys2Proof.Machine

/-! What falls between the read and the write of a `SETBITS CR1` (R282): the write puts back what was read before. -/

namespace Sys2Proof.Machine

theorem params_wf_layout {p : Params} (h : p.wf = true) : p.layout.wf = true := by
  simp only [Params.wf, Bool.and_eq_true] at h
  exact h.2

/-- One item in the gap before a step. -/
theorem gap_single {γ : Type} (f : γ → System → Host.Outcome System Fault Refusal) (g : γ) (y : System) :
    System.gap f [g] y = f g y := by
  rw [System.gap]
  cases f g y <;> rfl

/-- `SETBITS CR1` with one item `g` in its middle: the word written is made of what was read before `g` (R222). -/
theorem runWith_setBitsCr1_around {γ : Type} {p : Params} {f : γ → System → Host.Outcome System Fault Refusal}
    {y z : System} {g : γ} (m : Word) (hr : y.block.running = true)
    (between : f g (y.withBlock (y.block.setRdata (y.block.cr1Word p.layout))) = .next z)
    (hz : z.block.running = true) : (setBits .cr1 m).runWith p f [[], [g]] y =
      .next ((), z.withBlock (effect p.layout (.wrCr1 (y.block.cr1Word p.layout ||| m)) z.block)) := by
  simp [setBits, wrReg, readOf, writeOf, Script.runWith, execAt_running, hr, gap_single, between, hz]

/-- An access of another master for an operation has the effect of that operation (R10, R74). -/
theorem event_accessOf {p : Params} {y : System} (hp : p.wf = true) (hr : y.block.running = true) (i : Instr) :
    y.event p (.host (accessOf p i)) = .next (y.withBlock (effect p.layout i y.block)) := by
  rw [System.event, runEvent, hostAccess_accessOf hp, execAt_running _ i hr, andThen_next]

/-- Settles O54: the intervening write changes `CR1`, but not the word that is then stored in it. -/
theorem readModifyWriteOfCr1LosesInterveningWrite : Obligations.ReadModifyWriteOfCr1LosesInterveningWrite := by
  refine ⟨maskOf_default.1, fun p y m w hr hp => ?_⟩
  have other := event_accessOf (y := y.withBlock (y.block.setRdata (y.block.cr1Word p.layout))) hp hr (.wrCr1 w)
  exact ⟨_, runWith_setBitsCr1_around m hr other ((effect_running p.layout (.wrCr1 w) _).trans hr),
    cr1Word_wrCr1 (params_wf_layout hp) _ _, rfl⟩

/-! ## The handler in the middle -/

/-- An enabled line that is not served is requested while the block requests (R248, R258). -/
theorem requested_of_irq {p : Params} {y : System} (enabled : y.line.enabled = true) (irq : y.block.irq = true)
    (idle : y.serving = false) : y.requested p = some p.uartIrqId := by
  simp [System.requested, System.lineNow, enabled, irq, idle]

theorem interrupt_of_requested {p : Params} {y z : System} {handler : Script Unit} {gaps : List (List Event)}
    (h : y.requested p = some p.uartIrqId) (run : handler.runHandler p gaps y.enter = .next ((), z)) :
    y.interrupt p handler gaps = .next z.leave := by
  simp [System.interrupt, h, run]

/-- `ON_TX_READY` with the last byte of the backlog resets both counts (R220, R226). -/
theorem alone_onTxReady_last {p : Params} {s : State} {fw : Firmware} {b : Byte} (hl : p.layout.wf = true)
    (hw : fw.wf p = true) (h : fw.backlog = [b]) : ∃ v fw', (onTxReady p).alone p.layout s fw =
      ((), { s with tdr := b.setWidth 9, txe := false, txeie := false, rdata := v }, fw') ∧
      fw'.sentCount = 0 ∧ fw'.pendingCount = 0 := by
  obtain ⟨cell, wf, backlog⟩ := store_sent_succ hw h
  have last := (backlog_eq_nil_iff wf).1 backlog
  rw [onTxReady, alone_bind _ _ alone_getSent, alone_bind _ _ (alone_getCell .tx _),
    alone_bind _ _ (alone_wrDr hl _), alone_bind _ _ alone_increment_sent, alone_bind _ _ alone_getSent,
    alone_bind _ _ alone_getPending, if_pos last, alone_bind _ _ (alone_put _), alone_bind _ _ (alone_put _),
    alone_disarm hl, cell]
  exact ⟨_, _, rfl, rfl, rfl⟩

/-- The handler with the last byte of the backlog to hand over (R224, R226). -/
theorem runHandler_last {p : Params} {y : System} {b : Byte} (hl : p.layout.wf = true)
    (hr : y.block.running = true) (hw : y.fw.wf p = true) (txe : y.block.txe = true) (h : y.fw.backlog = [b]) :
    ∃ z, (onInterrupt p).runHandler p [] y = .next ((), z) ∧ z.block.running = true ∧
      z.block.tdr = b.setWidth 9 ∧ z.block.txe = false ∧ z.fw.sentCount = 0 ∧ z.fw.pendingCount = 0 := by
  obtain ⟨v, handler⟩ := alone_onInterrupt hl hr hw
  obtain ⟨v', fw', sends, sent, pending⟩ := alone_onTxReady_last
    (s := { y.block with rxne := false, rdata := v }) hl (afterReceiver_wf (s := y.block) hw)
    ((afterReceiver_backlog hw).trans h)
  rw [if_pos (by simp [txe, h]), sends] at handler
  obtain ⟨z, run, block, rfl, -⟩ := runWith_of_alone hr handler
  refine ⟨z, run, ?_⟩
  rw [block]
  exact ⟨hr, rfl, rfl, sent, pending⟩

/-- The second test of `ON_INTERRUPT` loads counts at most, so the line stays as it is (R224). -/
theorem runWith_testReady_of_empty {γ : Type} {p : Params} {f : γ → System → Host.Outcome System Fault Refusal}
    {y : System} (reg : Bool) (empty : y.fw.sentCount = y.fw.pendingCount) :
    (if reg then backlogWaits else .done false).runWith p f [] y = .next (false, y) := by
  cases reg
  · rfl
  · simp [backlogWaits, Firmware.count, empty]

/-- The handler with no character to take and no byte to hand over only reads the status (R224). -/
theorem runHandler_idle {p : Params} {y : System} (hl : p.layout.wf = true) (hr : y.block.running = true)
    (rxne : y.block.rxne = false) (empty : y.fw.sentCount = y.fw.pendingCount) :
    (onInterrupt p).runHandler p [] y =
      .next ((), y.withBlock (y.block.setRdata (y.block.srWord p.layout))) := by
  obtain ⟨-, -, shown, -⟩ := srWord_fields y.block hl
  rw [onInterrupt, Script.runHandler, runWith_bind_of_next (runWith_rdSr hr), shown, rxne,
    if_neg Bool.false_ne_true, Script.bind_done,
    runWith_bind_of_next (runWith_testReady_of_empty (y := y.withBlock _) _ empty)]
  rfl

/-- A write of `CR1`, aborting or not, hands nothing over and takes nothing back (R156). -/
theorem effect_wrCr1_transmit (l : Layout) (w : Word) (s : State) :
    (effect l (.wrCr1 w) s).tdr = s.tdr ∧ (effect l (.wrCr1 w) s).txe = s.txe ∧
      (effect l (.wrCr1 w) s).txeie = wdataTXEIE l w := by
  rw [effect_wrCr1]
  split <;> exact ⟨rfl, rfl, rfl⟩

/-- The handler in the middle of arming, with the last byte to hand over: its disarming is lost (R282, R283). -/
theorem runUnder_arm_around_last {p : Params} {y : System} {b : Byte} (hl : p.layout.wf = true)
    (hr : y.block.running = true) (hw : y.fw.wf p = true) (irq : y.block.irq = true) (txe : y.block.txe = true)
    (h : y.fw.backlog = [b]) (enabled : y.line.enabled = true) (idle : y.serving = false) : ∃ z,
    (setBits .cr1 (placeBit p.layout.txeie true)).run p [[], [.interrupt []]] y = .next ((), z) ∧
      z.block.tdr = b.setWidth 9 ∧ z.block.txe = false ∧ z.block.txeie = true ∧
      z.fw.sentCount = 0 ∧ z.fw.pendingCount = 0 ∧ z.serving = false := by
  have requested : (y.withBlock (y.block.setRdata (y.block.cr1Word p.layout))).requested p = some p.uartIrqId :=
    requested_of_irq enabled irq idle
  obtain ⟨z, run, running, tdr, empty, sent, pending⟩ := runHandler_last
    (y := (y.withBlock (y.block.setRdata (y.block.cr1Word p.layout))).enter) hl hr hw txe h
  have between := interrupt_of_requested requested run
  obtain ⟨tdr', empty', armed⟩ := effect_wrCr1_transmit p.layout
    (y.block.cr1Word p.layout ||| placeBit p.layout.txeie true) z.leave.block
  exact ⟨_, runWith_setBitsCr1_around (f := System.interlude p (onInterrupt p)) (g := .interrupt []) _ hr between
    running, tdr'.trans tdr, empty'.trans empty, armed.trans (wdataTXEIE_or_mask hl _), sent, pending, rfl⟩

/-- Settles O60: the stale write arms an empty backlog, and there the handler finds nothing to do and is requested
again (R247). -/
theorem staleArmLeavesArmedEmptyBacklog : Obligations.StaleArmLeavesArmedEmptyBacklog := by
  refine ⟨fun p y b hl hr hw irq txe h enabled idle => ?_, fun p y hl hr txe txeie rxne empty enabled idle => ?_⟩
  · obtain ⟨z, run, tdr, txe', txeie, sent, pending, served⟩ :=
      runUnder_arm_around_last hl hr hw irq txe h enabled idle
    exact ⟨z, run, tdr, txe', txeie, sent, pending, by simp [Firmware.backlog, sent, pending], served⟩
  · have irq : y.block.irq = true := by simp [State.irq, txe, txeie]
    have run := runHandler_idle (y := y.enter) hl hr rxne empty
    exact ⟨_, _, interrupt_of_requested (requested_of_irq enabled irq idle) run, rfl, rfl,
      requested_of_irq enabled irq rfl⟩

end Sys2Proof.Machine
